-- ==== Sys2Proof/Word.lean ====
section
/-! DEFINITION. The word types of CORE (spec 00_scope.md R10, R12) and the plain four-fold tuple that the accumulator
registers and the seed-integration words share. -/

namespace Sys2Proof

/-- One byte of the buffer address space (R50). -/
abbrev Byte := BitVec 8

/-- A word of the 32-bit datapath, used by the command `H32` only (R10). -/
abbrev Half := BitVec 32

/-- A word of the 64-bit datapath; also the width of every host interface register and of an address (R10, R11). -/
abbrev Word := BitVec 64

/-- Four words of one width: the accumulator registers `R[0..3]` (R21) or the seed-integration words `I0..I3` (R171). -/
structure Quad (α : Type) where
  w0 : α
  w1 : α
  w2 : α
  w3 : α
deriving DecidableEq, Repr

end Sys2Proof
end

