-- ==== Sys2Proof/Config.lean ====
section
/-! DEFINITION. What an implementation fixes: the configuration record `Cfg` of mixing constants with the spec's defaults
(spec 00_scope.md R9), the open bus parameters (R11), and the free value that stands for the bytes the spec leaves open
(spec 93_implementation_defined.md U3). -/

namespace Sys2Proof

/-- The frozen domain parameters, "one configuration record `Cfg`" (R9). The rotation amounts are bounded by their type, so
that a rotation by the width or more cannot be written (U6). `Cfg.wf` (WellFormed.lean) states the other constraints. -/
structure Cfg where
  k0 : Word
  k1 : Word
  k2 : Word
  kmul : Word
  sh64 : Nat
  ra64 : Fin 64
  rb64 : Fin 64
  rc64 : Fin 64
  rd64 : Fin 64
  j0 : Half
  j1 : Half
  j2 : Half
  jmul : Half
  sh32 : Nat
  ra32 : Fin 32
  rb32 : Fin 32
  rc32 : Fin 32
  rd32 : Fin 32
deriving DecidableEq, Repr

/-- The default values of the table of R9. -/
def Cfg.default : Cfg where
  k0 := 0xc3a5c85c97cb3127
  k1 := 0xb492b66fbe98f273
  k2 := 0x9ae16a3b2f90404f
  kmul := 0x9ddfea08eb382d69
  sh64 := 47
  ra64 := 21
  rb64 := 44
  rc64 := 33
  rd64 := 29
  j0 := 0xcc9e2d51
  j1 := 0x1b873593
  j2 := 0xe6546b64
  jmul := 0x85ebca6b
  sh32 := 15
  ra32 := 11
  rb32 := 22
  rc32 := 17
  rd32 := 13

/-- DESIGN CHOICE, log entry 1: the configuration the machine `step` runs with is the spec's default record. Every unit
function takes its `Cfg` as an argument, so only `exec` and what rests on it is tied to these values. -/
def Config.cfg : Cfg := Cfg.default

/-- FREE VALUE, log entry 2: the byte that the read numbered `slot` returns at an address whose content another agent is
changing while the command runs ("each read ... the model draws freely for a changed byte", U3, R63). It has no body. -/
opaque Config.draw : (slot : Nat) → Byte

/-- `HIR_BASE`, the bus address of host register 0: an open parameter of the platform (R11, R60). It has no body. DESIGN
CHOICE, log entry 12: the spec gives it no width, and the model takes 64 bits. -/
opaque Config.hirBase : Word

/-- `HIR_STRIDE`, the bus distance between consecutive host registers: an open parameter of the platform (R11, R68). It
has no body. DESIGN CHOICE, log entry 12: the spec gives it no width, and the model takes 64 bits. -/
opaque Config.hirStride : Word

end Sys2Proof
end

