-- ==== Sys2Proof/Syntax.lean ====
section
/-! DEFINITION. The six commands of CH-CMD: one constructor for each row of spec/opcode_table.json (spec 30_encoding.md
R72). A command has no field: every operand is the whole value of a host register (R73), and which registers it reads is
fixed by the command number (R70). -/

namespace Sys2Proof

/-- The commands, in the order of the table (R72). -/
inductive Instr where
  /-- `H32`, "32-bit hash", `OP = 0` (R175). -/
  | h32
  /-- `H64`, "64-bit hash", `OP = 1` (R176). -/
  | h64
  /-- `H64S`, "64-bit hash with seed", `OP = 2` (R177). -/
  | h64s
  /-- `H64SS`, "64-bit hash with two seeds", `OP = 3` (R178). -/
  | h64ss
  /-- `H128`, "128-bit hash", `OP = 4` (R179). -/
  | h128
  /-- `H128S`, "128-bit hash with seed", `OP = 5` (R180). -/
  | h128s
deriving DecidableEq, Repr

end Sys2Proof
end

