-- ==== Sys2Proof/WellFormed.lean ====
section
/-! DEFINITION. Well-formedness: of a command, which has no field that could be ill formed (spec 30_encoding.md R70, R74),
and of a configuration record, whose constraints are "preconditions of instantiating the model" (spec
93_implementation_defined.md U13, 00_scope.md R9). -/

namespace Sys2Proof

/-- Every command is well formed: "There are no register-number fields, no immediate fields, no mode bits and no function
sub-fields" (R70). -/
def Instr.wellFormed : Instr → Bool
  | .h32 => true
  | .h64 => true
  | .h64s => true
  | .h64ss => true
  | .h128 => true
  | .h128s => true

/-- The 64-bit domain constants and multipliers are odd (R9). -/
def Cfg.oddWords (c : Cfg) : Bool :=
  c.k0.getLsbD 0 && c.k1.getLsbD 0 && c.k2.getLsbD 0 && c.kmul.getLsbD 0

/-- The 32-bit domain constants and multipliers are odd; `J2` is under no constraint (R9). -/
def Cfg.oddHalves (c : Cfg) : Bool :=
  c.j0.getLsbD 0 && c.j1.getLsbD 0 && c.jmul.getLsbD 0

/-- `SH64` lies in `1..63` and `SH32` in `1..31` (R9). -/
def Cfg.shiftsInRange (c : Cfg) : Bool :=
  decide (1 ≤ c.sh64) && decide (c.sh64 ≤ 63) && decide (1 ≤ c.sh32) && decide (c.sh32 ≤ 31)

/-- The constraints of the table of R9; the rotation amounts are bounded by their type. -/
def Cfg.wf (c : Cfg) : Bool :=
  c.oddWords && c.oddHalves && c.shiftsInRange

end Sys2Proof
end

