-- ==== Sys2Proof/Decode.lean ====
section
/-! DEFINITION. The command word: the decoding procedure of spec 30_encoding.md R76, total on every 64-bit word, the
encoder of the table of R72, and the host's numbering of a table row's bits. -/

namespace Sys2Proof

/-- What the decoding procedure answers: a command, or the rejection of the word by name (R76). -/
inductive Decoded where
  | command (i : Instr)
  /-- The word is illegal: a reserved bit is set or `OP` is 6 or 7 (R75). -/
  | illegalCommand
deriving DecidableEq, Repr

/-- The field `OP`, bits 2:0 of a command word (R70). -/
def opField (cw : Word) : BitVec 3 := cw.extractLsb' 0 3

/-- The field `RSV`, bits 63:3 of a command word, "must be zero" (R70). -/
def rsvField (cw : Word) : BitVec 61 := cw.extractLsb' 3 61

/-- The command a command number names; 6 and 7 name none (R72, R75). -/
def commandOf (op : BitVec 3) : Decoded :=
  if op = 0 then .command .h32
  else if op = 1 then .command .h64
  else if op = 2 then .command .h64s
  else if op = 3 then .command .h64ss
  else if op = 4 then .command .h128
  else if op = 5 then .command .h128s
  else .illegalCommand

/-- "if cw[63:3] != 0 or cw[2:0] > 5 then ILLEGAL else command number cw[2:0]" (R76). -/
def decode (cw : Word) : Decoded :=
  if rsvField cw = 0 then commandOf (opField cw) else .illegalCommand

/-- The command word of a command: the `match` column of the table of R72, whose mask is all ones. -/
def encode : Instr → Word
  | .h32 => 0x0000000000000000
  | .h64 => 0x0000000000000001
  | .h64s => 0x0000000000000002
  | .h64ss => 0x0000000000000003
  | .h128 => 0x0000000000000004
  | .h128s => 0x0000000000000005

/-- A command word from the number of a table row: the low `nbits` bits of `w`, every bit above them zero. CORE keeps a
command word in one 64-bit register, bit 0 its least significant bit (R71), so there is no byte order to lay out. -/
def tableWord (nbits w : Nat) : Nat := w % 2 ^ nbits

/-- The instruction that the decoder reads from a table row's bits; none where it refuses, and none for bits that do not
fit the one 64-bit format (R77). -/
def decodeTableWord (nbits w : Nat) : Option Instr :=
  if tableWord nbits w < 2 ^ 64 then
    match decode (BitVec.ofNat 64 (tableWord nbits w)) with
    | .command i => some i
    | .illegalCommand => none
  else none

end Sys2Proof
end

