-- ==== Sys2Proof/Machine/State.lean ====
section
/-! DEFINITION. The state of one CORE instance as the spec gives it (spec 10_state.md R20 to R49), the buffer memory and the
agents around it as plain data (spec 00_scope.md R18, 20_memory.md R51), the reasons a step can stop, and reset. -/

namespace Sys2Proof.Machine

/-- The sequencer phase `PHASE` (R26). Its three bits' values 5, 6 and 7 are "never written by any rule and are
unreachable"; the type excludes them, as U9 allows. It is not host visible. -/
inductive Phase where
  | idle
  | check
  | init
  | absorb
  | finish
deriving DecidableEq, Repr

/-- The fault causes of the table of R201. -/
inductive Cause where
  | illegalCommand
  | nullBuffer
  | lengthExceedsBuffer
  | addressWrap
  | bufferAccess
deriving DecidableEq, Repr

/-- What the environment does at an address that does not simply answer with its byte. -/
inductive Conduct where
  /-- The environment never answers a read there: "the command stays in its step for ever" (R242, U10). -/
  | silent
  /-- Another agent is changing the byte there while the command runs: each read is a draw (R63, U3). -/
  | unsettled
deriving DecidableEq, Repr

/-- The buffer memory `BufMem` (R51): the bytes that are readable, in one canonical form (`BufMem.wf`), and the addresses
whose reads are not answered plainly. An address listed in neither is `refused`. -/
structure BufMem where
  /-- Readable bytes: strictly rising addresses below 2^64. -/
  cells : List Host.Cell
  /-- Addresses with a conduct of their own: strictly rising, below 2^64. -/
  conduct : List (Nat × Conduct)
deriving DecidableEq, Repr

/-- The three primitive statements of a host script (R78). -/
inductive HostStmt where
  /-- `WR HRn, v`: one host write. -/
  | wr (n : Nat) (v : Word)
  /-- `RD HRn`: one host read. -/
  | rd (n : Nat)
  /-- `WAIT`: read `STATUS` until `BUSY` is 0. -/
  | wait
deriving DecidableEq, Repr

/-- What one host access returned to the script (R244): the value of an `RD` statement, or of one read inside `WAIT`. -/
inductive Observation where
  | rd (n : Nat) (v : Word)
  | waitRead (v : Word)
deriving DecidableEq, Repr

/-- One external master: the statements it has still to perform and what its reads have returned so far, oldest first. -/
structure HostAgent where
  script : List HostStmt
  seen : List Observation
deriving DecidableEq, Repr

/-- A change of the buffer memory by the host or another agent of the platform (R51, R62, R63, R242). -/
inductive EnvChange where
  /-- The address becomes readable memory holding `b`. -/
  | setByte (a : Word) (b : Byte)
  /-- The address is no longer readable: reads there are refused. -/
  | refuse (a : Word)
  /-- Reads of the address are from now on answered, or not, as `c` says. -/
  | setConduct (a : Word) (c : Option Conduct)
deriving DecidableEq, Repr

/-- Which agent moves next. "Any interleaving of host accesses and sequencer steps is a legal execution" (R18). -/
inductive Turn where
  | sequencer
  /-- The host number `k` performs one access of its script. -/
  | host (k : Nat)
  /-- The reset event (R230), one atomic event like a step (U16). -/
  | reset
  | environment (e : EnvChange)
deriving DecidableEq, Repr

/-- The state of one CORE instance (R20) and, after it, the model's own fields for what surrounds it. -/
structure State where
  /-- Accumulator registers `R[0..3]` (R21). -/
  acc : Quad Word
  /-- Tail registers `T[0]`, `T[1]` (R22). -/
  tail : Word × Word
  /-- Block counter `BLK`, 58 bits (R25). -/
  blk : BitVec 58
  /-- Sequencer phase `PHASE` (R26). -/
  phase : Phase
  /-- Host register 0, `CMD` (R32). -/
  cmd : Word
  /-- Host register 1, `BUF_BASE` (R33). -/
  bufBase : Word
  /-- Host register 2, `BUF_LEN` (R34). -/
  bufLen : Word
  /-- Host register 3, `BUF_CAP` (R35). -/
  bufCap : Word
  /-- Host register 4, `SEED0` (R36). -/
  seed0 : Word
  /-- Host register 5, `SEED1` (R37). -/
  seed1 : Word
  /-- Host register 6, `STATUS`: BUSY, DONE, FAULT, OVR, CAUSE (R38). -/
  status : Word
  /-- Host register 7, `RESULT0` (R39). -/
  result0 : Word
  /-- Host register 8, `RESULT1` (R40). -/
  result1 : Word
  /-- Host register 9, `FADDR` (R41). -/
  faddr : Word
  /-- The environment's buffer memory, no part of CORE (R51, R231). -/
  mem : BufMem
  /-- The hosts and their scripts (R18, R78). -/
  hosts : List HostAgent
  /-- Which agents move next, first to last; empty leaves the choice to the rule of `step`. -/
  turns : List Turn
  /-- The model's own counter of byte-read slots, so that no two reads share a draw (log entry 2). -/
  draws : Nat
deriving DecidableEq, Repr

/-- Why the machine stops. No state that the machine reaches from reset raises one (log entry 3). -/
inductive Fault where
  /-- A byte read was formed for an address of 2^64 or more, which does not exist (R50). Raised by the reading steps ABSORB
  and FINISH, in states no run reaches only (R52: "no address computation wraps"). Safe: the model stops. -/
  | addressBeyondSpace (a : Nat)
deriving DecidableEq, Repr

/-- Why a step has no meaning. -/
inductive Refusal where
  /-- The instruction has no meaning yet. No arm of `exec` answers so. Safe. -/
  | notModelled (mnemonic : String)
  /-- The sequencer is past CHECK with an illegal command word in `CMD`: unreachable by R49 (h), and no rule says what INIT,
  ABSORB or FINISH would do (log entry 3). Raised by `step`. Safe: the model stops. -/
  | illegalWordPastCheck (w : Word)
deriving DecidableEq, Repr

/-- The state right after reset (R48): every piece of CORE's state is zero. The environment's part is not CORE's (R231):
nothing is readable, no host has a script, no turn is fixed (log entries 4 and 5). -/
def State.reset : State where
  acc := ⟨0, 0, 0, 0⟩
  tail := (0, 0)
  blk := 0
  phase := .idle
  cmd := 0
  bufBase := 0
  bufLen := 0
  bufCap := 0
  seed0 := 0
  seed1 := 0
  status := 0
  result0 := 0
  result1 := 0
  faddr := 0
  mem := ⟨[], []⟩
  hosts := []
  turns := []
  draws := 0

end Sys2Proof.Machine
end

