-- ==== Sys2Proof/Machine/Mix.lean ====
section
/-! DEFINITION. The unit hash_mix_primitives (spec 40_mix_primitives.md): rotate, multiplicative avalanche, pair-blend and
length fold, at 64 and at 32 bits. "A model must implement the sequences of rules R94, R95, R98, R99 literally" (R103). -/

namespace Sys2Proof.Machine

/-- `lo32(v) = v[31:0]` (R12). -/
def lo32 (v : Word) : Half := v.extractLsb' 0 32

/-- `hi32(v) = v[63:32]` (R12). -/
def hi32 (v : Word) : Half := v.extractLsb' 32 32

/-- `zext_64(v)` of a 32-bit value (R12). -/
def zext64 (v : Half) : Word := v.setWidth 64

/-- Rotate right, toward bit 0; the amount 0 is its own case, "so that no shift by 64 is ever formed" (R91). -/
def rotr64 (x : Word) (r : Fin 64) : Word :=
  if r.val = 0 then x else (x >>> r.val) ||| (x <<< (64 - r.val))

/-- Rotate right at 32 bits (R92). -/
def rotr32 (x : Half) (r : Fin 32) : Half :=
  if r.val = 0 then x else (x >>> r.val) ||| (x <<< (32 - r.val))

/-- The multiplicative avalanche at 64 bits (R94). -/
def mix64 (c : Cfg) (x : Word) : Word :=
  let x1 := x * c.kmul
  let x2 := x1 ^^^ (x1 >>> c.sh64)
  let x3 := x2 * c.kmul
  x3 ^^^ (x3 >>> c.sh64)

/-- The multiplicative avalanche at 32 bits (R95). -/
def mix32 (c : Cfg) (x : Half) : Half :=
  let x1 := x * c.jmul
  let x2 := x1 ^^^ (x1 >>> c.sh32)
  let x3 := x2 * c.jmul
  x3 ^^^ (x3 >>> c.sh32)

/-- The pair-blend at 64 bits, the source's `weakMixPair`, its eight lines in order (R98). -/
def wmp64 (c : Cfg) (a b w x y z : Word) : Word × Word :=
  let s := a + w
  let t := b + rotr64 (s + z) c.ra64
  let u := s + x + y
  let t2 := t + rotr64 u c.rb64
  let m0 := (s ^^^ y) * c.k1
  let m := m0 ^^^ (m0 >>> c.sh64)
  (u + z, t2 + m)

/-- The pair-blend at 32 bits (R99). -/
def wmp32 (c : Cfg) (a b w x y z : Half) : Half × Half :=
  let s := a + w
  let t := b + rotr32 (s + z) c.ra32
  let u := s + x + y
  let t2 := t + rotr32 u c.rb32
  let m0 := (s ^^^ y) * c.j1
  let m := m0 ^^^ (m0 >>> c.sh32)
  (u + z, t2 + m)

/-- The length fold at 64 bits: `K2 + 2 * n`, wrapping (R101). -/
def lm64 (c : Cfg) (n : Word) : Word := c.k2 + 2 * n

/-- The length fold at 32 bits: the length is first truncated to its low 32 bits (R101). -/
def lm32 (c : Cfg) (n : Word) : Half := c.j2 + 2 * lo32 n

end Sys2Proof.Machine
end

