-- ==== Sys2Proof/Machine/Operands.lean ====
section
/-! DEFINITION. The operands of a command: what is computed from `BUF_BASE`, `BUF_LEN` and the seeds before any byte is read
(spec 41_length_dispatch.md R121 to R124, 42_chunked_absorber.md R151, 43_finalization_commands.md R171), and the encodings
of the sequencer's phase. There is one operand form: a host register, whole and unsigned (spec 30_encoding.md R74). -/

namespace Sys2Proof.Machine

/-- The 3-bit value of `PHASE` (R26). -/
def phaseCode : Phase → BitVec 3
  | .idle => 0
  | .check => 1
  | .init => 2
  | .absorb => 3
  | .finish => 4

/-- `NBLK = BUF_LEN[63:6]`, a 58-bit wire (R151). -/
def nblkOf (len : Word) : BitVec 58 := len.extractLsb' 6 58

/-- `BUF_LEN[5:0]`, the bytes left after the last whole block (R122). -/
def restOf (len : Word) : BitVec 6 := len.extractLsb' 0 6

/-- A command whose length is over 64 takes the route through the absorber (R122, R150). -/
def isLong (len : Word) : Bool := decide (64 < len.toNat)

/-- The tail's number of bytes `n`: the whole buffer up to 64 bytes, `L mod 64` beyond (R122). -/
def tailLength (len : Word) : Nat := if isLong len then (restOf len).toNat else len.toNat

/-- The tail's offset `off` in the buffer: 0 up to 64 bytes, `64 * NBLK` beyond (R122). -/
def tailOffset (len : Word) : Nat := if isLong len then 64 * (nblkOf len).toNat else 0

/-- The six length classes of a tail (R121). The source's seventh, more than 64 bytes, is the route through the absorber
(R122) and no branch. -/
inductive LengthClass where
  | c0
  | c1to4
  | c5to8
  | c9to16
  | c17to32
  | c33to64
deriving DecidableEq, Repr

/-- `Class(n)` for `0 <= n <= 64` (R121); a tail is never longer (`tailLength_le_64`). -/
def classOf (n : Nat) : LengthClass :=
  if n = 0 then .c0
  else if n ≤ 4 then .c1to4
  else if n ≤ 8 then .c5to8
  else if n ≤ 16 then .c9to16
  else if n ≤ 32 then .c17to32
  else .c33to64

/-- The fetches of `TailWords`, in its order, as (offset in the tail, number of bytes): a size of 8 is a `Fetch64`, of 4 in
class 5 to 8 a `Fetch32`, and `n` in class 1 to 4 a `FetchPart` (R124). -/
def tailPlan (n : Nat) : List (Nat × Nat) :=
  match classOf n with
  | .c0 => []
  | .c1to4 => [(0, n)]
  | .c5to8 => [(0, 4), (n - 4, 4)]
  | .c9to16 => [(0, 8), (n - 8, 8)]
  | .c17to32 => [(0, 8), (8, 8), (n - 16, 8), (n - 8, 8)]
  | .c33to64 =>
    [(0, 8), (8, 8), (16, 8), (24, 8), (n - 32, 8), (n - 24, 8), (n - 16, 8), (n - 8, 8)]

/-- The fetches of one block: `Fetch64(A + 8*j)` for `j = 0, 1, ..., 7`, in this order (R154). -/
def blockPlan : List (Nat × Nat) :=
  [(0, 8), (8, 8), (16, 8), (24, 8), (32, 8), (40, 8), (48, 8), (56, 8)]

/-- The byte addresses that a list of fetches from `base` on reads, in the order it reads them (R58). -/
def planAddresses (base : Nat) (plan : List (Nat × Nat)) : List Nat :=
  plan.flatMap fun e => (List.range e.2).map fun k => base + e.1 + k

/-- Little-endian assembly of bytes into a word, zero-extended: byte 0 in bits 7:0, the next in bits 15:8 (R53, R54). -/
def assemble : List Byte → Word
  | [] => 0
  | b :: bs => b.setWidth 64 ||| (assemble bs <<< 8)

/-- `g[i]`, a word of a fetched list. Every list a rule indexes has that word (`tailPlan`, `blockPlan`). -/
def wordAt (g : List Word) (i : Nat) : Word := g.getD i 0

/-- `Split(g)`: the 32-bit halves of each word, low half first (R133). -/
def split : List Word → List Half
  | [] => []
  | w :: ws => lo32 w :: hi32 w :: split ws

/-- `h[i]`, a word of a split list. -/
def halfAt (h : List Half) (i : Nat) : Half := h.getD i 0

end Sys2Proof.Machine
end

