-- ==== Sys2Proof/Machine/Absorber.lean ====
section
/-! DEFINITION. The arithmetic of the unit chunked_absorber (spec 42_chunked_absorber.md): the initial accumulators, the
block update and the pairwise combination, at 64 and at 32 bits. -/

namespace Sys2Proof.Machine

/-- The accumulators that INIT writes at 64 bits, from the seed-integration words and `BUF_LEN` (R152). -/
def initAcc64 (c : Cfg) (i : Quad Word) (len : Word) : Quad Word :=
  let lm := lm64 c len
  ⟨i.w0 + lm, i.w1, i.w2 ^^^ lm, i.w3⟩

/-- The accumulators that INIT writes at 32 bits; only the low 32 bits of the length enter (R153). -/
def initAcc32 (c : Cfg) (i : Quad Half) (len : Word) : Quad Half :=
  let lm := lm32 c len
  ⟨i.w0 + lm, i.w1, i.w2 ^^^ lm, i.w3⟩

/-- `Block64`, the block update at 64 bits: two pair-blends and the cross step (R155). -/
def block64 (c : Cfg) (r : Quad Word) (m : List Word) : Quad Word :=
  let ab := wmp64 c r.w0 r.w1 (wordAt m 0) (wordAt m 1) (wordAt m 2) (wordAt m 3)
  let cd := wmp64 c r.w2 r.w3 (wordAt m 4) (wordAt m 5) (wordAt m 6) (wordAt m 7)
  ⟨mix64 c (ab.1 + cd.2), ab.2 ^^^ rotr64 cd.1 c.rc64, mix64 c (cd.1 + ab.2), cd.2 ^^^ rotr64 ab.1 c.rd64⟩

/-- `Block32`, the block update at 32 bits: four pair-blends over the sixteen halves and the cross step (R156). -/
def block32 (c : Cfg) (r : Quad Half) (m : List Word) : Quad Half :=
  let h := split m
  let ab1 := wmp32 c r.w0 r.w1 (halfAt h 0) (halfAt h 1) (halfAt h 2) (halfAt h 3)
  let cd1 := wmp32 c r.w2 r.w3 (halfAt h 4) (halfAt h 5) (halfAt h 6) (halfAt h 7)
  let ab := wmp32 c ab1.1 ab1.2 (halfAt h 8) (halfAt h 9) (halfAt h 10) (halfAt h 11)
  let cd := wmp32 c cd1.1 cd1.2 (halfAt h 12) (halfAt h 13) (halfAt h 14) (halfAt h 15)
  ⟨mix32 c (ab.1 + cd.2), ab.2 ^^^ rotr32 cd.1 c.rc32, mix32 c (cd.1 + ab.2), cd.2 ^^^ rotr32 ab.1 c.rd32⟩

/-- `Comb64`, the pairwise combination (R157). -/
def comb64 (c : Cfg) (r : Quad Word) : Word × Word := (mix64 c r.w0 + r.w1, mix64 c r.w2 + r.w3)

/-- `Comb32`, the pairwise combination at 32 bits (R157). -/
def comb32 (c : Cfg) (r : Quad Half) : Half × Half := (mix32 c r.w0 + r.w1, mix32 c r.w2 + r.w3)

/-- The low halves of four words, as the 32-bit rules read the registers (R23). -/
def lowHalves (q : Quad Word) : Quad Half := ⟨lo32 q.w0, lo32 q.w1, lo32 q.w2, lo32 q.w3⟩

/-- Four 32-bit values zero-extended, as the 32-bit rules write the registers (R23). -/
def zextQuad (q : Quad Half) : Quad Word := ⟨zext64 q.w0, zext64 q.w1, zext64 q.w2, zext64 q.w3⟩

/-- A pair of 32-bit values zero-extended (R23). -/
def zextPair (p : Half × Half) : Word × Word := (zext64 p.1, zext64 p.2)

/-- The accumulators that INIT writes for a command: the 32-bit form for `H32`, the 64-bit form else (R152, R153). -/
def initAcc (c : Cfg) (i : Instr) (w : Quad Word) (len : Word) : Quad Word :=
  if i = .h32 then zextQuad (initAcc32 c (lowHalves w) len) else initAcc64 c w len

/-- The accumulators after one block, for a command: "if OP = H32" the 32-bit form (R154). -/
def blockUpdate (c : Cfg) (i : Instr) (r : Quad Word) (m : List Word) : Quad Word :=
  if i = .h32 then zextQuad (block32 c (lowHalves r) m) else block64 c r m

/-- The tail registers that ABSORB writes, from the accumulators' new values (R154, R157). -/
def combine (c : Cfg) (i : Instr) (r : Quad Word) : Word × Word :=
  if i = .h32 then zextPair (comb32 c (lowHalves r)) else comb64 c r

end Sys2Proof.Machine
end

