-- ==== Sys2Proof/Machine/Router.lean ====
section
/-! DEFINITION. The unit length_dispatch_router (spec 41_length_dispatch.md): the branch of each length class at 64 bits
(R126 to R132) and at 32 bits (R134 to R140). Each takes the tail words `g` of R124, the tail's length `n` and the seed-like
pair `(p, q)`, and returns the pair handed to the output stage. -/

namespace Sys2Proof.Machine

/-- Class C0 at 64 bits (R126). -/
def branch64C0 (c : Cfg) (p q : Word) : Word × Word := (mix64 c (p + c.k1), q)

/-- Class C1_4 at 64 bits: the bytes with the length in bits 34:32 above them, one mixing pass (R127). -/
def branch64C1to4 (c : Cfg) (g : List Word) (n : Nat) (p q : Word) : Word × Word :=
  let word := wordAt g 0 + (BitVec.ofNat 64 n <<< 32)
  (mix64 c (p ^^^ word), q)

/-- Class C5_8 at 64 bits (R128). -/
def branch64C5to8 (c : Cfg) (g : List Word) (n : Nat) (p q : Word) : Word × Word :=
  wmp64 c p q (wordAt g 0) (lm64 c (BitVec.ofNat 64 n)) (wordAt g 1) c.k0

/-- Class C9_16 at 64 bits (R129). -/
def branch64C9to16 (c : Cfg) (g : List Word) (n : Nat) (p q : Word) : Word × Word :=
  wmp64 c p q (wordAt g 0) (lm64 c (BitVec.ofNat 64 n)) (wordAt g 1) c.k1

/-- Class C17_32 at 64 bits (R130). -/
def branch64C17to32 (c : Cfg) (g : List Word) (n : Nat) (p q : Word) : Word × Word :=
  wmp64 c (p + lm64 c (BitVec.ofNat 64 n)) q (wordAt g 0) (wordAt g 1) (wordAt g 2) (wordAt g 3)

/-- Class C33_64 at 64 bits: the second blend takes the first's results exchanged, one of them re-mixed (R131). -/
def branch64C33to64 (c : Cfg) (g : List Word) (n : Nat) (p q : Word) : Word × Word :=
  let r := wmp64 c (p + lm64 c (BitVec.ofNat 64 n)) q (wordAt g 0) (wordAt g 1) (wordAt g 2) (wordAt g 3)
  wmp64 c (mix64 c r.2) r.1 (wordAt g 4) (wordAt g 5) (wordAt g 6) (wordAt g 7)

/-- `Branch64`: the branch chosen by `Class(n)` (R132). -/
def branch64 (c : Cfg) (g : List Word) (n : Nat) (p q : Word) : Word × Word :=
  match classOf n with
  | .c0 => branch64C0 c p q
  | .c1to4 => branch64C1to4 c g n p q
  | .c5to8 => branch64C5to8 c g n p q
  | .c9to16 => branch64C9to16 c g n p q
  | .c17to32 => branch64C17to32 c g n p q
  | .c33to64 => branch64C33to64 c g n p q

/-- Class C0 at 32 bits (R134). -/
def branch32C0 (c : Cfg) (p q : Half) : Half × Half := (mix32 c (p + c.j1), q)

/-- Class C1_4 at 32 bits: the length is added to `p`, since the bytes can fill the word (R135). -/
def branch32C1to4 (c : Cfg) (g : List Word) (n : Nat) (p q : Half) : Half × Half :=
  (mix32 c ((p + lm32 c (BitVec.ofNat 64 n)) ^^^ lo32 (wordAt g 0)), q)

/-- Class C5_8 at 32 bits (R136). -/
def branch32C5to8 (c : Cfg) (g : List Word) (n : Nat) (p q : Half) : Half × Half :=
  wmp32 c p q (lo32 (wordAt g 0)) (lm32 c (BitVec.ofNat 64 n)) (lo32 (wordAt g 1)) c.j0

/-- A 32-bit pair-blend of the four words of `h` from index `k` on. -/
def blend32At (c : Cfg) (h : List Half) (k : Nat) (a b : Half) : Half × Half :=
  wmp32 c a b (halfAt h k) (halfAt h (k + 1)) (halfAt h (k + 2)) (halfAt h (k + 3))

/-- Class C9_16 at 32 bits (R137). -/
def branch32C9to16 (c : Cfg) (g : List Word) (n : Nat) (p q : Half) : Half × Half :=
  blend32At c (split g) 0 (p + lm32 c (BitVec.ofNat 64 n)) q

/-- Class C17_32 at 32 bits (R138). -/
def branch32C17to32 (c : Cfg) (g : List Word) (n : Nat) (p q : Half) : Half × Half :=
  let h := split g
  let r := blend32At c h 0 (p + lm32 c (BitVec.ofNat 64 n)) q
  blend32At c h 4 (mix32 c r.2) r.1

/-- Class C33_64 at 32 bits (R139). -/
def branch32C33to64 (c : Cfg) (g : List Word) (n : Nat) (p q : Half) : Half × Half :=
  let h := split g
  let r1 := blend32At c h 0 (p + lm32 c (BitVec.ofNat 64 n)) q
  let r2 := blend32At c h 4 (mix32 c r1.2) r1.1
  let r3 := blend32At c h 8 (mix32 c r2.2) r2.1
  blend32At c h 12 (mix32 c r3.2) r3.1

/-- `Branch32`: the branch chosen by `Class(n)` (R140). -/
def branch32 (c : Cfg) (g : List Word) (n : Nat) (p q : Half) : Half × Half :=
  match classOf n with
  | .c0 => branch32C0 c p q
  | .c1to4 => branch32C1to4 c g n p q
  | .c5to8 => branch32C5to8 c g n p q
  | .c9to16 => branch32C9to16 c g n p q
  | .c17to32 => branch32C17to32 c g n p q
  | .c33to64 => branch32C33to64 c g n p q

end Sys2Proof.Machine
end

