-- ==== Sys2Proof/Machine/Finalizer.lean ====
section
/-! DEFINITION. The arithmetic of the unit hash_finalization_combiner (spec 43_finalization_commands.md): seed integration
before the dispatch, and the avalanche output stage after it. -/

namespace Sys2Proof.Machine

/-- `SeedInit(OP, s0, s1)`: the four seed-integration words, one row for each command (R171). The row of `H32` holds 32-bit
words, here zero-extended. -/
def seedInit (c : Cfg) (i : Instr) (s0 s1 : Word) : Quad Word :=
  match i with
  | .h32 => ⟨zext64 c.j2, zext64 c.j0, zext64 c.j1, zext64 c.jmul⟩
  | .h64 => ⟨c.k2, c.k0, c.k1, c.kmul⟩
  | .h64s => ⟨mix64 c (s0 + c.k2), c.k1, c.k0, c.kmul⟩
  | .h64ss => ⟨mix64 c (s0 + c.k2), c.k1, c.k0, c.kmul⟩
  | .h128 => ⟨c.k0, c.k2, c.k1, c.kmul⟩
  | .h128s => ⟨mix64 c (s0 + c.k0), c.k2, mix64 c (s1 + c.k1), c.kmul⟩

/-- `Fin64(a, b) = Mix64(Mix64(a) + b)` (R172). -/
def fin64 (c : Cfg) (p : Word × Word) : Word := mix64 c (mix64 c p.1 + p.2)

/-- `Fin32(a, b) = Mix32(Mix32(a) + b)` (R172). -/
def fin32 (c : Cfg) (p : Half × Half) : Half := mix32 c (mix32 c p.1 + p.2)

/-- `Post(r, s1) = Mix64((r + K0) ^ s1)`, used by `H64SS` only (R173). -/
def post (c : Cfg) (r s1 : Word) : Word := mix64 c ((r + c.k0) ^^^ s1)

/-- The seed-like inputs `(PL, QL, PH, QH)` of the tail: the seed-integration words up to 64 bytes, the tail registers
beyond (R125). -/
def tailSeeds (c : Cfg) (len : Word) (i : Quad Word) (t : Word × Word) : Quad Word :=
  if isLong len then ⟨t.1, t.2, t.2 + c.k1, t.1⟩ else i

/-- The pair (`RESULT0`, `RESULT1`) that FINISH writes, from the tail words `g` of `n` bytes, the seed-like inputs `q` and the
second seed (R174). -/
def outputStage (c : Cfg) (i : Instr) (g : List Word) (n : Nat) (q : Quad Word) (s1 : Word) : Word × Word :=
  let low := fin64 c (branch64 c g n q.w0 q.w1)
  let high := fin64 c (branch64 c g n q.w2 q.w3)
  match i with
  | .h32 => (zext64 (fin32 c (branch32 c g n (lo32 q.w0) (lo32 q.w1))), 0)
  | .h64 => (low, 0)
  | .h64s => (low, 0)
  | .h64ss => (post c low s1, 0)
  | .h128 => (low, high)
  | .h128s => (low, high)

end Sys2Proof.Machine
end

