-- ==== Sys2Proof/Machine/Flags.lean ====
section
/-! DEFINITION. `STATUS` (host register 6) and its fields (spec 10_state.md R38, R44): the only flags CORE has. The register
is read whole by the host, so it stays one 64-bit word with named field accessors and one named update for each rule that
writes it. -/

namespace Sys2Proof.Machine

/-- `STATUS.BUSY`, bit 0 (R38). -/
def statusBusy (st : Word) : Bool := st.getLsbD 0

/-- `STATUS.DONE`, bit 1 (R38). -/
def statusDone (st : Word) : Bool := st.getLsbD 1

/-- `STATUS.FAULT`, bit 2 (R38). -/
def statusFault (st : Word) : Bool := st.getLsbD 2

/-- `STATUS.OVR`, bit 3 (R38). -/
def statusOvr (st : Word) : Bool := st.getLsbD 3

/-- `STATUS.CAUSE`, bits 7:4 (R38). -/
def statusCause (st : Word) : BitVec 4 := st.extractLsb' 4 4

/-- The bits 63:8 of `STATUS`, which read as zero (R38). -/
def statusReserved (st : Word) : BitVec 56 := st.extractLsb' 8 56

/-- The code of a fault cause, the value of `STATUS.CAUSE` (R201). -/
def causeCode : Cause → BitVec 4
  | .illegalCommand => 1
  | .nullBuffer => 2
  | .lengthExceedsBuffer => 3
  | .addressWrap => 4
  | .bufferAccess => 5

/-- Acceptance: `STATUS <- 0` then `STATUS.BUSY <- 1` (R43). -/
def statusAccepted : Word := 1

/-- A dropped write: `STATUS.OVR <- 1`, nothing else (R31 (b)). -/
def statusOverrun (st : Word) : Word := st ||| 0x8#64

/-- FINISH: `STATUS.BUSY <- 0`, `STATUS.DONE <- 1`; `FAULT` and `CAUSE` stay, `OVR` keeps its value (R174). -/
def statusFinished (st : Word) : Word := (st &&& ~~~0x1#64) ||| 0x2#64

/-- Fault entry: `BUSY <- 0`, `DONE <- 0`, `FAULT <- 1`, `CAUSE <- cause`; `OVR` keeps its value (R205). -/
def statusFaulted (cause : Cause) (st : Word) : Word :=
  ((st &&& ~~~0xf7#64) ||| 0x4#64) ||| ((causeCode cause).setWidth 64 <<< 4)

end Sys2Proof.Machine
end

