-- ==== Sys2Proof/Machine/Ops.lean ====
section
/-! DEFINITION. The shared operations over memory and registers: the buffer memory and its byte reads (spec 20_memory.md),
fault entry and the acceptance of a command (spec 60_exceptions.md R205, R208, 10_state.md R43), and the reset event (spec
70_reset_and_hazards.md R230). -/

namespace Sys2Proof.Machine

/-! ### Association lists with strictly rising keys -/

/-- The value listed for the address `a`. -/
def assocFind {α : Type} (a : Nat) : List (Nat × α) → Option α
  | [] => none
  | (k, v) :: rest => if k = a then some v else assocFind a rest

/-- The list with `v` for the address `a`, in rising order. -/
def assocInsert {α : Type} (a : Nat) (v : α) : List (Nat × α) → List (Nat × α)
  | [] => [(a, v)]
  | (k, w) :: rest =>
    if a < k then (a, v) :: (k, w) :: rest
    else if a = k then (a, v) :: rest
    else (k, w) :: assocInsert a v rest

/-- The list without an entry for the address `a`. -/
def assocErase {α : Type} (a : Nat) : List (Nat × α) → List (Nat × α)
  | [] => []
  | (k, w) :: rest => if k = a then rest else (k, w) :: assocErase a rest

/-- The keys rise strictly and lie below 2^64: the one canonical form. -/
def assocWf {α : Type} : List (Nat × α) → Bool
  | [] => true
  | (k, _) :: rest => decide (k < 2 ^ 64) && rest.all (fun e => decide (k < e.1)) && assocWf rest

/-! ### The buffer memory -/

/-- The canonical form of the buffer memory. An unlisted address reads as `refused`, so no listed entry can equal it. -/
def BufMem.wf (m : BufMem) : Bool := assocWf m.cells && assocWf m.conduct

/-- What the environment answers to the read of one byte (R51), or that it never answers (R242). -/
inductive Answer where
  | byte (b : Byte)
  | refused
  | silent
deriving DecidableEq, Repr

/-- `BufMem(a)`: the answer to a byte read at the address `a`. The slot numbers the read, for the draw of an unsettled byte
only (U3); an address listed nowhere is refused (R51). -/
def BufMem.answer (m : BufMem) (slot a : Nat) : Answer :=
  match assocFind a m.conduct with
  | some .silent => .silent
  | some .unsettled => .byte (Config.draw slot)
  | none =>
    match assocFind a m.cells with
    | some b => .byte b
    | none => .refused

/-- A change of the buffer memory made by the host or another agent (R51, R62, R63). -/
def BufMem.change (m : BufMem) : EnvChange → BufMem
  | .setByte a b => ⟨assocInsert a.toNat b m.cells, m.conduct⟩
  | .refuse a => ⟨assocErase a.toNat m.cells, m.conduct⟩
  | .setConduct a (some k) => ⟨m.cells, assocInsert a.toNat k m.conduct⟩
  | .setConduct a none => ⟨m.cells, assocErase a.toNat m.conduct⟩

/-- What a sequence of byte reads comes to: its value, the first refused address (R52), a read that is never answered
(R242), or an address that does not exist (R50; log entry 3). -/
inductive Reading (α : Type) where
  | ok (v : α)
  | refused (a : Nat)
  | silent
  | beyond (a : Nat)
deriving DecidableEq, Repr

/-- One reading after another: the second is made only if the first gave a value (R52: "performs no further read"). -/
def Reading.andThen {α β : Type} (r : Reading α) (f : α → Reading β) : Reading β :=
  match r with
  | .ok v => f v
  | .refused a => .refused a
  | .silent => .silent
  | .beyond a => .beyond a

/-- The read of one byte. -/
def readByte (m : BufMem) (slot a : Nat) : Reading Byte :=
  if a < 2 ^ 64 then
    match m.answer slot a with
    | .byte b => .ok b
    | .refused => .refused a
    | .silent => .silent
  else .beyond a

/-- `MemRead(addr, n)`: `n` single-byte reads in ascending address order (R52). The first read has the number `slot`. -/
def memRead (m : BufMem) (slot addr : Nat) : Nat → Reading (List Byte)
  | 0 => .ok []
  | n + 1 =>
    (readByte m slot addr).andThen fun b =>
      (memRead m (slot + 1) (addr + 1) n).andThen fun bs => .ok (b :: bs)

/-- A word of `n` bytes at `addr`: `Fetch64` for 8, `Fetch32` for 4, `FetchPart` for 1 to 4 (R54). -/
def fetchWord (m : BufMem) (slot addr n : Nat) : Reading Word :=
  (memRead m slot addr n).andThen fun bs => .ok (assemble bs)

/-- `Fetch64(addr)` (R54). -/
def fetch64 (m : BufMem) (slot addr : Nat) : Reading Word := fetchWord m slot addr 8

/-- `Fetch32(addr)`, zero-extended (R54). -/
def fetch32 (m : BufMem) (slot addr : Nat) : Reading Word := fetchWord m slot addr 4

/-- `FetchPart(addr, n)`, zero-extended (R54). -/
def fetchPart (m : BufMem) (slot addr n : Nat) : Reading Word := fetchWord m slot addr n

/-- The words of a list of fetches, one after the other, from the base address on (R124, R154). -/
def fetchPlan (m : BufMem) (slot base : Nat) : List (Nat × Nat) → Reading (List Word)
  | [] => .ok []
  | (off, n) :: rest =>
    (fetchWord m slot (base + off) n).andThen fun w =>
      (fetchPlan m (slot + n) base rest).andThen fun ws => .ok (w :: ws)

/-! ### Taking a fault, and going on after one -/

/-- Fault entry (R205): "replaces all the writes of that step by these". There is no program counter, no return address, no
mode and no mask to save, and no handler to go to. -/
def faultEntry (cause : Cause) (faddr : Word) (s : State) : State :=
  { s with
    acc := ⟨0, 0, 0, 0⟩
    tail := (0, 0)
    blk := 0
    result0 := 0
    result1 := 0
    faddr := faddr
    status := statusFaulted cause s.status
    phase := .idle }

/-- Acceptance of the command word `v` (R43). It is also what ends a fault's record: "the acceptance of the next command
clears `FAULT`, `CAUSE`, `FADDR` and `OVR`", and there is no return instruction (R208). -/
def acceptCommand (v : Word) (s : State) : State :=
  { s with
    cmd := v
    status := statusAccepted
    result0 := 0
    result1 := 0
    faddr := 0
    phase := .check }

/-- The reset event: every piece of CORE's state to its reset value; the buffer memory and the agents are not CORE's
(R230, R231). -/
def coreReset (s : State) : State :=
  { State.reset with mem := s.mem, hosts := s.hosts, turns := s.turns, draws := s.draws }

/-! ### The sequencer's register updates -/

/-- `PHASE <- p`. -/
def State.enterPhase (p : Phase) (s : State) : State := { s with phase := p }

/-- The writes of step INIT (R152, R153). -/
def State.initialised (r : Quad Word) (s : State) : State :=
  { s with acc := r, blk := 0, phase := .absorb }

/-- The writes of step ABSORB (R154). -/
def State.absorbed (r : Quad Word) (t : Word × Word) (s : State) : State :=
  { s with
    acc := r
    tail := t
    blk := s.blk + 1
    phase := if s.blk + 1 = nblkOf s.bufLen then .finish else .absorb }

/-- The writes of step FINISH (R174). -/
def State.finished (r : Word × Word) (s : State) : State :=
  { s with
    result0 := r.1
    result1 := r.2
    acc := ⟨0, 0, 0, 0⟩
    tail := (0, 0)
    blk := 0
    status := statusFinished s.status
    phase := .idle }

/-- The model's counter of read slots after a step that reads: no step makes more than 64 byte reads (R124, R154). -/
def State.takeSlots (s : State) : State := { s with draws := s.draws + 64 }

/-- A reading step: its words give the step's writes `k`; the first refused byte gives fault entry instead (R161, R174,
R204); a read that is never answered leaves the command in its step (R242). -/
def afterReads (r : Reading (List Word)) (k : List Word → State → State) (s : State) :
    Host.Outcome State Fault Refusal :=
  match r with
  | .ok ws => .next (k ws s.takeSlots)
  | .refused a => .next (faultEntry .bufferAccess (BitVec.ofNat 64 a) s.takeSlots)
  | .silent => .next s
  | .beyond a => .fault (.addressBeyondSpace a)

/-! ### The host's and the schedule's fields -/

/-- The host number `k` becomes `h`. -/
def State.withHost (k : Nat) (h : HostAgent) (s : State) : State := { s with hosts := s.hosts.set k h }

/-- The turns that are left. -/
def State.withTurns (ts : List Turn) (s : State) : State := { s with turns := ts }

/-- The buffer memory after a change from outside. -/
def State.withChange (e : EnvChange) (s : State) : State := { s with mem := s.mem.change e }

end Sys2Proof.Machine
end

