-- ==== Sys2Proof/Machine/Sequencer.lean ====
section
/-! DEFINITION. The sequencer's four steps (spec 10_state.md R27): CHECK (60_exceptions.md R203), INIT (42_chunked_absorber.md
R152, R153), ABSORB (R154) and FINISH (43_finalization_commands.md R174), each for a command `i` and a configuration `c`. -/

namespace Sys2Proof.Machine

/-- The operand tests of step CHECK, in their order, on natural numbers (R203, R206). -/
def checkOperands (s : State) : State :=
  if s.bufLen ≠ 0 ∧ s.bufBase = 0 then faultEntry .nullBuffer 0 s
  else if s.bufCap.toNat < s.bufLen.toNat then faultEntry .lengthExceedsBuffer 0 s
  else if 2 ^ 64 < s.bufBase.toNat + s.bufLen.toNat then faultEntry .addressWrap 0 s
  else s.enterPhase (if isLong s.bufLen then .init else .finish)

/-- Step CHECK: the command word first, before anything else is examined (R202, R203). -/
def checkStep (s : State) : State :=
  match decode s.cmd with
  | .illegalCommand => faultEntry .illegalCommand 0 s
  | .command _ => checkOperands s

/-- Step INIT (R152, R153). It reads no memory and cannot fault. -/
def initStep (c : Cfg) (i : Instr) (s : State) : State :=
  s.initialised (initAcc c i (seedInit c i s.seed0 s.seed1) s.bufLen)

/-- The natural number `BUF_BASE + 64 * BLK`, where block `BLK` begins (R154). -/
def blockAddress (s : State) : Nat := s.bufBase.toNat + 64 * s.blk.toNat

/-- The writes of ABSORB from the block's eight words (R154). -/
def absorbWords (c : Cfg) (i : Instr) (m : List Word) (s : State) : State :=
  s.absorbed (blockUpdate c i s.acc m) (combine c i (blockUpdate c i s.acc m))

/-- Step ABSORB: one block (R154). -/
def absorbStep (c : Cfg) (i : Instr) (s : State) : Host.Outcome State Fault Refusal :=
  afterReads (fetchPlan s.mem s.draws (blockAddress s) blockPlan) (absorbWords c i) s

/-- `BUF_BASE + off`, where the tail begins (R122). -/
def tailAddress (s : State) : Nat := s.bufBase.toNat + tailOffset s.bufLen

/-- The pair (`RESULT0`, `RESULT1`) of FINISH from the tail words (R174). -/
def finishResults (c : Cfg) (i : Instr) (g : List Word) (s : State) : Word × Word :=
  outputStage c i g (tailLength s.bufLen)
    (tailSeeds c s.bufLen (seedInit c i s.seed0 s.seed1) s.tail) s.seed1

/-- The writes of FINISH from the tail words (R174). -/
def finishWords (c : Cfg) (i : Instr) (g : List Word) (s : State) : State :=
  s.finished (finishResults c i g s)

/-- Step FINISH (R174). -/
def finishStep (c : Cfg) (i : Instr) (s : State) : Host.Outcome State Fault Refusal :=
  afterReads (fetchPlan s.mem s.draws (tailAddress s) (tailPlan (tailLength s.bufLen))) (finishWords c i) s

/-- One sequencer step of the command `i`: the step that `PHASE` enables (R27). In IDLE none is enabled (R18). -/
def commandStep (c : Cfg) (i : Instr) (s : State) : Host.Outcome State Fault Refusal :=
  match s.phase with
  | .idle => .next s
  | .check => .next (checkStep s)
  | .init => .next (initStep c i s)
  | .absorb => absorbStep c i s
  | .finish => finishStep c i s

end Sys2Proof.Machine
end

