-- ==== Sys2Proof/Machine/Hash128.lean ====
section
/-! DEFINITION. The meanings of the 128-bit commands (spec 43_finalization_commands.md R179, R180): two passes over the same
tail words. A command's meaning is the sequencer step it takes in the phase it is in (spec 10_state.md R27; log entry 6). -/

namespace Sys2Proof.Machine

/-- `H128` (R179): both seeds are ignored. -/
def execH128 (s : State) : Host.Outcome State Fault Refusal := commandStep Config.cfg .h128 s

/-- `H128S` (R180): `SEED0` seeds the low pass and `SEED1` the high pass. -/
def execH128s (s : State) : Host.Outcome State Fault Refusal := commandStep Config.cfg .h128s s

end Sys2Proof.Machine
end

