-- ==== Sys2Proof/Machine/Hash32.lean ====
section
/-! DEFINITION. The meaning of the 32-bit command (spec 43_finalization_commands.md R175). A command's meaning is the
sequencer step it takes in the phase it is in (spec 10_state.md R27; log entry 6): CHECK, then INIT and ABSORB for a buffer
of more than 64 bytes, then FINISH, which leaves the result. -/

namespace Sys2Proof.Machine

/-- `H32` (R175): the 32-bit datapath throughout; both seeds are ignored. -/
def execH32 (s : State) : Host.Outcome State Fault Refusal := commandStep Config.cfg .h32 s

end Sys2Proof.Machine
end

