-- ==== Sys2Proof/Machine/Hash64.lean ====
section
/-! DEFINITION. The meanings of the 64-bit commands (spec 43_finalization_commands.md R176 to R178). A command's meaning is
the sequencer step it takes in the phase it is in (spec 10_state.md R27; log entry 6). -/

namespace Sys2Proof.Machine

/-- `H64` (R176): both seeds are ignored. -/
def execH64 (s : State) : Host.Outcome State Fault Refusal := commandStep Config.cfg .h64 s

/-- `H64S` (R177): `SEED0` enters the seed integration; `SEED1` is ignored. -/
def execH64s (s : State) : Host.Outcome State Fault Refusal := commandStep Config.cfg .h64s s

/-- `H64SS` (R178): as `H64S`, then one more mixing pass with `SEED1`. -/
def execH64ss (s : State) : Host.Outcome State Fault Refusal := commandStep Config.cfg .h64ss s

end Sys2Proof.Machine
end

