-- ==== Sys2Proof/Machine/Dispatch.lean ====
section
/-! DEFINITION. One arm for each command: its meaning. -/

namespace Sys2Proof.Machine

def exec (i : Instr) (s : State) : Host.Outcome State Fault Refusal :=
  match i with
  | .h32 => Sys2Proof.Machine.execH32 s
  | .h64 => Sys2Proof.Machine.execH64 s
  | .h64s => Sys2Proof.Machine.execH64s s
  | .h64ss => Sys2Proof.Machine.execH64ss s
  | .h128 => Sys2Proof.Machine.execH128 s
  | .h128s => Sys2Proof.Machine.execH128s s

end Sys2Proof.Machine
end

