-- ==== Sys2Proof/Machine/HostPort.lean ====
section
/-! DEFINITION. The host's side: reads and writes of the ten host interface registers by number (spec 10_state.md R29 to
R43), the statements of a host script and the six pseudo-instructions (spec 30_encoding.md R78, R79). -/

namespace Sys2Proof.Machine

/-- A host read of register `n`: `HR[n]`, whole, in any phase, with no side effect (R30); 0 for a number that does not exist
(R42). -/
def hostRead (n : Nat) (s : State) : Word :=
  match n with
  | 0 => s.cmd
  | 1 => s.bufBase
  | 2 => s.bufLen
  | 3 => s.bufCap
  | 4 => s.seed0
  | 5 => s.seed1
  | 6 => s.status
  | 7 => s.result0
  | 8 => s.result1
  | 9 => s.faddr
  | _ => 0

/-- The store of an operand register, numbers 1 to 5 (R31 (c)). -/
def writeOperand (n : Nat) (v : Word) (s : State) : State :=
  match n with
  | 1 => { s with bufBase := v }
  | 2 => { s with bufLen := v }
  | 3 => { s with bufCap := v }
  | 4 => { s with seed0 := v }
  | 5 => { s with seed1 := v }
  | _ => s

/-- The note of a dropped write, `STATUS.OVR <- 1` (R31 (b), R220). -/
def State.overrun (s : State) : State := { s with status := statusOverrun s.status }

/-- A host write of `v` to register `n`: (a) read-only and (R42) non-existent registers ignore it, (b) it is dropped while
`BUSY`, (c) an operand register stores it, (d) `CMD` accepts the command (R31). -/
def hostWrite (n : Nat) (v : Word) (s : State) : State :=
  if 6 ≤ n then s
  else if statusBusy s.status then s.overrun
  else if n = 0 then acceptCommand v s
  else writeOperand n v s

/-- The bus address of host register `n`, `HIR_BASE + n * HIR_STRIDE` (R68). No rule depends on it (R11). DESIGN CHOICE, log
entry 12: the spec leaves the bus open, and the model takes a bus address as 64 bits wide, so that the sum and the product
wrap modulo 2^64. -/
def hostRegisterAddress (n : Nat) : Word := Config.hirBase + BitVec.ofNat 64 n * Config.hirStride

/-- One access of a host: the first statement of its script, and what it returned (R78). `WAIT` reads `STATUS` and stays the
next statement while `BUSY` reads 1. A host whose script is done does nothing (R244). -/
def hostTurn (k : Nat) (s : State) : State :=
  match s.hosts[k]? with
  | none => s
  | some h =>
    match h.script with
    | [] => s
    | .wr n v :: rest => hostWrite n v (s.withHost k ⟨rest, h.seen⟩)
    | .rd n :: rest => s.withHost k ⟨rest, h.seen ++ [.rd n (hostRead n s)]⟩
    | .wait :: rest =>
      s.withHost k ⟨if statusBusy s.status then .wait :: rest else rest, h.seen ++ [.waitRead s.status]⟩

/-- The number of the first host that still has a statement to perform. -/
def nextHost (s : State) : Option Nat := s.hosts.findIdx? (fun h => !h.script.isEmpty)

/-- The seed writes of a pseudo-instruction: the seed registers its command does not name are left as they were (R79). -/
def pseudoSeeds (i : Instr) (s0 s1 : Word) : List HostStmt :=
  match i with
  | .h32 => []
  | .h64 => []
  | .h64s => [.wr 4 s0]
  | .h64ss => [.wr 4 s0, .wr 5 s1]
  | .h128 => []
  | .h128s => [.wr 4 s0, .wr 5 s1]

/-- A command mnemonic with operands, expanded into host writes in the fixed order of R79: the operands, then `CMD`. -/
def expandPseudo (i : Instr) (base len cap s0 s1 : Word) : List HostStmt :=
  [.wr 1 base, .wr 2 len, .wr 3 cap] ++ pseudoSeeds i s0 s1 ++ [.wr 0 (encode i)]

end Sys2Proof.Machine
end

