-- ==== Sys2Proof/Machine/Step.lean ====
section
/-! DEFINITION. One step of the whole: the agent whose turn it is makes one atomic move (spec 00_scope.md R18). The
sequencer's move runs the command whose word `CMD` holds. -/

namespace Sys2Proof.Machine

/-- One sequencer step: none is enabled in IDLE (R18, R27); else the command word in `CMD` is decoded (R32: "The sequencer
reads `OP` from this register in every step of the command") and its command takes its step. An illegal word faults in CHECK
(R202); past CHECK none can stand there (R49 (h)). -/
def sequencerTurn (s : State) : Host.Outcome State Fault Refusal :=
  match s.phase with
  | .idle => .next s
  | .check =>
    match decode s.cmd with
    | .command i => exec i s
    | .illegalCommand => .next (checkStep s)
  | .init | .absorb | .finish =>
    match decode s.cmd with
    | .command i => exec i s
    | .illegalCommand => .refused (.illegalWordPastCheck s.cmd)

/-- The move of the agent that a turn names, the turn itself already taken off (R18, U16). -/
def takeTurn (t : Turn) (s : State) : Host.Outcome State Fault Refusal :=
  match t with
  | .sequencer => sequencerTurn s
  | .host k => .next (hostTurn k s)
  | .reset => .next (coreReset s)
  | .environment e => .next (s.withChange e)

/-- Who moves when no turn is fixed: the sequencer while a command runs (the fairness of R241), else the first host with a
statement to perform, else nobody (log entry 7). -/
def defaultTurn (s : State) : Option Turn :=
  if s.phase = .idle then (nextHost s).map .host else some .sequencer

/-- One step of the machine: the first of the fixed turns, or the default turn; with neither, CORE is quiescent and "all
state survives it" (R218). -/
def step (s : State) : Host.Outcome State Fault Refusal :=
  match s.turns with
  | t :: ts => takeTurn t (s.withTurns ts)
  | [] =>
    match defaultTurn s with
    | some t => takeTurn t s
    | none => .next s

/-- `s` with the command word of a table row in `CMD`, accepted (R43), and the next turn the sequencer's: so that the very
next step decodes that word and runs its command. A fixed turn that would come first is put after the sequencer's. -/
def State.withFetchWord (s : State) (nbits w : Nat) : State :=
  let a := acceptCommand (BitVec.ofNat 64 (tableWord nbits w)) s
  match s.turns with
  | [] => a
  | t :: ts => a.withTurns (.sequencer :: t :: ts)

end Sys2Proof.Machine
end

