-- ==== Sys2Proof/Machine/Hash.lean ====
section
/-! DEFINITION. The closed form of the hash function (spec 43_finalization_commands.md R187): the result of a command as a
function of its bytes and seeds, without the sequencer. The machine does not use it; statements compare the machine with
it. -/

namespace Sys2Proof.Machine

/-- The words of a list of fetches over a byte list: the closed form of `TailWords` and of `Words8` (R187). -/
def planWords (bytes : List Byte) (plan : List (Nat × Nat)) : List Word :=
  plan.map fun e => assemble ((bytes.drop e.1).take e.2)

/-- The words of the block number `k`: `Words8(B[64k .. 64k+63])` (R187). -/
def blockWords (bytes : List Byte) (k : Nat) : List Word := planWords (bytes.drop (64 * k)) blockPlan

/-- The accumulators after the first `n` blocks, from their values `r` at INIT (R187, `for k = 0 .. N-1`). -/
def absorbBlocks (c : Cfg) (i : Instr) (bytes : List Byte) (r : Quad Word) : Nat → Quad Word
  | 0 => r
  | n + 1 => blockUpdate c i (absorbBlocks c i bytes r n) (blockWords bytes n)

/-- The length as the 64-bit value the rules use. -/
def lengthWord (bytes : List Byte) : Word := BitVec.ofNat 64 bytes.length

/-- `Hash(OP, B, s0, s1)` (R187); for `H32` the 32-bit forms and their zero-extension are those of `initAcc`, `blockUpdate`,
`combine` and `outputStage`. -/
def closedHash (c : Cfg) (i : Instr) (bytes : List Byte) (s0 s1 : Word) : Word × Word :=
  let w := seedInit c i s0 s1
  if bytes.length ≤ 64 then
    outputStage c i (planWords bytes (tailPlan bytes.length)) bytes.length w s1
  else
    let blocks := bytes.length / 64
    let t := combine c i (absorbBlocks c i bytes (initAcc c i w (lengthWord bytes)) blocks)
    let rest := bytes.drop (64 * blocks)
    outputStage c i (planWords rest (tailPlan rest.length)) rest.length ⟨t.1, t.2, t.2 + c.k1, t.1⟩ s1

end Sys2Proof.Machine
end

