-- ==== Sys2Proof/Safety.lean ====
section
/-! DEFINITION. The terms in which claims about CORE are made: the invariants of every reachable state (spec 10_state.md
R49 with R23, R24, R38 to R41 and spec 60_exceptions.md R201, R203), what it is for a command to complete or to end in a
fault (spec 43_finalization_commands.md R174, spec 60_exceptions.md R205), and what a buffer holds (spec 20_memory.md R51). -/

namespace Sys2Proof.Machine

/-- The datapath registers and the block counter are zero (R24). -/
def State.quiet (s : State) : Prop := s.acc = ⟨0, 0, 0, 0⟩ ∧ s.tail = (0, 0) ∧ s.blk = 0

/-- The sequencer is past CHECK: in INIT, ABSORB or FINISH. -/
def State.pastCheck (s : State) : Prop := s.phase = .init ∨ s.phase = .absorb ∨ s.phase = .finish

/-- What a passed CHECK guarantees of the operands (R203). -/
def State.operandsChecked (s : State) : Prop :=
  (s.bufLen = 0 ∨ s.bufBase ≠ 0) ∧ s.bufLen.toNat ≤ s.bufCap.toNat ∧ s.bufBase.toNat + s.bufLen.toNat ≤ 2 ^ 64

/-- Every datapath register holds a 32-bit value, zero-extended (R23). -/
def State.halfWidth (s : State) : Prop :=
  hi32 s.acc.w0 = 0 ∧ hi32 s.acc.w1 = 0 ∧ hi32 s.acc.w2 = 0 ∧ hi32 s.acc.w3 = 0 ∧ hi32 s.tail.1 = 0 ∧ hi32 s.tail.2 = 0

/-- The command word in `CMD` is one of the six. -/
def State.legal (s : State) : Prop := ∃ i, decode s.cmd = .command i

/-- The invariants of every reachable state (R49), with what R23, R24, R38 to R40, R201 and R203 add to them and the
canonical form of the buffer memory. -/
structure State.Inv (s : State) : Prop where
  /-- R49 (a). -/
  busy_iff : statusBusy s.status = true ↔ s.phase ≠ .idle
  /-- R49 (b). -/
  reserved_zero : statusReserved s.status = 0
  /-- R49 (c). -/
  cause_iff : statusCause s.status ≠ 0 ↔ statusFault s.status = true
  /-- R201: "Codes 6 to 15 are never produced". -/
  cause_le : (statusCause s.status).toNat ≤ 5
  /-- R38: at most one of `BUSY`, `DONE`, `FAULT`. -/
  one_flag : ¬(statusBusy s.status = true ∧ statusDone s.status = true) ∧
    ¬(statusBusy s.status = true ∧ statusFault s.status = true) ∧
    ¬(statusDone s.status = true ∧ statusFault s.status = true)
  /-- R49 (d). -/
  faddr_only : s.faddr ≠ 0 → statusFault s.status = true ∧ statusCause s.status = 5
  /-- R49 (e). -/
  result_only : s.result0 ≠ 0 ∨ s.result1 ≠ 0 → statusDone s.status = true
  /-- R39: after `H32` the bits 63:32 of `RESULT0` are zero. -/
  result_half : decode s.cmd = .command .h32 → hi32 s.result0 = 0
  /-- R40: `RESULT1` is zero but after a 128-bit command. -/
  result_single : s.result1 ≠ 0 → decode s.cmd = .command .h128 ∨ decode s.cmd = .command .h128s
  /-- R49 (f), and R24 for INIT. -/
  quiet_before : s.phase = .idle ∨ s.phase = .check ∨ s.phase = .init → s.quiet
  /-- R24: a command of at most 64 bytes leaves the datapath registers zero. -/
  quiet_short : s.phase = .finish → s.bufLen.toNat ≤ 64 → s.quiet
  /-- R49 (g), in ABSORB. -/
  blk_absorb : s.phase = .absorb → s.blk.toNat < (nblkOf s.bufLen).toNat
  /-- R49 (g), in FINISH. -/
  blk_finish : s.phase = .finish → 64 < s.bufLen.toNat → s.blk = nblkOf s.bufLen
  /-- R49 (h): the length. -/
  long_absorber : s.phase = .init ∨ s.phase = .absorb → 64 < s.bufLen.toNat
  /-- R49 (h): the command word. -/
  legal_past_check : s.pastCheck → s.legal
  /-- R203. -/
  checked_past_check : s.pastCheck → s.operandsChecked
  /-- R23. -/
  half_width : decode s.cmd = .command .h32 → s.halfWidth
  /-- The buffer memory keeps its canonical form. -/
  mem_wf : s.mem.wf = true

/-- What no sequencer step changes: the operand registers, the agents, and every byte of memory (R59, R188). -/
structure SameOutside (s t : State) : Prop where
  cmd : t.cmd = s.cmd
  bufBase : t.bufBase = s.bufBase
  bufLen : t.bufLen = s.bufLen
  bufCap : t.bufCap = s.bufCap
  seed0 : t.seed0 = s.seed0
  seed1 : t.seed1 = s.seed1
  hosts : t.hosts = s.hosts
  turns : t.turns = s.turns
  mem : t.mem = s.mem
  bytes : ∀ slot a, t.mem.answer slot a = s.mem.answer slot a

/-- From `s` a fault was taken and left `t` (R205). -/
structure FaultTaken (cause : Cause) (faddr : Word) (s t : State) : Prop where
  same : SameOutside s t
  quiet : t.quiet
  result0 : t.result0 = 0
  result1 : t.result1 = 0
  faddr : t.faddr = faddr
  busy : statusBusy t.status = false
  done : statusDone t.status = false
  fault : statusFault t.status = true
  code : statusCause t.status = causeCode cause
  ovr : statusOvr t.status = statusOvr s.status
  reserved : statusReserved t.status = statusReserved s.status
  phase : t.phase = .idle

/-- From `s` a command completed with the result `r` and left `t` (R174). -/
structure CommandDone (r : Word × Word) (s t : State) : Prop where
  same : SameOutside s t
  quiet : t.quiet
  result0 : t.result0 = r.1
  result1 : t.result1 = r.2
  faddr : t.faddr = s.faddr
  busy : statusBusy t.status = false
  done : statusDone t.status = true
  fault : statusFault t.status = statusFault s.status
  code : statusCause t.status = statusCause s.status
  ovr : statusOvr t.status = statusOvr s.status
  reserved : statusReserved t.status = statusReserved s.status
  phase : t.phase = .idle

/-- The memory answers with the bytes `bs` at `addr` and on, whichever read asks (R51). -/
def bytesAt (m : BufMem) (addr : Nat) (bs : List Byte) : Prop :=
  ∀ k b, bs[k]? = some b → ∀ slot, m.answer slot (addr + k) = .byte b

/-- The buffer that the operand registers describe lies below 2^64 and holds the bytes `bs`. -/
def State.bufferIs (s : State) (bs : List Byte) : Prop :=
  bs.length = s.bufLen.toNat ∧ s.bufBase.toNat + s.bufLen.toNat ≤ 2 ^ 64 ∧ bytesAt s.mem s.bufBase.toNat bs

/-- Some byte is answered at `a`, whichever read asks: a settled or an unsettled byte. -/
def BufMem.answers (m : BufMem) (a : Nat) : Prop := ∀ slot, ∃ b, m.answer slot a = .byte b

/-- The byte addresses that the step enabled in `s` reads, in the normative order (R58): none but in ABSORB and FINISH. -/
def readOrder (s : State) : List Nat :=
  match s.phase with
  | .idle => []
  | .check => []
  | .init => []
  | .absorb => planAddresses (blockAddress s) blockPlan
  | .finish => planAddresses (tailAddress s) (tailPlan (tailLength s.bufLen))

/-- The number of sequencer steps of a command that does not fault (R240). -/
def stepCount (len : Word) : Nat := if 64 < len.toNat then 3 + len.toNat / 64 else 2

/-- `k` steps of the machine, stopping at the first stop. -/
def runSteps : Nat → State → Host.Outcome State Fault Refusal
  | 0, s => .next s
  | k + 1, s =>
    match step s with
    | .next t => runSteps k t
    | .fault r => .fault r
    | .refused r => .refused r

/-- A command has been accepted, passes CHECK and has the next turns to itself: the sequencer is in CHECK with the legal
command `i`, and no turn is fixed, so that the model's default schedule (log entry 7) gives the sequencer every step. -/
def State.accepted (i : Instr) (s : State) : Prop :=
  s.phase = .check ∧ s.turns = [] ∧ decode s.cmd = .command i ∧ s.operandsChecked

/-- The address that a change of the environment's memory is about. -/
def EnvChange.address : EnvChange → Nat
  | .setByte a _ => a.toNat
  | .refuse a => a.toNat
  | .setConduct a _ => a.toNat

/-- The command `i` has been accepted, passes CHECK and its buffer holds the bytes `bs`; the turns that are fixed, in any
number and order, are the sequencer's, hosts' and changes of memory outside the buffer ("any interleaving of host accesses
and sequencer steps", R18). -/
structure State.underway (i : Instr) (bs : List Byte) (s : State) : Prop where
  phase : s.phase = .check
  busy : statusBusy s.status = true
  legal : decode s.cmd = .command i
  checked : s.operandsChecked
  buffer : s.bufferIs bs
  noReset : .reset ∉ s.turns
  outside : ∀ e, .environment e ∈ s.turns →
    e.address < s.bufBase.toNat ∨ s.bufBase.toNat + s.bufLen.toNat ≤ e.address

/-- `k` steps from `s` the machine is in `t`, the first state of the run in which `BUSY` is 0. -/
def State.endsAt (k : Nat) (s t : State) : Prop :=
  runSteps k s = .next t ∧ statusBusy t.status = false ∧
    ∀ j u, j < k → runSteps j s = .next u → statusBusy u.status = true

end Sys2Proof.Machine
end

