-- ==== Sys2Proof/Certificates/Slice0/Obligations.lean ====
section
/-! DEFINITION. The statements for the provers. Each is a proposition about the machine; none is proved here. The rules of
spec/ that each formalises, or rests on, stand in OBLIGATIONS.json and in its docstring. -/

open Sys2Proof Sys2Proof.Machine

/-! ### Reset, the step, decoding -/

/-- R48: every piece of CORE's state is zero after reset. -/
def Obligations.ResetStateIsAllZero : Prop :=
  State.reset.acc = ⟨0, 0, 0, 0⟩ ∧ State.reset.tail = (0, 0) ∧ State.reset.blk = 0 ∧
    phaseCode State.reset.phase = 0 ∧ (∀ n, hostRead n State.reset = 0) ∧
    statusBusy State.reset.status = false ∧ statusDone State.reset.status = false ∧
    statusFault State.reset.status = false ∧ statusOvr State.reset.status = false ∧
    statusCause State.reset.status = 0

/-- R230 to R232: the reset event, at any moment, puts CORE's state at the reset values and leaves the buffer memory, which
is no part of CORE, as it was. The form of memory, hosts and turns is the model's (log entries 4, 5 and 7). -/
def Obligations.ResetEventClearsCore : Prop :=
  ∀ (s : State) (ts : List Turn), s.turns = .reset :: ts →
    ∃ t, step s = .next t ∧ t = { State.reset with mem := t.mem, hosts := t.hosts, turns := t.turns, draws := t.draws } ∧
      t.hosts = s.hosts ∧ t.turns = ts ∧ ∀ slot a, t.mem.answer slot a = s.mem.answer slot a

/-- The reset state meets the invariants of R49. -/
def Obligations.ResetSatisfiesTheInvariant : Prop := State.reset.Inv

/-- R49 with R23, R24, R38 to R40: every step of any agent keeps the invariants. -/
def Obligations.EveryStepKeepsTheInvariant : Prop :=
  ∀ s t : State, s.Inv → step s = .next t → t.Inv

/-- R243, R52: in a state that meets the invariants no step stops: neither of the model's own stops can be reached. -/
def Obligations.NoStepStopsUnderTheInvariant : Prop :=
  ∀ s : State, s.Inv → ∃ t, step s = .next t

/-- The sequencer's turn runs the command whose word `CMD` holds, be the turn fixed or the
default, the model's form of R18 (log entry 7). -/
def Obligations.StepRunsTheDecodedCommand : Prop :=
  ∀ (i : Instr) (s : State), i.wellFormed = true → decode s.cmd = .command i →
    (s.turns = [] → s.phase ≠ .idle → step s = exec i s) ∧
      ∀ ts, s.turns = .sequencer :: ts → step s = exec i (s.withTurns ts)

/-- The words of the table of R72 and words beside them, decoded. -/
def Obligations.TableWordsDecode : Prop :=
  decode 0x0000000000000000 = .command .h32 ∧ decode 0x0000000000000001 = .command .h64 ∧
    decode 0x0000000000000002 = .command .h64s ∧ decode 0x0000000000000003 = .command .h64ss ∧
    decode 0x0000000000000004 = .command .h128 ∧ decode 0x0000000000000005 = .command .h128s ∧
    decode 0x0000000000000006 = .illegalCommand ∧ decode 0x0000000000000009 = .illegalCommand ∧
    decode 0x8000000000000001 = .illegalCommand

/-- R72: a word selects a row exactly when it equals the row's match value under the row's mask; no other word is legal. -/
def Obligations.DecodeSelectsTheTableRow : Prop :=
  (∀ (w : Word) (i : Instr), decode w = .command i ↔ w &&& 0xFFFFFFFFFFFFFFFF = encode i) ∧
    (∀ w : Word, decode w = .illegalCommand ↔ ∀ i, w &&& 0xFFFFFFFFFFFFFFFF ≠ encode i) ∧
    (encode .h32).toNat = 0 ∧ (encode .h64).toNat = 1 ∧ (encode .h64s).toNat = 2 ∧ (encode .h64ss).toNat = 3 ∧
    (encode .h128).toNat = 4 ∧ (encode .h128s).toNat = 5

/-- R202, R75: an illegal word faults in CHECK, whatever the other operands and the memory hold: in the sequencer's own
step, and in the step of the machine whose turn is the sequencer's, be that turn fixed first or, with no turn fixed, the
model's default schedule's. That the turns are a list, and that default, are the model's choices (log entry 7). -/
def Obligations.IllegalWordFaultsInCheck : Prop :=
  ∀ s : State, s.phase = .check → rsvField s.cmd ≠ 0 ∨ 5 < (opField s.cmd).toNat →
    (∃ t, sequencerTurn s = .next t ∧ FaultTaken .illegalCommand 0 s t ∧ (s.status = 0x1 → t.status = 0x14)) ∧
    (∀ ts, s.turns = .sequencer :: ts → ∃ t, step s = .next t ∧ t.turns = ts ∧
      FaultTaken .illegalCommand 0 (s.withTurns ts) t ∧ (s.status = 0x1 → t.status = 0x14)) ∧
    (s.turns = [] → ∃ t, step s = .next t ∧ FaultTaken .illegalCommand 0 s t ∧ (s.status = 0x1 → t.status = 0x14))

/-! ### The host port -/

/-- R30: a host read returns the register, whole, and changes nothing of CORE. -/
def Obligations.HostReadReturnsTheRegister : Prop :=
  (∀ s : State, hostRead 0 s = s.cmd ∧ hostRead 1 s = s.bufBase ∧ hostRead 2 s = s.bufLen ∧ hostRead 3 s = s.bufCap ∧
      hostRead 4 s = s.seed0 ∧ hostRead 5 s = s.seed1 ∧ hostRead 6 s = s.status ∧ hostRead 7 s = s.result0 ∧
      hostRead 8 s = s.result1 ∧ hostRead 9 s = s.faddr) ∧
    ∀ (s : State) (k n : Nat) (rest : List HostStmt) (seen : List Observation) (ts : List Turn),
      s.turns = .host k :: ts → s.hosts[k]? = some ⟨.rd n :: rest, seen⟩ →
        ∃ t, step s = .next t ∧ t.hosts[k]? = some ⟨rest, seen ++ [.rd n (hostRead n s)]⟩ ∧
          (∀ j, j ≠ k → t.hosts[j]? = s.hosts[j]?) ∧ t = { s with hosts := t.hosts, turns := ts }

/-- R31 (a) to (d) and R42: what a host write does to the registers, and what it leaves. -/
def Obligations.HostWriteFollowsTheRules : Prop :=
  ∀ (n : Nat) (v : Word) (s : State),
    (6 ≤ n → hostWrite n v s = s) ∧
    (n ≤ 5 → statusBusy s.status = true →
      ∃ st, hostWrite n v s = { s with status := st } ∧ statusOvr st = true ∧
        ∀ j, j ≠ 3 → st.getLsbD j = s.status.getLsbD j) ∧
    (1 ≤ n → n ≤ 5 → statusBusy s.status = false →
      hostRead n (hostWrite n v s) = v ∧ (∀ m, m ≠ n → hostRead m (hostWrite n v s) = hostRead m s) ∧
        (hostWrite n v s).acc = s.acc ∧ (hostWrite n v s).tail = s.tail ∧ (hostWrite n v s).blk = s.blk ∧
        (hostWrite n v s).phase = s.phase ∧ (hostWrite n v s).hosts = s.hosts ∧ (hostWrite n v s).turns = s.turns ∧
        ∀ slot a, (hostWrite n v s).mem.answer slot a = s.mem.answer slot a) ∧
    (statusBusy s.status = false →
      hostWrite 0 v s = { s with cmd := v, status := 0x1, result0 := 0, result1 := 0, faddr := 0, phase := .check }) ∧
    (10 ≤ n → hostRead n s = 0 ∧ hostWrite n v s = s)

/-- R43: the acceptance of a command as one atomic host access; the datapath registers, already zero, stay as they are.
`BUSY` is 1 from here until the command ends, and in every state in which it is, registers 0 to 5 are locked: a host write
to one of them changes no register but `STATUS`, and no step of any agent but the reset event changes one of them. -/
def Obligations.CommandAcceptance : Prop :=
  ∀ (v : Word) (s : State), statusBusy s.status = false →
    hostWrite 0 v s = { s with cmd := v, status := 0x1, result0 := 0, result1 := 0, faddr := 0, phase := .check } ∧
      statusBusy (hostWrite 0 v s).status = true ∧ (s.Inv → s.quiet ∧ (hostWrite 0 v s).quiet) ∧
      (∀ u : State, statusBusy u.status = true → ∀ n x, n ≤ 5 → ∀ m, m ≠ 6 →
        hostRead m (hostWrite n x u) = hostRead m u) ∧
      ∀ u t : State, statusBusy u.status = true → step u = .next t → (∀ ts, u.turns ≠ .reset :: ts) →
        ∀ n, n ≤ 5 → hostRead n t = hostRead n u

/-- R78: a host's turn performs the first statement of its script: `WR` is one host write; `RD` one host read; `WAIT` reads
`STATUS` and goes on only when `BUSY` reads 0. That the turns are a list is the model's form of R18 (log entry 7). -/
def Obligations.HostTurnPerformsTheStatement : Prop :=
  ∀ (s : State) (k : Nat) (rest : List HostStmt) (seen : List Observation) (ts : List Turn), s.turns = .host k :: ts →
    (∀ n v, s.hosts[k]? = some ⟨.wr n v :: rest, seen⟩ →
      step s = .next (hostWrite n v { s with hosts := s.hosts.set k ⟨rest, seen⟩, turns := ts })) ∧
    (∀ n, s.hosts[k]? = some ⟨.rd n :: rest, seen⟩ →
      step s = .next { s with hosts := s.hosts.set k ⟨rest, seen ++ [.rd n (hostRead n s)]⟩, turns := ts }) ∧
    (s.hosts[k]? = some ⟨.wait :: rest, seen⟩ →
      step s = .next { s with
        hosts := s.hosts.set k
          ⟨if statusBusy s.status then .wait :: rest else rest, seen ++ [.waitRead s.status]⟩
        turns := ts })

/-- R239, R220: the note of a dropped write changes nothing that a command does: its step commutes with it. -/
def Obligations.OverrunNeverChangesACommand : Prop :=
  ∀ (i : Instr) (s t : State), exec i s = .next t →
    exec i { s with status := s.status ||| 0x8 } = .next { t with status := t.status ||| 0x8 }

/-- R79: a pseudo-instruction, performed by the one host of an idle CORE, leaves its operands in their registers and its
command accepted; the seed registers it does not name keep their values. That the lone host moves while CORE is idle is the
model's default schedule (log entry 7). -/
def Obligations.PseudoInstructionIssuesItsCommand : Prop :=
  ∀ (i : Instr) (base len cap s0 s1 : Word) (seen : List Observation) (s : State),
    s.phase = .idle → statusBusy s.status = false → s.turns = [] →
    s.hosts = [⟨expandPseudo i base len cap s0 s1, seen⟩] →
    runSteps (expandPseudo i base len cap s0 s1).length s = .next
      { s with
        cmd := encode i
        bufBase := base
        bufLen := len
        bufCap := cap
        seed0 := if i = .h64s ∨ i = .h64ss ∨ i = .h128s then s0 else s.seed0
        seed1 := if i = .h64ss ∨ i = .h128s then s1 else s.seed1
        status := 0x1
        result0 := 0
        result1 := 0
        faddr := 0
        phase := .check
        hosts := [⟨[], seen⟩] }

/-- R18, R218: with no step enabled and nothing to do, the machine keeps all its state; a sequencer turn in IDLE does
nothing. That nobody moves then is the model's default schedule (log entry 7). -/
def Obligations.IdleKeepsAllState : Prop :=
  ∀ s : State, s.phase = .idle →
    (s.turns = [] → (∀ h ∈ s.hosts, h.script = []) → step s = .next s) ∧
      ∀ ts, s.turns = .sequencer :: ts → step s = .next { s with turns := ts }

/-! ### Faults -/

/-- R205: what fault entry writes, and that nothing else changes. -/
def Obligations.FaultEntryWritesTheRecord : Prop :=
  ∀ (k : Cause) (f : Word) (s : State), FaultTaken k f s (faultEntry k f s)

/-- R203, R206: the CHECK step of every command: the tests in their order, the first that holds decides the cause; if none
holds only `PHASE` changes. -/
def Obligations.CheckStepDecides : Prop :=
  ∀ (i : Instr) (s : State), s.phase = .check →
    (rsvField s.cmd ≠ 0 ∨ 5 < (opField s.cmd).toNat →
      ∃ t, exec i s = .next t ∧ FaultTaken .illegalCommand 0 s t) ∧
    (rsvField s.cmd = 0 → (opField s.cmd).toNat ≤ 5 →
      if s.bufLen ≠ 0 ∧ s.bufBase = 0 then ∃ t, exec i s = .next t ∧ FaultTaken .nullBuffer 0 s t
      else if s.bufCap.toNat < s.bufLen.toNat then ∃ t, exec i s = .next t ∧ FaultTaken .lengthExceedsBuffer 0 s t
      else if 2 ^ 64 < s.bufBase.toNat + s.bufLen.toNat then
        ∃ t, exec i s = .next t ∧ FaultTaken .addressWrap 0 s t
      else exec i s = .next { s with phase := if 64 < s.bufLen.toNat then .init else .finish })

/-- R52, R161, R204, R206: of the bytes a step reads, in the normative order, the first that is refused ends the command in
a fault of cause `BUFFER_ACCESS` that records its address; the step makes none of its own writes. -/
def Obligations.FirstRefusedByteFaults : Prop :=
  ∀ (i : Instr) (s : State) (k a : Nat), (readOrder s)[k]? = some a → (∀ b ∈ readOrder s, b < 2 ^ 64) →
    (∀ j b, j < k → (readOrder s)[j]? = some b → s.mem.answers b) → (∀ slot, s.mem.answer slot a = .refused) →
    ∃ t, exec i s = .next t ∧ FaultTaken .bufferAccess (BitVec.ofNat 64 a) s t

/-- R242: a read that the environment never answers leaves the command in its step, with nothing changed;
that this shows as a step is the model's form (log entry 9). -/
def Obligations.UnansweredReadStaysInTheStep : Prop :=
  ∀ (i : Instr) (s : State) (k a : Nat), (readOrder s)[k]? = some a → (∀ b ∈ readOrder s, b < 2 ^ 64) →
    (∀ j b, j < k → (readOrder s)[j]? = some b → s.mem.answers b) → (∀ slot, s.mem.answer slot a = .silent) →
    exec i s = .next s

/-- R204, R57: every address that a step presents lies inside the declared buffer, and so does a fault's. -/
def Obligations.ReadsStayInsideTheBuffer : Prop :=
  ∀ s : State, s.Inv → ∀ a ∈ readOrder s, s.bufBase.toNat ≤ a ∧ a < s.bufBase.toNat + s.bufLen.toNat

/-! ### The sequencer's steps -/

/-- R171: the table of seed integration; the row of `H32` is of 32-bit words. -/
def Obligations.SeedIntegrationTable : Prop :=
  ∀ (c : Cfg) (s0 s1 : Word),
    seedInit c .h32 s0 s1 = ⟨zext64 c.j2, zext64 c.j0, zext64 c.j1, zext64 c.jmul⟩ ∧
    seedInit c .h64 s0 s1 = ⟨c.k2, c.k0, c.k1, c.kmul⟩ ∧
    seedInit c .h64s s0 s1 = ⟨mix64 c (s0 + c.k2), c.k1, c.k0, c.kmul⟩ ∧
    seedInit c .h64ss s0 s1 = ⟨mix64 c (s0 + c.k2), c.k1, c.k0, c.kmul⟩ ∧
    seedInit c .h128 s0 s1 = ⟨c.k0, c.k2, c.k1, c.kmul⟩ ∧
    seedInit c .h128s s0 s1 = ⟨mix64 c (s0 + c.k0), c.k2, mix64 c (s1 + c.k1), c.kmul⟩

/-- R152: step INIT of the 64-bit commands, and that it changes nothing else. -/
def Obligations.InitStepOfTheWideCommands : Prop :=
  ∀ (i : Instr) (s : State), i ≠ .h32 → s.phase = .init →
    let c := Config.cfg
    let w := seedInit c i s.seed0 s.seed1
    let lm := c.k2 + 2 * s.bufLen
    exec i s = .next { s with acc := ⟨w.w0 + lm, w.w1, w.w2 ^^^ lm, w.w3⟩, blk := 0, phase := .absorb }

/-- R153: step INIT of `H32`, and that it changes nothing else. -/
def Obligations.InitStepOfH32 : Prop :=
  ∀ s : State, s.phase = .init →
    let c := Config.cfg
    let lm : Half := c.j2 + 2 * lo32 s.bufLen
    exec .h32 s = .next { s with
      acc := ⟨zext64 (c.j2 + lm), zext64 c.j0, zext64 (c.j1 ^^^ lm), zext64 c.jmul⟩
      blk := 0
      phase := .absorb }

/-- R154, R155, R157, R158: step ABSORB of the 64-bit commands on a readable block `bs`, and what it leaves. -/
def Obligations.AbsorbStepOfTheWideCommands : Prop :=
  ∀ (i : Instr) (s : State) (bs : List Byte), i ≠ .h32 → s.phase = .absorb → bs.length = 64 →
    s.bufBase.toNat + 64 * s.blk.toNat + 64 ≤ 2 ^ 64 → bytesAt s.mem (s.bufBase.toNat + 64 * s.blk.toNat) bs →
    let c := Config.cfg
    let m : Nat → Word := fun j => assemble ((bs.drop (8 * j)).take 8)
    let ab := wmp64 c s.acc.w0 s.acc.w1 (m 0) (m 1) (m 2) (m 3)
    let cd := wmp64 c s.acc.w2 s.acc.w3 (m 4) (m 5) (m 6) (m 7)
    let r : Quad Word := ⟨mix64 c (ab.1 + cd.2), ab.2 ^^^ rotr64 cd.1 c.rc64, mix64 c (cd.1 + ab.2),
      cd.2 ^^^ rotr64 ab.1 c.rd64⟩
    ∃ t, exec i s = .next t ∧ SameOutside s t ∧ t.acc = r ∧
      t.tail = (mix64 c r.w0 + r.w1, mix64 c r.w2 + r.w3) ∧ t.blk = s.blk + 1 ∧
      t.phase = (if s.blk + 1 = nblkOf s.bufLen then .finish else .absorb) ∧ t.status = s.status ∧
      t.result0 = s.result0 ∧ t.result1 = s.result1 ∧ t.faddr = s.faddr

/-- R154, R156, R157, R158: step ABSORB of `H32` on a readable block `bs`, in terms of its sixteen little-endian 32-bit
words, and what it leaves. -/
def Obligations.AbsorbStepOfH32 : Prop :=
  ∀ (s : State) (bs : List Byte), s.phase = .absorb → bs.length = 64 →
    s.bufBase.toNat + 64 * s.blk.toNat + 64 ≤ 2 ^ 64 → bytesAt s.mem (s.bufBase.toNat + 64 * s.blk.toNat) bs →
    let c := Config.cfg
    let h : Nat → Half := fun j => lo32 (assemble ((bs.drop (4 * j)).take 4))
    let ab1 := wmp32 c (lo32 s.acc.w0) (lo32 s.acc.w1) (h 0) (h 1) (h 2) (h 3)
    let cd1 := wmp32 c (lo32 s.acc.w2) (lo32 s.acc.w3) (h 4) (h 5) (h 6) (h 7)
    let ab := wmp32 c ab1.1 ab1.2 (h 8) (h 9) (h 10) (h 11)
    let cd := wmp32 c cd1.1 cd1.2 (h 12) (h 13) (h 14) (h 15)
    let r : Quad Half := ⟨mix32 c (ab.1 + cd.2), ab.2 ^^^ rotr32 cd.1 c.rc32, mix32 c (cd.1 + ab.2),
      cd.2 ^^^ rotr32 ab.1 c.rd32⟩
    ∃ t, exec .h32 s = .next t ∧ SameOutside s t ∧
      t.acc = ⟨zext64 r.w0, zext64 r.w1, zext64 r.w2, zext64 r.w3⟩ ∧
      t.tail = (zext64 (mix32 c r.w0 + r.w1), zext64 (mix32 c r.w2 + r.w3)) ∧ t.blk = s.blk + 1 ∧
      t.phase = (if s.blk + 1 = nblkOf s.bufLen then .finish else .absorb) ∧ t.status = s.status ∧
      t.result0 = s.result0 ∧ t.result1 = s.result1 ∧ t.faddr = s.faddr

/-- R59, R188: no command's step changes an operand register, an agent, or any byte of memory; and no step of the machine
but a change made by the environment itself changes the memory. -/
def Obligations.NoCommandWritesOutsideCore : Prop :=
  (∀ (i : Instr) (s t : State), exec i s = .next t → SameOutside s t) ∧
    ∀ s t : State, step s = .next t → (∀ e ts, s.turns ≠ .environment e :: ts) →
      t.mem = s.mem ∧ ∀ slot a, t.mem.answer slot a = s.mem.answer slot a

/-- R63, U3: bytes that another agent is changing raise no fault: if every byte the step reads is answered, settled or not,
ABSORB goes on and FINISH completes the command with some result, for every value of the draws (log entry 2). -/
def Obligations.UnsettledBytesRaiseNoFault : Prop :=
  ∀ (i : Instr) (s : State), (∀ a ∈ readOrder s, a < 2 ^ 64 ∧ s.mem.answers a) →
    (s.phase = .absorb →
      ∃ t, exec i s = .next t ∧ SameOutside s t ∧ t.blk = s.blk + 1 ∧
        t.phase = (if s.blk + 1 = nblkOf s.bufLen then .finish else .absorb)) ∧
    (s.phase = .finish → ∃ t r, exec i s = .next t ∧ CommandDone r s t)

/-! ### The six commands complete

In each, `n` and `addr` are the tail's length and address (R122), `bs` its bytes, `g` its words (R124), and the conclusion
is step FINISH (R174) with the result the command's rule gives. -/

/-- R175, R174: `H32` completes. -/
def Obligations.H32Completes : Prop :=
  ∀ (s : State) (bs : List Byte), s.phase = .finish →
    let len := s.bufLen.toNat
    let addr := s.bufBase.toNat + (if len ≤ 64 then 0 else 64 * (len / 64))
    bs.length = (if len ≤ 64 then len else len % 64) → addr + bs.length ≤ 2 ^ 64 → bytesAt s.mem addr bs →
    let c := Config.cfg
    let g := planWords bs (tailPlan bs.length)
    let p := if len ≤ 64 then (c.j2, c.j0) else (lo32 s.tail.1, lo32 s.tail.2)
    ∃ t, exec .h32 s = .next t ∧ CommandDone (zext64 (fin32 c (branch32 c g bs.length p.1 p.2)), 0) s t

/-- R176, R174: `H64` completes. -/
def Obligations.H64Completes : Prop :=
  ∀ (s : State) (bs : List Byte), s.phase = .finish →
    let len := s.bufLen.toNat
    let addr := s.bufBase.toNat + (if len ≤ 64 then 0 else 64 * (len / 64))
    bs.length = (if len ≤ 64 then len else len % 64) → addr + bs.length ≤ 2 ^ 64 → bytesAt s.mem addr bs →
    let c := Config.cfg
    let g := planWords bs (tailPlan bs.length)
    let p := if len ≤ 64 then (c.k2, c.k0) else s.tail
    ∃ t, exec .h64 s = .next t ∧ CommandDone (fin64 c (branch64 c g bs.length p.1 p.2), 0) s t

/-- R177, R174: `H64S` completes. -/
def Obligations.H64SCompletes : Prop :=
  ∀ (s : State) (bs : List Byte), s.phase = .finish →
    let len := s.bufLen.toNat
    let addr := s.bufBase.toNat + (if len ≤ 64 then 0 else 64 * (len / 64))
    bs.length = (if len ≤ 64 then len else len % 64) → addr + bs.length ≤ 2 ^ 64 → bytesAt s.mem addr bs →
    let c := Config.cfg
    let g := planWords bs (tailPlan bs.length)
    let p := if len ≤ 64 then (mix64 c (s.seed0 + c.k2), c.k1) else s.tail
    ∃ t, exec .h64s s = .next t ∧ CommandDone (fin64 c (branch64 c g bs.length p.1 p.2), 0) s t

/-- R178, R174: `H64SS` completes. -/
def Obligations.H64SSCompletes : Prop :=
  ∀ (s : State) (bs : List Byte), s.phase = .finish →
    let len := s.bufLen.toNat
    let addr := s.bufBase.toNat + (if len ≤ 64 then 0 else 64 * (len / 64))
    bs.length = (if len ≤ 64 then len else len % 64) → addr + bs.length ≤ 2 ^ 64 → bytesAt s.mem addr bs →
    let c := Config.cfg
    let g := planWords bs (tailPlan bs.length)
    let p := if len ≤ 64 then (mix64 c (s.seed0 + c.k2), c.k1) else s.tail
    let r := fin64 c (branch64 c g bs.length p.1 p.2)
    ∃ t, exec .h64ss s = .next t ∧ CommandDone (mix64 c ((r + c.k0) ^^^ s.seed1), 0) s t

/-- R179, R174: `H128` completes. -/
def Obligations.H128Completes : Prop :=
  ∀ (s : State) (bs : List Byte), s.phase = .finish →
    let len := s.bufLen.toNat
    let addr := s.bufBase.toNat + (if len ≤ 64 then 0 else 64 * (len / 64))
    bs.length = (if len ≤ 64 then len else len % 64) → addr + bs.length ≤ 2 ^ 64 → bytesAt s.mem addr bs →
    let c := Config.cfg
    let g := planWords bs (tailPlan bs.length)
    let p := if len ≤ 64 then (c.k0, c.k2) else s.tail
    let q := if len ≤ 64 then (c.k1, c.kmul) else (s.tail.2 + c.k1, s.tail.1)
    ∃ t, exec .h128 s = .next t ∧
      CommandDone (fin64 c (branch64 c g bs.length p.1 p.2), fin64 c (branch64 c g bs.length q.1 q.2)) s t

/-- R180, R174: `H128S` completes. -/
def Obligations.H128SCompletes : Prop :=
  ∀ (s : State) (bs : List Byte), s.phase = .finish →
    let len := s.bufLen.toNat
    let addr := s.bufBase.toNat + (if len ≤ 64 then 0 else 64 * (len / 64))
    bs.length = (if len ≤ 64 then len else len % 64) → addr + bs.length ≤ 2 ^ 64 → bytesAt s.mem addr bs →
    let c := Config.cfg
    let g := planWords bs (tailPlan bs.length)
    let p := if len ≤ 64 then (mix64 c (s.seed0 + c.k0), c.k2) else s.tail
    let q := if len ≤ 64 then (mix64 c (s.seed1 + c.k1), c.kmul) else (s.tail.2 + c.k1, s.tail.1)
    ∃ t, exec .h128s s = .next t ∧
      CommandDone (fin64 c (branch64 c g bs.length p.1 p.2), fin64 c (branch64 c g bs.length q.1 q.2)) s t

/-! ### How the commands are related -/

/-- R178: `H64SS` is `H64S` followed by one more mixing pass with `SEED1`, which takes no part before it. -/
def Obligations.H64SSIsH64SAndOneMorePass : Prop :=
  ∀ s : State, (s.phase ≠ .finish → exec .h64ss s = exec .h64s s) ∧
    ∀ t, exec .h64s s = .next t → s.phase = .finish → t.phase = .idle → statusDone t.status = true →
      exec .h64ss s = .next { t with result0 := mix64 Config.cfg ((t.result0 + Config.cfg.k0) ^^^ s.seed1) }

/-- R180: for a buffer of at most 64 bytes the first word of `H128S` does not depend on `SEED1` nor the second on `SEED0`. -/
def Obligations.H128SHalvesFollowTheirOwnSeeds : Prop :=
  ∀ (s t t' : State) (v : Word), s.phase = .finish → s.bufLen.toNat ≤ 64 → exec .h128s s = .next t →
    (exec .h128s { s with seed1 := v } = .next t' → t'.result0 = t.result0) ∧
      (exec .h128s { s with seed0 := v } = .next t' → t'.result1 = t.result1)

/-- R182: operands a command does not use are ignored entirely: not validated, of no effect, not changed. -/
def Obligations.UnusedSeedsAreIgnored : Prop :=
  ∀ (i : Instr) (s t : State) (a b : Word), exec i s = .next t →
    (i = .h32 ∨ i = .h64 ∨ i = .h128 →
      exec i { s with seed0 := a, seed1 := b } = .next { t with seed0 := a, seed1 := b }) ∧
    (i = .h64s → exec i { s with seed1 := b } = .next { t with seed1 := b })

/-- R57: a command's step depends on no byte of memory outside the declared buffer. -/
def Obligations.OnlyTheBufferMatters : Prop :=
  ∀ (i : Instr) (s t : State) (m : BufMem), s.Inv →
    (∀ slot a, s.bufBase.toNat ≤ a → a < s.bufBase.toNat + s.bufLen.toNat →
      m.answer slot a = s.mem.answer slot a) →
    exec i s = .next t → exec i { s with mem := m } = .next { t with mem := m }

/-! ### Whole commands -/

/-- R187, R240, R175 to R180: an accepted command that passes CHECK over a readable buffer completes in exactly the number
of steps of R240 and leaves the closed form's value, under the model's configuration (log entry 1) and with the turns to
itself (log entry 7). -/
def Obligations.WholeCommandLeavesTheHash : Prop :=
  ∀ (i : Instr) (s : State) (bs : List Byte), s.accepted i → s.bufferIs bs →
    ∃ t, runSteps (stepCount s.bufLen) s = .next t ∧ CommandDone (closedHash Config.cfg i bs s.seed0 s.seed1) s t

/-- R184, R182: the result of a whole command depends on the command, the bytes and the seeds it uses only: not on where
the buffer stands, on `BUF_CAP`, on the interleaving of host accesses and steps, or on anything else of the state. The first
clause is of two runs that have the turns to themselves, which is the model's default schedule (log entry 7); the second of
two runs with any turns of hosts, and of memory changes outside the buffer, between the sequencer's, which is the model's
form of an interleaving (log entry 7, which gives the sequencer the turns that the list leaves open). -/
def Obligations.ResultDependsOnBytesAndSeedsOnly : Prop :=
  (∀ (i : Instr) (s s' t t' : State) (bs : List Byte), s.accepted i → s.bufferIs bs → s'.accepted i → s'.bufferIs bs →
    s'.seed0 = s.seed0 → s'.seed1 = s.seed1 →
    runSteps (stepCount s.bufLen) s = .next t → runSteps (stepCount s'.bufLen) s' = .next t' →
    t'.result0 = t.result0 ∧ t'.result1 = t.result1) ∧
  ∀ (i : Instr) (s s' : State) (bs : List Byte), s.underway i bs → s'.underway i bs →
    (i = .h64s ∨ i = .h64ss ∨ i = .h128s → s'.seed0 = s.seed0) → (i = .h64ss ∨ i = .h128s → s'.seed1 = s.seed1) →
    ∃ k k' t t', s.endsAt k t ∧ s'.endsAt k' t' ∧ statusDone t.status = true ∧ statusDone t'.status = true ∧
      t'.result0 = t.result0 ∧ t'.result1 = t.result1

/-- R184, R187, R31, R18: whatever host accesses, and changes of memory outside the buffer, fall between the sequencer's
steps of a command, and in whatever order, it ends within as many steps as there are turns fixed and steps of R240, done,
with the closed form's value; the operand registers keep the values they held at its acceptance. The turns as a list, and the
sequencer's default once the list is exhausted, are the model's form of the interleaving (log entry 7). -/
def Obligations.InterleavedCommandLeavesTheHash : Prop :=
  ∀ (i : Instr) (s : State) (bs : List Byte), s.underway i bs →
    ∃ k t, k ≤ s.turns.length + stepCount s.bufLen ∧ s.endsAt k t ∧ t.phase = .idle ∧ statusDone t.status = true ∧
      statusFault t.status = statusFault s.status ∧ t.quiet ∧ t.faddr = s.faddr ∧
      t.result0 = (closedHash Config.cfg i bs s.seed0 s.seed1).1 ∧
      t.result1 = (closedHash Config.cfg i bs s.seed0 s.seed1).2 ∧ ∀ n, n ≤ 5 → hostRead n t = hostRead n s

/-- R183, R219: a command of length 0 completes in two steps, whatever `BUF_BASE`, `BUF_CAP` and the memory are, with the
value of the empty input; with the default constants and zero seeds these are the six pairs of R183. That the next two steps
of the machine are the sequencer's is the model's default schedule (log entry 7). -/
def Obligations.ZeroLengthCommandCompletes : Prop :=
  (∀ (i : Instr) (s : State), s.phase = .check → s.turns = [] → decode s.cmd = .command i → s.bufLen = 0 →
    ∃ t, runSteps 2 s = .next t ∧ CommandDone (closedHash Config.cfg i [] s.seed0 s.seed1) s t) ∧
  closedHash Cfg.default .h32 [] 0 0 = (0x092b517e, 0) ∧ closedHash Cfg.default .h64 [] 0 0 = (0x55a2200edb81f6c0, 0) ∧
  closedHash Cfg.default .h64s [] 0 0 = (0x4e91b95d20f4a0bf, 0) ∧ closedHash Cfg.default .h64ss [] 0 0 = (0xc1189c5a8d7c22d9, 0) ∧
  closedHash Cfg.default .h128 [] 0 0 = (0xe72b919f40627d10, 0x4bcdd78ee2688e95) ∧
  closedHash Cfg.default .h128s [] 0 0 = (0x1c6f693525d78ceb, 0x7545bc837aa51fda)

/-- R240, R161: how many steps a command takes that ends in a fault of cause `BUFFER_ACCESS`: `3 + b` if the byte is in
block `b`, all steps if it is in the tail. The rule counts sequencer steps; that these are the machine's steps, the command
having the turns to itself, is the model's default schedule (log entry 7). -/
def Obligations.BufferFaultStepCount : Prop :=
  ∀ (i : Instr) (s : State), s.accepted i →
    (∀ b k : Nat, 64 < s.bufLen.toNat → b < s.bufLen.toNat / 64 → k < 64 →
      (∀ x, s.bufBase.toNat ≤ x → x < s.bufBase.toNat + 64 * b + k → s.mem.answers x) →
      (∀ slot, s.mem.answer slot (s.bufBase.toNat + 64 * b + k) = .refused) →
      ∃ t, runSteps (3 + b) s = .next t ∧
        FaultTaken .bufferAccess (BitVec.ofNat 64 (s.bufBase.toNat + 64 * b + k)) s t) ∧
    (∀ j a : Nat, let order := planAddresses (tailAddress s) (tailPlan (tailLength s.bufLen))
      (∀ x, s.bufBase.toNat ≤ x → x < tailAddress s → s.mem.answers x) →
      (∀ l x, l < j → order[l]? = some x → s.mem.answers x) → order[j]? = some a →
      (∀ slot, s.mem.answer slot a = .refused) →
      ∃ t, runSteps (stepCount s.bufLen) s = .next t ∧ FaultTaken .bufferAccess (BitVec.ofNat 64 a) s t)

/-- R241, R207, R240: if the environment answers every read of the buffer, a running command that has the turns to itself
ends, done or faulted and not both, within `3 + floor(BUF_LEN / 64)` steps. That it has them with no turn fixed is the
model's default schedule, which stands for the fairness of R241 (log entry 7). -/
def Obligations.EveryCommandEnds : Prop :=
  ∀ s : State, s.Inv → s.phase ≠ .idle → s.turns = [] →
    (∀ a, s.bufBase.toNat ≤ a → a < s.bufBase.toNat + s.bufLen.toNat → ∀ slot, s.mem.answer slot a ≠ .silent) →
    ∃ k t, k ≤ 3 + s.bufLen.toNat / 64 ∧ runSteps k s = .next t ∧ t.phase = .idle ∧
      (statusDone t.status = true ↔ statusFault t.status = false)

/-- R78, R79, R236, R187: a host that issues a pseudo-instruction to an idle CORE, waits, and reads the two result
registers, is told the closed form's value. The order of moves is the model's default schedule (log entry 7). -/
def Obligations.ATransactionReturnsTheHash : Prop :=
  ∀ (i : Instr) (base len cap s0 s1 : Word) (s : State) (bs : List Byte),
    s.phase = .idle → statusBusy s.status = false → s.turns = [] →
    (len = 0 ∨ base ≠ 0) → len.toNat ≤ cap.toNat → base.toNat + len.toNat ≤ 2 ^ 64 → bs.length = len.toNat →
    bytesAt s.mem base.toNat bs →
    s.hosts = [⟨expandPseudo i base len cap s0 s1 ++ [.wait, .rd 7, .rd 8], []⟩] →
    ∃ t, runSteps ((expandPseudo i base len cap s0 s1).length + stepCount len + 3) s = .next t ∧
      t.hosts = [⟨[], [.waitRead 0x2, .rd 7 (closedHash Config.cfg i bs s0 s1).1, .rd 8 (closedHash Config.cfg i bs s0 s1).2]⟩]

/-! ### The buffer memory -/

/-- R51, R63, R242: a change from outside keeps the canonical form, and what it writes is what the next reads of that one
address see. How the environment is written down is the model's choice (log entries 2, 4 and 9). -/
def Obligations.EnvironmentChangesOneAddress : Prop :=
  (∀ (m : BufMem) (e : EnvChange), m.wf = true → (m.change e).wf = true) ∧
  (∀ (m : BufMem) (slot x : Nat) (a : Word) (b : Byte), m.wf = true →
    (m.change (.setConduct a none)).answer slot x = (if x = a.toNat then
      (match assocFind x m.cells with | some v => .byte v | none => .refused) else m.answer slot x) ∧
    ((m.change (.setConduct a none)).change (.setByte a b)).answer slot a.toNat = .byte b ∧
    ((m.change (.setConduct a none)).change (.refuse a)).answer slot a.toNat = .refused ∧
    (m.change (.setConduct a (some .silent))).answer slot a.toNat = .silent ∧
    (m.change (.setConduct a (some .unsettled))).answer slot a.toNat = .byte (Config.draw slot) ∧
    (x ≠ a.toNat → ∀ k, (m.change (.setByte a b)).answer slot x = m.answer slot x ∧
      (m.change (.refuse a)).answer slot x = m.answer slot x ∧
      (m.change (.setConduct a (some k))).answer slot x = m.answer slot x))

/-! ### The arithmetic of the units -/

/-- R108 and the worked examples of R91 to R101, R172 and R173, with the default constants. -/
def Obligations.WorkedExamplesOfThePrimitives : Prop :=
  let c := Cfg.default
  rotr64 0x0123456789abcdef 21 = 0x5e6f78091a2b3c4d ∧ rotr64 0x0123456789abcdef 44 = 0x56789abcdef01234 ∧
  rotr64 1 1 = 0x8000000000000000 ∧ rotr32 0x89abcdef 11 = 0xbdf13579 ∧ rotr32 0x89abcdef 22 = 0xaf37be26 ∧
  mix64 c 0x0123456789abcdef = 0x195ba2d80c191c72 ∧ mix64 c 0xFFFFFFFFFFFFFFFF = 0xe286fb3ae0b5ec22 ∧
  mix32 c 0x89abcdef = 0x6e682451 ∧ mix32 c 0xFFFFFFFF = 0x710bf9e9 ∧
  wmp64 c 0xFFFFFFFFFFFFFFFF 0xFFFFFFFFFFFFFFFF 0xFFFFFFFFFFFFFFFF 0xFFFFFFFFFFFFFFFF 0xFFFFFFFFFFFFFFFF
    0xFFFFFFFFFFFFFFFF = (0xfffffffffffffffb, 0xb492a66fbe699b53) ∧
  wmp32 c 0xFFFFFFFF 0xFFFFFFFF 0xFFFFFFFF 0xFFFFFFFF 0xFFFFFFFF 0xFFFFFFFF = (0xfffffffb, 0x1b46f69a) ∧
  wmp64 c 1 2 3 4 5 6 = (0x13, 0xb493066fbf699b58) ∧ wmp32 c 1 2 3 4 5 6 = (0x13, 0x1cc7369f) ∧
  lm64 c 11 = 0x9ae16a3b2f904065 ∧ lm32 c 5 = 0xe6546b6e ∧
  fin64 c (0xad2c4eaae38d38e9, 0x1a0de5ce7e697c36) = 0xf599142635ed16f1 ∧
  fin32 c (0x55536064, 0x6f303bbb) = 0x3b1ac854 ∧ post c 0x42d83d262cd0ad9b 0 = 0xf6689498aa32d1ca

/-- R91, R92: bit `i` of a rotation is bit `(i + r) mod W` of the operand; the amount 0 is the identity. -/
def Obligations.RotateMovesEachBit : Prop :=
  (∀ (x : Word) (r : Fin 64), rotr64 x 0 = x ∧ ∀ i, i < 64 → (rotr64 x r).getLsbD i = x.getLsbD ((i + r.val) % 64)) ∧
    ∀ (x : Half) (r : Fin 32), rotr32 x 0 = x ∧ ∀ i, i < 32 → (rotr32 x r).getLsbD i = x.getLsbD ((i + r.val) % 32)

/-- R93: the laws of rotate, at both widths. -/
def Obligations.RotateLaws : Prop :=
  (∀ (x y : Word) (r u : Fin 64), rotr64 x 0 = x ∧ rotr64 (rotr64 x r) u = rotr64 x (r + u) ∧
    rotr64 (rotr64 x r) (-r) = x ∧ rotr64 (rotr64 x (-r)) r = x ∧ rotr64 (x ^^^ y) r = rotr64 x r ^^^ rotr64 y r ∧
    ((List.range 64).filter (rotr64 x r).getLsbD).length = ((List.range 64).filter x.getLsbD).length) ∧
  (∀ (x y : Half) (r u : Fin 32), rotr32 x 0 = x ∧ rotr32 (rotr32 x r) u = rotr32 x (r + u) ∧
    rotr32 (rotr32 x r) (-r) = x ∧ rotr32 (rotr32 x (-r)) r = x ∧ rotr32 (x ^^^ y) r = rotr32 x r ^^^ rotr32 y r ∧
    ((List.range 32).filter (rotr32 x r).getLsbD).length = ((List.range 32).filter x.getLsbD).length)

/-- R96, R97: under the constraints on the configuration the avalanche is a bijection, and zero alone gives zero. -/
def Obligations.MixIsABijection : Prop :=
  ∀ c : Cfg, c.wf = true → Function.Bijective (mix64 c) ∧ Function.Bijective (mix32 c) ∧
    (∀ x, mix64 c x = 0 ↔ x = 0) ∧ (∀ x, mix32 c x = 0 ↔ x = 0)

/-- R104 (a) to (e): the laws of the pair-blend, at both widths and for any configuration. -/
def Obligations.PairBlendLaws : Prop :=
  ∀ c : Cfg,
    (∀ a b w x y z : Word, (wmp64 c a b w x y z).1 = a + w + x + y + z) ∧
    (∀ a w x y z : Word, (∃ k, ∀ b, (wmp64 c a b w x y z).2 = b + k) ∧
      Function.Bijective fun b => (wmp64 c a b w x y z).2) ∧
    (∀ a b w x y z : Word, (Function.Bijective fun v => (wmp64 c v b w x y z).1) ∧
      (Function.Bijective fun v => (wmp64 c a b v x y z).1) ∧ (Function.Bijective fun v => (wmp64 c a b w v y z).1) ∧
      (Function.Bijective fun v => (wmp64 c a b w x v z).1) ∧ Function.Bijective fun v => (wmp64 c a b w x y v).1) ∧
    wmp64 c 0 0 0 0 0 0 = (0, 0) ∧
    (∃ m : Word → Word → Word, ∀ a b w x y z : Word, (wmp64 c a b w x y z).2 =
      b + rotr64 (a + w + z) c.ra64 + rotr64 (a + w + x + y) c.rb64 + m (a + w) y) ∧
    (∀ a b w x y z : Half, (wmp32 c a b w x y z).1 = a + w + x + y + z) ∧
    (∀ a w x y z : Half, (∃ k, ∀ b, (wmp32 c a b w x y z).2 = b + k) ∧
      Function.Bijective fun b => (wmp32 c a b w x y z).2) ∧
    (∀ a b w x y z : Half, (Function.Bijective fun v => (wmp32 c v b w x y z).1) ∧
      (Function.Bijective fun v => (wmp32 c a b v x y z).1) ∧ (Function.Bijective fun v => (wmp32 c a b w v y z).1) ∧
      (Function.Bijective fun v => (wmp32 c a b w x v z).1) ∧ Function.Bijective fun v => (wmp32 c a b w x y v).1) ∧
    wmp32 c 0 0 0 0 0 0 = (0, 0) ∧
    (∃ m : Half → Half → Half, ∀ a b w x y z : Half, (wmp32 c a b w x y z).2 =
      b + rotr32 (a + w + z) c.ra32 + rotr32 (a + w + x + y) c.rb32 + m (a + w) y)

/-- R172, R173: the output stage is a bijection in each of its words. -/
def Obligations.OutputStageIsBijectiveInEachWord : Prop :=
  ∀ c : Cfg, c.wf = true →
    (∀ b, Function.Bijective fun a => fin64 c (a, b)) ∧ (∀ a, Function.Bijective fun b => fin64 c (a, b)) ∧
    (∀ b, Function.Bijective fun a => fin32 c (a, b)) ∧ (∀ a, Function.Bijective fun b => fin32 c (a, b)) ∧
    (∀ s1, Function.Bijective fun r => post c r s1) ∧ (∀ r, Function.Bijective fun s1 => post c r s1) ∧
    fin64 c (0, 0) = 0 ∧ fin32 c (0, 0) = 0

/-- R171: two different first seeds never give the same `I0`, nor two different second seeds of `H128S` the same `I2`. -/
def Obligations.SeededWordsDifferForDifferentSeeds : Prop :=
  ∀ c : Cfg, c.wf = true → ∀ (i : Instr) (a b s1 : Word), a ≠ b →
    (i = .h64s ∨ i = .h64ss ∨ i = .h128s → (seedInit c i a s1).w0 ≠ (seedInit c i b s1).w0) ∧
      ∀ s0, (seedInit c .h128s s0 a).w2 ≠ (seedInit c .h128s s0 b).w2

/-- R142: at 64 bits no two distinct inputs of 1 to 4 bytes have the same result, under the same seeds; at 32 bits no two
distinct ones of the same length. -/
def Obligations.ShortInputsDoNotCollide : Prop :=
  ∀ c : Cfg, c.wf = true → ∀ (x y : List Byte) (s0 s1 : Word), 1 ≤ x.length → x.length ≤ 4 → 1 ≤ y.length →
    y.length ≤ 4 →
    (∀ i, i = .h64 ∨ i = .h64s ∨ i = .h64ss → (closedHash c i x s0 s1).1 = (closedHash c i y s0 s1).1 → x = y) ∧
      (x.length = y.length → (closedHash c .h32 x s0 s1).1 = (closedHash c .h32 y s0 s1).1 → x = y)

/-- R159: with everything else fixed, the first and the fifth word of a block reach the new registers injectively. -/
def Obligations.BlockWordsReachTheRegisters : Prop :=
  ∀ c : Cfg, c.wf = true → ∀ (r : Quad Word) (m : List Word) (x y : Word), m.length = 8 →
    ((block64 c r (m.set 0 x)).w0 = (block64 c r (m.set 0 y)).w0 → x = y) ∧
      ((block64 c r (m.set 4 x)).w2 = (block64 c r (m.set 4 y)).w2 → x = y)

/-- R133, R54: the halves of a little-endian 64-bit word are the little-endian 32-bit words of the same bytes in address
order; and assembly places byte `k` in bits `8k+7 : 8k`. -/
def Obligations.AssemblyIsLittleEndian : Prop :=
  (∀ bs : List Byte, bs.length = 8 →
    lo32 (assemble bs) = lo32 (assemble (bs.take 4)) ∧ hi32 (assemble bs) = lo32 (assemble (bs.drop 4))) ∧
  (∀ (bs : List Byte) (k : Nat), bs.length ≤ 8 →
    (assemble bs).extractLsb' (8 * k) 8 = (bs[k]?).getD 0)

/-- R121, R124, R57, R58: the class boundaries, the fetches of each class, that none leaves the tail, and that together they
cover it. -/
def Obligations.TailFetchesCoverTheTail : Prop :=
  (∀ n, n ≤ 64 → tailPlan n =
    if n = 0 then [] else if n ≤ 4 then [(0, n)] else if n ≤ 8 then [(0, 4), (n - 4, 4)]
    else if n ≤ 16 then [(0, 8), (n - 8, 8)] else if n ≤ 32 then [(0, 8), (8, 8), (n - 16, 8), (n - 8, 8)]
    else [(0, 8), (8, 8), (16, 8), (24, 8), (n - 32, 8), (n - 24, 8), (n - 16, 8), (n - 8, 8)]) ∧
  (∀ n, n ≤ 64 → ∀ e ∈ tailPlan n, e.1 + e.2 ≤ n) ∧
  (∀ n, n ≤ 64 → ∀ k, k < n → ∃ e ∈ tailPlan n, e.1 ≤ k ∧ k < e.1 + e.2)

/-- R126 to R132: the branch of each length class at 64 bits. -/
def Obligations.WideBranchOfEachClass : Prop :=
  ∀ (c : Cfg) (g : List Word) (n : Nat) (p q : Word), n ≤ 64 →
    let lm := c.k2 + 2 * BitVec.ofNat 64 n
    let first := wmp64 c (p + lm) q (wordAt g 0) (wordAt g 1) (wordAt g 2) (wordAt g 3)
    branch64 c g n p q =
      if n = 0 then (mix64 c (p + c.k1), q)
      else if n ≤ 4 then (mix64 c (p ^^^ (wordAt g 0 + (BitVec.ofNat 64 n <<< 32))), q)
      else if n ≤ 8 then wmp64 c p q (wordAt g 0) lm (wordAt g 1) c.k0
      else if n ≤ 16 then wmp64 c p q (wordAt g 0) lm (wordAt g 1) c.k1
      else if n ≤ 32 then first
      else wmp64 c (mix64 c first.2) first.1 (wordAt g 4) (wordAt g 5) (wordAt g 6) (wordAt g 7)

/-- R134 to R140: the branch of each length class at 32 bits; `h` is `Split(g)`. -/
def Obligations.NarrowBranchOfEachClass : Prop :=
  ∀ (c : Cfg) (g : List Word) (n : Nat) (p q : Half), n ≤ 64 →
    let lm : Half := c.j2 + 2 * BitVec.ofNat 32 n
    let h := halfAt (split g)
    let b1 := wmp32 c (p + lm) q (h 0) (h 1) (h 2) (h 3)
    let b2 := wmp32 c (mix32 c b1.2) b1.1 (h 4) (h 5) (h 6) (h 7)
    let b3 := wmp32 c (mix32 c b2.2) b2.1 (h 8) (h 9) (h 10) (h 11)
    branch32 c g n p q =
      if n = 0 then (mix32 c (p + c.j1), q)
      else if n ≤ 4 then (mix32 c ((p + lm) ^^^ lo32 (wordAt g 0)), q)
      else if n ≤ 8 then wmp32 c p q (lo32 (wordAt g 0)) lm (lo32 (wordAt g 1)) c.j0
      else if n ≤ 16 then b1
      else if n ≤ 32 then b2
      else wmp32 c (mix32 c b3.2) b3.1 (h 12) (h 13) (h 14) (h 15)
end

