-- ==== Sys2Proof/Laws/Memory.lean ====
section
/-! SUPPORT. The buffer memory's canonical form is kept by every change; the read-after-change laws; and what a byte read, a
sequence of byte reads and a list of fetches come to (spec 20_memory.md R51, R52, R54). -/

namespace Sys2Proof.Machine

variable {α : Type}

/-! ### Association lists -/

@[simp] theorem assocFind_nil (a : Nat) : assocFind a ([] : List (Nat × α)) = none := rfl

theorem assocFind_cons (a k : Nat) (v : α) (l : List (Nat × α)) :
    assocFind a ((k, v) :: l) = if k = a then some v else assocFind a l := rfl

/-- An address below every key is not listed. -/
theorem assocFind_of_lt (a : Nat) (l : List (Nat × α)) (h : ∀ e ∈ l, a < e.1) : assocFind a l = none := by
  induction l with
  | nil => rfl
  | cons e l ih =>
    obtain ⟨k, v⟩ := e
    have hk : a < k := h (k, v) (by simp)
    rw [assocFind_cons, if_neg (by omega)]
    exact ih fun e he => h e (by simp [he])

theorem assocWf_cons (k : Nat) (v : α) (l : List (Nat × α)) :
    assocWf ((k, v) :: l) = true ↔ k < 2 ^ 64 ∧ (∀ e ∈ l, k < e.1) ∧ assocWf l = true := by
  simp [assocWf, and_assoc]

theorem assocFind_insert_same (a : Nat) (v : α) (l : List (Nat × α)) : assocFind a (assocInsert a v l) = some v := by
  induction l with
  | nil => simp [assocInsert, assocFind_cons]
  | cons e l ih =>
    obtain ⟨k, w⟩ := e
    simp only [assocInsert]
    split
    · simp [assocFind_cons]
    · split
      · simp [assocFind_cons]
      · rw [assocFind_cons, if_neg (by omega), ih]

theorem assocFind_insert_other (a b : Nat) (v : α) (l : List (Nat × α)) (h : b ≠ a) :
    assocFind b (assocInsert a v l) = assocFind b l := by
  induction l with
  | nil => simp [assocInsert, assocFind_cons, h.symm]
  | cons e l ih =>
    obtain ⟨k, w⟩ := e
    simp only [assocInsert]
    split
    · rw [assocFind_cons, if_neg h.symm]
    · split
      · rename_i _ hak
        subst hak
        rw [assocFind_cons, assocFind_cons, if_neg h.symm, if_neg h.symm]
      · rw [assocFind_cons, assocFind_cons, ih]

theorem assocFind_erase_same (a : Nat) (l : List (Nat × α)) (h : assocWf l = true) :
    assocFind a (assocErase a l) = none := by
  induction l with
  | nil => rfl
  | cons e l ih =>
    obtain ⟨k, w⟩ := e
    obtain ⟨_, hlt, hwf⟩ := (assocWf_cons k w l).1 h
    simp only [assocErase]
    split
    · rename_i hk
      exact assocFind_of_lt a l fun e he => hk ▸ hlt e he
    · rename_i hk
      rw [assocFind_cons, if_neg hk, ih hwf]

theorem assocFind_erase_other (a b : Nat) (l : List (Nat × α)) (h : b ≠ a) :
    assocFind b (assocErase a l) = assocFind b l := by
  induction l with
  | nil => rfl
  | cons e l ih =>
    obtain ⟨k, w⟩ := e
    simp only [assocErase]
    split
    · rename_i hk
      rw [assocFind_cons, if_neg (by omega)]
    · rw [assocFind_cons, assocFind_cons, ih]

theorem mem_assocInsert (a : Nat) (v : α) (l : List (Nat × α)) (e : Nat × α) (h : e ∈ assocInsert a v l) :
    e = (a, v) ∨ e ∈ l := by
  induction l with
  | nil => simpa [assocInsert] using h
  | cons x l ih =>
    obtain ⟨k, w⟩ := x
    simp only [assocInsert] at h
    split at h
    · simpa using h
    · split at h
      · simp only [List.mem_cons] at h ⊢
        exact h.imp_right .inr
      · simp only [List.mem_cons] at h ⊢
        rcases h with h | h
        · exact .inr (.inl h)
        · exact (ih h).imp_right .inr

theorem mem_assocErase (a : Nat) (l : List (Nat × α)) (e : Nat × α) (h : e ∈ assocErase a l) : e ∈ l := by
  induction l with
  | nil => exact h
  | cons x l ih =>
    obtain ⟨k, w⟩ := x
    simp only [assocErase] at h
    split at h
    · exact List.mem_cons_of_mem _ h
    · simp only [List.mem_cons] at h ⊢
      exact h.imp_right ih

theorem assocInsert_wf (a : Nat) (v : α) (l : List (Nat × α)) (ha : a < 2 ^ 64) (h : assocWf l = true) :
    assocWf (assocInsert a v l) = true := by
  induction l with
  | nil => exact (assocWf_cons a v []).2 ⟨ha, by simp, rfl⟩
  | cons x l ih =>
    obtain ⟨k, w⟩ := x
    obtain ⟨hk, hlt, hwf⟩ := (assocWf_cons k w l).1 h
    simp only [assocInsert]
    split
    · rename_i hak
      refine (assocWf_cons a v _).2 ⟨ha, fun e he => ?_, h⟩
      rcases List.mem_cons.1 he with rfl | he
      · exact hak
      · exact Nat.lt_trans hak (hlt e he)
    · split
      · rename_i _ hak
        exact (assocWf_cons a v _).2 ⟨ha, fun e he => hak ▸ hlt e he, hwf⟩
      · rename_i h1 h2
        refine (assocWf_cons k w _).2 ⟨hk, fun e he => ?_, ih hwf⟩
        rcases mem_assocInsert a v l e he with rfl | he
        · show k < a
          omega
        · exact hlt e he

theorem assocErase_wf (a : Nat) (l : List (Nat × α)) (h : assocWf l = true) : assocWf (assocErase a l) = true := by
  induction l with
  | nil => rfl
  | cons x l ih =>
    obtain ⟨k, w⟩ := x
    obtain ⟨hk, hlt, hwf⟩ := (assocWf_cons k w l).1 h
    simp only [assocErase]
    split
    · exact hwf
    · exact (assocWf_cons k w _).2 ⟨hk, fun e he => hlt e (mem_assocErase a l e he), ih hwf⟩

/-! ### The buffer memory -/

/-- Every change from outside keeps the canonical form. -/
theorem BufMem.change_wf (m : BufMem) (e : EnvChange) (h : m.wf = true) : (m.change e).wf = true := by
  obtain ⟨hc, hd⟩ : assocWf m.cells = true ∧ assocWf m.conduct = true := by simpa [BufMem.wf] using h
  cases e with
  | setByte a b => simp [BufMem.wf, BufMem.change, assocInsert_wf _ _ _ a.isLt hc, hd]
  | refuse a => simp [BufMem.wf, BufMem.change, assocErase_wf _ _ hc, hd]
  | setConduct a c =>
    cases c with
    | none => simp [BufMem.wf, BufMem.change, assocErase_wf _ _ hd, hc]
    | some k => simp [BufMem.wf, BufMem.change, assocInsert_wf _ _ _ a.isLt hd, hc]

/-- The buffer memory after reset has the canonical form. -/
theorem reset_mem_wf : State.reset.mem.wf = true := rfl

/-- An address without a conduct of its own answers with its byte or is refused. -/
theorem BufMem.answer_plain (m : BufMem) (slot a : Nat) (h : assocFind a m.conduct = none) :
    m.answer slot a = match assocFind a m.cells with
      | some b => .byte b
      | none => .refused := by
  cases hc : assocFind a m.cells <;> simp [BufMem.answer, h, hc]

/-- A byte written at a plain address is the byte read there. -/
theorem BufMem.answer_setByte_same (m : BufMem) (slot : Nat) (a : Word) (b : Byte)
    (h : assocFind a.toNat m.conduct = none) : (m.change (.setByte a b)).answer slot a.toNat = .byte b := by
  simp [BufMem.answer, BufMem.change, h, assocFind_insert_same]

/-- A byte written elsewhere is not seen. -/
theorem BufMem.answer_setByte_other (m : BufMem) (slot x : Nat) (a : Word) (b : Byte) (h : x ≠ a.toNat) :
    (m.change (.setByte a b)).answer slot x = m.answer slot x := by
  simp [BufMem.answer, BufMem.change, assocFind_insert_other _ _ _ _ h]

/-! ### Byte reads -/

/-- What one byte read comes to. -/
theorem readByte_cases (m : BufMem) (slot a : Nat) :
    (a < 2 ^ 64 ∧ ∃ b, m.answer slot a = .byte b ∧ readByte m slot a = .ok b) ∨
      (a < 2 ^ 64 ∧ m.answer slot a = .refused ∧ readByte m slot a = .refused a) ∨
      (a < 2 ^ 64 ∧ m.answer slot a = .silent ∧ readByte m slot a = .silent) ∨
      (2 ^ 64 ≤ a ∧ readByte m slot a = .beyond a) := by
  unfold readByte
  by_cases h : a < 2 ^ 64
  · rw [if_pos h]
    cases hm : m.answer slot a with
    | byte b => exact .inl ⟨h, b, rfl, rfl⟩
    | refused => exact .inr (.inl ⟨h, rfl, rfl⟩)
    | silent => exact .inr (.inr (.inl ⟨h, rfl, rfl⟩))
  · rw [if_neg h]
    exact .inr (.inr (.inr ⟨by omega, rfl⟩))

@[simp] theorem andThen_ok {β : Type} (v : α) (f : α → Reading β) : (Reading.ok v).andThen f = f v := rfl
@[simp] theorem andThen_refused {β : Type} (a : Nat) (f : α → Reading β) :
    (Reading.refused a).andThen f = .refused a := rfl
@[simp] theorem andThen_silent {β : Type} (f : α → Reading β) : (Reading.silent).andThen f = .silent := rfl
@[simp] theorem andThen_beyond {β : Type} (a : Nat) (f : α → Reading β) :
    (Reading.beyond a).andThen f = .beyond a := rfl

/-- A reading after another gives a value only if both do. -/
theorem andThen_eq_ok {β : Type} {r : Reading α} {f : α → Reading β} {w : β} (h : r.andThen f = .ok w) :
    ∃ v, r = .ok v ∧ f v = .ok w := by
  cases r with
  | ok v => exact ⟨v, rfl, h⟩
  | refused a => simp at h
  | silent => simp at h
  | beyond a => simp at h

theorem memRead_zero (m : BufMem) (slot addr : Nat) : memRead m slot addr 0 = .ok [] := rfl

theorem memRead_succ (m : BufMem) (slot addr n : Nat) :
    memRead m slot addr (n + 1) = (readByte m slot addr).andThen fun b =>
      (memRead m (slot + 1) (addr + 1) n).andThen fun bs => .ok (b :: bs) := rfl

/-- `MemRead` of bytes that the memory holds returns them (R52). -/
theorem memRead_bytesAt (m : BufMem) (bs : List Byte) (slot addr : Nat) (hb : bytesAt m addr bs)
    (hlt : addr + bs.length ≤ 2 ^ 64) : memRead m slot addr bs.length = .ok bs := by
  induction bs generalizing slot addr with
  | nil => rfl
  | cons b bs ih =>
    have h0 : readByte m slot addr = .ok b := by
      have := hb 0 b rfl slot
      simp only [List.length_cons] at hlt
      rw [Nat.add_zero] at this
      simp only [readByte, this]
      rw [if_pos (by omega)]
    have ht : bytesAt m (addr + 1) bs := fun k c hk sl => by
      have := hb (k + 1) c (by simpa using hk) sl
      rwa [show addr + (k + 1) = addr + 1 + k by omega] at this
    rw [List.length_cons, memRead_succ, h0, andThen_ok,
      ih (slot + 1) (addr + 1) ht (by simp only [List.length_cons] at hlt; omega)]
    rfl

/-- A part of a held byte list is held at its own address. -/
theorem bytesAt_slice (m : BufMem) (addr off n : Nat) (bs : List Byte) (h : bytesAt m addr bs) :
    bytesAt m (addr + off) ((bs.drop off).take n) := fun k b hk slot => by
  have hk' : bs[off + k]? = some b := by
    rw [List.getElem?_take] at hk
    split at hk
    · simpa using hk
    · simp at hk
  have := h (off + k) b hk' slot
  rwa [show addr + (off + k) = addr + off + k by omega] at this

/-- A fetch inside held bytes returns their little-endian assembly (R54). -/
theorem fetchWord_bytesAt (m : BufMem) (bs : List Byte) (slot addr off n : Nat) (hb : bytesAt m addr bs)
    (hin : off + n ≤ bs.length) (hlt : addr + bs.length ≤ 2 ^ 64) :
    fetchWord m slot (addr + off) n = .ok (assemble ((bs.drop off).take n)) := by
  have hl : ((bs.drop off).take n).length = n := by simp; omega
  have := memRead_bytesAt m ((bs.drop off).take n) slot (addr + off) (bytesAt_slice m addr off n bs hb) (by omega)
  rw [hl] at this
  rw [fetchWord, this, andThen_ok]

/-- A list of fetches inside held bytes returns the words of the closed form (R187). -/
theorem fetchPlan_bytesAt (m : BufMem) (bs : List Byte) (plan : List (Nat × Nat)) (slot addr : Nat)
    (hb : bytesAt m addr bs) (hin : ∀ e ∈ plan, e.1 + e.2 ≤ bs.length) (hlt : addr + bs.length ≤ 2 ^ 64) :
    fetchPlan m slot addr plan = .ok (planWords bs plan) := by
  induction plan generalizing slot with
  | nil => rfl
  | cons e plan ih =>
    obtain ⟨off, n⟩ := e
    rw [fetchPlan, fetchWord_bytesAt m bs slot addr off n hb (hin (off, n) (by simp)) hlt, andThen_ok,
      ih (slot + n) (fun e he => hin e (by simp [he]))]
    rfl

end Sys2Proof.Machine
end

