-- ==== Sys2Proof/Laws/Operands.lean ====
section
/-! SUPPORT. The operands of a command: the wires computed from `BUF_LEN`, and the bounds of every fetch (spec
41_length_dispatch.md R122 to R124, 42_chunked_absorber.md R151). -/

namespace Sys2Proof.Machine

/-- `NBLK = floor(BUF_LEN / 64)` (R151). -/
theorem nblkOf_toNat (len : Word) : (nblkOf len).toNat = len.toNat / 64 := by
  have := len.isLt
  simp only [nblkOf, BitVec.extractLsb'_toNat, Nat.shiftRight_eq_div_pow]
  omega

/-- `BUF_LEN[5:0] = BUF_LEN mod 64` (R13). -/
theorem restOf_toNat (len : Word) : (restOf len).toNat = len.toNat % 64 := by
  simp only [restOf, BitVec.extractLsb'_toNat, Nat.shiftRight_eq_div_pow]
  omega

theorem isLong_iff (len : Word) : isLong len = true ↔ 64 < len.toNat := by simp [isLong]

theorem tailLength_short (len : Word) (h : len.toNat ≤ 64) : tailLength len = len.toNat := by
  simp [tailLength, isLong, Nat.not_lt.mpr h]

theorem tailLength_long (len : Word) (h : 64 < len.toNat) : tailLength len = len.toNat % 64 := by
  simp [tailLength, isLong, h, restOf_toNat]

theorem tailOffset_short (len : Word) (h : len.toNat ≤ 64) : tailOffset len = 0 := by
  simp [tailOffset, isLong, Nat.not_lt.mpr h]

theorem tailOffset_long (len : Word) (h : 64 < len.toNat) : tailOffset len = 64 * (len.toNat / 64) := by
  simp [tailOffset, isLong, h, nblkOf_toNat]

/-- A tail has at most 64 bytes, so `classOf` is never asked beyond its six classes (R122, R132). -/
theorem tailLength_le_64 (len : Word) : tailLength len ≤ 64 := by
  by_cases h : 64 < len.toNat
  · rw [tailLength_long len h]; omega
  · rw [tailLength_short len (by omega)]; omega

/-- The blocks and the tail together are the whole buffer (R122). -/
theorem tailOffset_add_tailLength (len : Word) : tailOffset len + tailLength len = len.toNat := by
  by_cases h : 64 < len.toNat
  · rw [tailOffset_long len h, tailLength_long len h]; omega
  · rw [tailOffset_short len (by omega), tailLength_short len (by omega)]; omega

/-- The low half of a zero-extended 32-bit value is that value (R23). -/
@[simp] theorem lo32_zext64 (v : Half) : lo32 (zext64 v) = v := by
  apply BitVec.eq_of_toNat_eq
  simp [lo32, zext64]
  omega

/-- The high half of a zero-extended 32-bit value is zero (R23). -/
@[simp] theorem hi32_zext64 (v : Half) : hi32 (zext64 v) = 0 := by
  simp only [hi32, zext64]
  ext j
  simp

/-- Every fetch of a tail lies inside it (R124, R57). -/
theorem tailPlan_in (n : Nat) (hn : n ≤ 64) : ∀ e ∈ tailPlan n, e.1 + e.2 ≤ n :=
  have h : ∀ n < 65, ∀ e ∈ tailPlan n, e.1 + e.2 ≤ n := by decide
  h n (by omega)

/-- Every fetch of a block lies inside it (R154). -/
theorem blockPlan_in : ∀ e ∈ blockPlan, e.1 + e.2 ≤ 64 := by decide

end Sys2Proof.Machine
end

