-- ==== Sys2Proof/Laws/PerInstr.lean ====
section
/-! SUPPORT. The per-instruction family: of each command, as syntax, that it is well formed, that its word has no reserved
bit and its own command number, and that the word decodes to it (spec 30_encoding.md R70, R72, R76). -/

namespace Sys2Proof.Laws

/-- The word of a command keeps the reserved bits zero, its number is at most 5, and it decodes to the command. -/
def EncodingFits.Statement (i : Instr) : Prop :=
  i.wellFormed = true ∧ rsvField (encode i) = 0 ∧ (opField (encode i)).toNat ≤ 5 ∧ decode (encode i) = .command i

theorem EncodingFits.h32 : EncodingFits.Statement .h32 := by unfold EncodingFits.Statement; decide
theorem EncodingFits.h64 : EncodingFits.Statement .h64 := by unfold EncodingFits.Statement; decide
theorem EncodingFits.h64s : EncodingFits.Statement .h64s := by unfold EncodingFits.Statement; decide
theorem EncodingFits.h64ss : EncodingFits.Statement .h64ss := by unfold EncodingFits.Statement; decide
theorem EncodingFits.h128 : EncodingFits.Statement .h128 := by unfold EncodingFits.Statement; decide
theorem EncodingFits.h128s : EncodingFits.Statement .h128s := by unfold EncodingFits.Statement; decide

end Sys2Proof.Laws
end

