-- ==== Sys2Proof/Laws/State.lean ====
section
/-! SUPPORT. For each named update of the state, what each field holds after it: one lemma for each field, true by
definition, so that no proof unfolds a record update. -/

namespace Sys2Proof.Machine

/-! ### Fault entry (R205) -/

@[simp] theorem faultEntry_acc (k : Cause) (f : Word) (s : State) : (faultEntry k f s).acc = ⟨0, 0, 0, 0⟩ := rfl
@[simp] theorem faultEntry_tail (k : Cause) (f : Word) (s : State) : (faultEntry k f s).tail = (0, 0) := rfl
@[simp] theorem faultEntry_blk (k : Cause) (f : Word) (s : State) : (faultEntry k f s).blk = 0 := rfl
@[simp] theorem faultEntry_phase (k : Cause) (f : Word) (s : State) : (faultEntry k f s).phase = .idle := rfl
@[simp] theorem faultEntry_cmd (k : Cause) (f : Word) (s : State) : (faultEntry k f s).cmd = s.cmd := rfl
@[simp] theorem faultEntry_bufBase (k : Cause) (f : Word) (s : State) : (faultEntry k f s).bufBase = s.bufBase := rfl
@[simp] theorem faultEntry_bufLen (k : Cause) (f : Word) (s : State) : (faultEntry k f s).bufLen = s.bufLen := rfl
@[simp] theorem faultEntry_bufCap (k : Cause) (f : Word) (s : State) : (faultEntry k f s).bufCap = s.bufCap := rfl
@[simp] theorem faultEntry_seed0 (k : Cause) (f : Word) (s : State) : (faultEntry k f s).seed0 = s.seed0 := rfl
@[simp] theorem faultEntry_seed1 (k : Cause) (f : Word) (s : State) : (faultEntry k f s).seed1 = s.seed1 := rfl
@[simp] theorem faultEntry_status (k : Cause) (f : Word) (s : State) : (faultEntry k f s).status = statusFaulted k s.status := rfl
@[simp] theorem faultEntry_result0 (k : Cause) (f : Word) (s : State) : (faultEntry k f s).result0 = 0 := rfl
@[simp] theorem faultEntry_result1 (k : Cause) (f : Word) (s : State) : (faultEntry k f s).result1 = 0 := rfl
@[simp] theorem faultEntry_faddr (k : Cause) (f : Word) (s : State) : (faultEntry k f s).faddr = f := rfl
@[simp] theorem faultEntry_mem (k : Cause) (f : Word) (s : State) : (faultEntry k f s).mem = s.mem := rfl
@[simp] theorem faultEntry_hosts (k : Cause) (f : Word) (s : State) : (faultEntry k f s).hosts = s.hosts := rfl
@[simp] theorem faultEntry_turns (k : Cause) (f : Word) (s : State) : (faultEntry k f s).turns = s.turns := rfl
@[simp] theorem faultEntry_draws (k : Cause) (f : Word) (s : State) : (faultEntry k f s).draws = s.draws := rfl

/-! ### Acceptance (R43) -/

@[simp] theorem acceptCommand_acc (v : Word) (s : State) : (acceptCommand v s).acc = s.acc := rfl
@[simp] theorem acceptCommand_tail (v : Word) (s : State) : (acceptCommand v s).tail = s.tail := rfl
@[simp] theorem acceptCommand_blk (v : Word) (s : State) : (acceptCommand v s).blk = s.blk := rfl
@[simp] theorem acceptCommand_phase (v : Word) (s : State) : (acceptCommand v s).phase = .check := rfl
@[simp] theorem acceptCommand_cmd (v : Word) (s : State) : (acceptCommand v s).cmd = v := rfl
@[simp] theorem acceptCommand_bufBase (v : Word) (s : State) : (acceptCommand v s).bufBase = s.bufBase := rfl
@[simp] theorem acceptCommand_bufLen (v : Word) (s : State) : (acceptCommand v s).bufLen = s.bufLen := rfl
@[simp] theorem acceptCommand_bufCap (v : Word) (s : State) : (acceptCommand v s).bufCap = s.bufCap := rfl
@[simp] theorem acceptCommand_seed0 (v : Word) (s : State) : (acceptCommand v s).seed0 = s.seed0 := rfl
@[simp] theorem acceptCommand_seed1 (v : Word) (s : State) : (acceptCommand v s).seed1 = s.seed1 := rfl
@[simp] theorem acceptCommand_status (v : Word) (s : State) : (acceptCommand v s).status = statusAccepted := rfl
@[simp] theorem acceptCommand_result0 (v : Word) (s : State) : (acceptCommand v s).result0 = 0 := rfl
@[simp] theorem acceptCommand_result1 (v : Word) (s : State) : (acceptCommand v s).result1 = 0 := rfl
@[simp] theorem acceptCommand_faddr (v : Word) (s : State) : (acceptCommand v s).faddr = 0 := rfl
@[simp] theorem acceptCommand_mem (v : Word) (s : State) : (acceptCommand v s).mem = s.mem := rfl
@[simp] theorem acceptCommand_hosts (v : Word) (s : State) : (acceptCommand v s).hosts = s.hosts := rfl
@[simp] theorem acceptCommand_turns (v : Word) (s : State) : (acceptCommand v s).turns = s.turns := rfl
@[simp] theorem acceptCommand_draws (v : Word) (s : State) : (acceptCommand v s).draws = s.draws := rfl

/-! ### The reset event (R230) -/

@[simp] theorem coreReset_acc (s : State) : (coreReset s).acc = State.reset.acc := rfl
@[simp] theorem coreReset_tail (s : State) : (coreReset s).tail = State.reset.tail := rfl
@[simp] theorem coreReset_blk (s : State) : (coreReset s).blk = State.reset.blk := rfl
@[simp] theorem coreReset_phase (s : State) : (coreReset s).phase = State.reset.phase := rfl
@[simp] theorem coreReset_cmd (s : State) : (coreReset s).cmd = State.reset.cmd := rfl
@[simp] theorem coreReset_bufBase (s : State) : (coreReset s).bufBase = State.reset.bufBase := rfl
@[simp] theorem coreReset_bufLen (s : State) : (coreReset s).bufLen = State.reset.bufLen := rfl
@[simp] theorem coreReset_bufCap (s : State) : (coreReset s).bufCap = State.reset.bufCap := rfl
@[simp] theorem coreReset_seed0 (s : State) : (coreReset s).seed0 = State.reset.seed0 := rfl
@[simp] theorem coreReset_seed1 (s : State) : (coreReset s).seed1 = State.reset.seed1 := rfl
@[simp] theorem coreReset_status (s : State) : (coreReset s).status = State.reset.status := rfl
@[simp] theorem coreReset_result0 (s : State) : (coreReset s).result0 = State.reset.result0 := rfl
@[simp] theorem coreReset_result1 (s : State) : (coreReset s).result1 = State.reset.result1 := rfl
@[simp] theorem coreReset_faddr (s : State) : (coreReset s).faddr = State.reset.faddr := rfl
@[simp] theorem coreReset_mem (s : State) : (coreReset s).mem = s.mem := rfl
@[simp] theorem coreReset_hosts (s : State) : (coreReset s).hosts = s.hosts := rfl
@[simp] theorem coreReset_turns (s : State) : (coreReset s).turns = s.turns := rfl
@[simp] theorem coreReset_draws (s : State) : (coreReset s).draws = s.draws := rfl

/-! ### A change of `PHASE` -/

@[simp] theorem State.enterPhase_acc (p : Phase) (s : State) : (s.enterPhase p).acc = s.acc := rfl
@[simp] theorem State.enterPhase_tail (p : Phase) (s : State) : (s.enterPhase p).tail = s.tail := rfl
@[simp] theorem State.enterPhase_blk (p : Phase) (s : State) : (s.enterPhase p).blk = s.blk := rfl
@[simp] theorem State.enterPhase_phase (p : Phase) (s : State) : (s.enterPhase p).phase = p := rfl
@[simp] theorem State.enterPhase_cmd (p : Phase) (s : State) : (s.enterPhase p).cmd = s.cmd := rfl
@[simp] theorem State.enterPhase_bufBase (p : Phase) (s : State) : (s.enterPhase p).bufBase = s.bufBase := rfl
@[simp] theorem State.enterPhase_bufLen (p : Phase) (s : State) : (s.enterPhase p).bufLen = s.bufLen := rfl
@[simp] theorem State.enterPhase_bufCap (p : Phase) (s : State) : (s.enterPhase p).bufCap = s.bufCap := rfl
@[simp] theorem State.enterPhase_seed0 (p : Phase) (s : State) : (s.enterPhase p).seed0 = s.seed0 := rfl
@[simp] theorem State.enterPhase_seed1 (p : Phase) (s : State) : (s.enterPhase p).seed1 = s.seed1 := rfl
@[simp] theorem State.enterPhase_status (p : Phase) (s : State) : (s.enterPhase p).status = s.status := rfl
@[simp] theorem State.enterPhase_result0 (p : Phase) (s : State) : (s.enterPhase p).result0 = s.result0 := rfl
@[simp] theorem State.enterPhase_result1 (p : Phase) (s : State) : (s.enterPhase p).result1 = s.result1 := rfl
@[simp] theorem State.enterPhase_faddr (p : Phase) (s : State) : (s.enterPhase p).faddr = s.faddr := rfl
@[simp] theorem State.enterPhase_mem (p : Phase) (s : State) : (s.enterPhase p).mem = s.mem := rfl
@[simp] theorem State.enterPhase_hosts (p : Phase) (s : State) : (s.enterPhase p).hosts = s.hosts := rfl
@[simp] theorem State.enterPhase_turns (p : Phase) (s : State) : (s.enterPhase p).turns = s.turns := rfl
@[simp] theorem State.enterPhase_draws (p : Phase) (s : State) : (s.enterPhase p).draws = s.draws := rfl

/-! ### The writes of INIT (R152) -/

@[simp] theorem State.initialised_acc (r : Quad Word) (s : State) : (s.initialised r).acc = r := rfl
@[simp] theorem State.initialised_tail (r : Quad Word) (s : State) : (s.initialised r).tail = s.tail := rfl
@[simp] theorem State.initialised_blk (r : Quad Word) (s : State) : (s.initialised r).blk = 0 := rfl
@[simp] theorem State.initialised_phase (r : Quad Word) (s : State) : (s.initialised r).phase = .absorb := rfl
@[simp] theorem State.initialised_cmd (r : Quad Word) (s : State) : (s.initialised r).cmd = s.cmd := rfl
@[simp] theorem State.initialised_bufBase (r : Quad Word) (s : State) : (s.initialised r).bufBase = s.bufBase := rfl
@[simp] theorem State.initialised_bufLen (r : Quad Word) (s : State) : (s.initialised r).bufLen = s.bufLen := rfl
@[simp] theorem State.initialised_bufCap (r : Quad Word) (s : State) : (s.initialised r).bufCap = s.bufCap := rfl
@[simp] theorem State.initialised_seed0 (r : Quad Word) (s : State) : (s.initialised r).seed0 = s.seed0 := rfl
@[simp] theorem State.initialised_seed1 (r : Quad Word) (s : State) : (s.initialised r).seed1 = s.seed1 := rfl
@[simp] theorem State.initialised_status (r : Quad Word) (s : State) : (s.initialised r).status = s.status := rfl
@[simp] theorem State.initialised_result0 (r : Quad Word) (s : State) : (s.initialised r).result0 = s.result0 := rfl
@[simp] theorem State.initialised_result1 (r : Quad Word) (s : State) : (s.initialised r).result1 = s.result1 := rfl
@[simp] theorem State.initialised_faddr (r : Quad Word) (s : State) : (s.initialised r).faddr = s.faddr := rfl
@[simp] theorem State.initialised_mem (r : Quad Word) (s : State) : (s.initialised r).mem = s.mem := rfl
@[simp] theorem State.initialised_hosts (r : Quad Word) (s : State) : (s.initialised r).hosts = s.hosts := rfl
@[simp] theorem State.initialised_turns (r : Quad Word) (s : State) : (s.initialised r).turns = s.turns := rfl
@[simp] theorem State.initialised_draws (r : Quad Word) (s : State) : (s.initialised r).draws = s.draws := rfl

/-! ### The writes of ABSORB (R154) -/

@[simp] theorem State.absorbed_acc (r : Quad Word) (p : Word × Word) (s : State) : (s.absorbed r p).acc = r := rfl
@[simp] theorem State.absorbed_tail (r : Quad Word) (p : Word × Word) (s : State) : (s.absorbed r p).tail = p := rfl
@[simp] theorem State.absorbed_blk (r : Quad Word) (p : Word × Word) (s : State) : (s.absorbed r p).blk = s.blk + 1 := rfl
@[simp] theorem State.absorbed_phase (r : Quad Word) (p : Word × Word) (s : State) : (s.absorbed r p).phase = if s.blk + 1 = nblkOf s.bufLen then .finish else .absorb := rfl
@[simp] theorem State.absorbed_cmd (r : Quad Word) (p : Word × Word) (s : State) : (s.absorbed r p).cmd = s.cmd := rfl
@[simp] theorem State.absorbed_bufBase (r : Quad Word) (p : Word × Word) (s : State) : (s.absorbed r p).bufBase = s.bufBase := rfl
@[simp] theorem State.absorbed_bufLen (r : Quad Word) (p : Word × Word) (s : State) : (s.absorbed r p).bufLen = s.bufLen := rfl
@[simp] theorem State.absorbed_bufCap (r : Quad Word) (p : Word × Word) (s : State) : (s.absorbed r p).bufCap = s.bufCap := rfl
@[simp] theorem State.absorbed_seed0 (r : Quad Word) (p : Word × Word) (s : State) : (s.absorbed r p).seed0 = s.seed0 := rfl
@[simp] theorem State.absorbed_seed1 (r : Quad Word) (p : Word × Word) (s : State) : (s.absorbed r p).seed1 = s.seed1 := rfl
@[simp] theorem State.absorbed_status (r : Quad Word) (p : Word × Word) (s : State) : (s.absorbed r p).status = s.status := rfl
@[simp] theorem State.absorbed_result0 (r : Quad Word) (p : Word × Word) (s : State) : (s.absorbed r p).result0 = s.result0 := rfl
@[simp] theorem State.absorbed_result1 (r : Quad Word) (p : Word × Word) (s : State) : (s.absorbed r p).result1 = s.result1 := rfl
@[simp] theorem State.absorbed_faddr (r : Quad Word) (p : Word × Word) (s : State) : (s.absorbed r p).faddr = s.faddr := rfl
@[simp] theorem State.absorbed_mem (r : Quad Word) (p : Word × Word) (s : State) : (s.absorbed r p).mem = s.mem := rfl
@[simp] theorem State.absorbed_hosts (r : Quad Word) (p : Word × Word) (s : State) : (s.absorbed r p).hosts = s.hosts := rfl
@[simp] theorem State.absorbed_turns (r : Quad Word) (p : Word × Word) (s : State) : (s.absorbed r p).turns = s.turns := rfl
@[simp] theorem State.absorbed_draws (r : Quad Word) (p : Word × Word) (s : State) : (s.absorbed r p).draws = s.draws := rfl

/-! ### The writes of FINISH (R174) -/

@[simp] theorem State.finished_acc (r : Word × Word) (s : State) : (s.finished r).acc = ⟨0, 0, 0, 0⟩ := rfl
@[simp] theorem State.finished_tail (r : Word × Word) (s : State) : (s.finished r).tail = (0, 0) := rfl
@[simp] theorem State.finished_blk (r : Word × Word) (s : State) : (s.finished r).blk = 0 := rfl
@[simp] theorem State.finished_phase (r : Word × Word) (s : State) : (s.finished r).phase = .idle := rfl
@[simp] theorem State.finished_cmd (r : Word × Word) (s : State) : (s.finished r).cmd = s.cmd := rfl
@[simp] theorem State.finished_bufBase (r : Word × Word) (s : State) : (s.finished r).bufBase = s.bufBase := rfl
@[simp] theorem State.finished_bufLen (r : Word × Word) (s : State) : (s.finished r).bufLen = s.bufLen := rfl
@[simp] theorem State.finished_bufCap (r : Word × Word) (s : State) : (s.finished r).bufCap = s.bufCap := rfl
@[simp] theorem State.finished_seed0 (r : Word × Word) (s : State) : (s.finished r).seed0 = s.seed0 := rfl
@[simp] theorem State.finished_seed1 (r : Word × Word) (s : State) : (s.finished r).seed1 = s.seed1 := rfl
@[simp] theorem State.finished_status (r : Word × Word) (s : State) : (s.finished r).status = statusFinished s.status := rfl
@[simp] theorem State.finished_result0 (r : Word × Word) (s : State) : (s.finished r).result0 = r.1 := rfl
@[simp] theorem State.finished_result1 (r : Word × Word) (s : State) : (s.finished r).result1 = r.2 := rfl
@[simp] theorem State.finished_faddr (r : Word × Word) (s : State) : (s.finished r).faddr = s.faddr := rfl
@[simp] theorem State.finished_mem (r : Word × Word) (s : State) : (s.finished r).mem = s.mem := rfl
@[simp] theorem State.finished_hosts (r : Word × Word) (s : State) : (s.finished r).hosts = s.hosts := rfl
@[simp] theorem State.finished_turns (r : Word × Word) (s : State) : (s.finished r).turns = s.turns := rfl
@[simp] theorem State.finished_draws (r : Word × Word) (s : State) : (s.finished r).draws = s.draws := rfl

/-! ### The counter of read slots -/

@[simp] theorem State.takeSlots_acc (s : State) : s.takeSlots.acc = s.acc := rfl
@[simp] theorem State.takeSlots_tail (s : State) : s.takeSlots.tail = s.tail := rfl
@[simp] theorem State.takeSlots_blk (s : State) : s.takeSlots.blk = s.blk := rfl
@[simp] theorem State.takeSlots_phase (s : State) : s.takeSlots.phase = s.phase := rfl
@[simp] theorem State.takeSlots_cmd (s : State) : s.takeSlots.cmd = s.cmd := rfl
@[simp] theorem State.takeSlots_bufBase (s : State) : s.takeSlots.bufBase = s.bufBase := rfl
@[simp] theorem State.takeSlots_bufLen (s : State) : s.takeSlots.bufLen = s.bufLen := rfl
@[simp] theorem State.takeSlots_bufCap (s : State) : s.takeSlots.bufCap = s.bufCap := rfl
@[simp] theorem State.takeSlots_seed0 (s : State) : s.takeSlots.seed0 = s.seed0 := rfl
@[simp] theorem State.takeSlots_seed1 (s : State) : s.takeSlots.seed1 = s.seed1 := rfl
@[simp] theorem State.takeSlots_status (s : State) : s.takeSlots.status = s.status := rfl
@[simp] theorem State.takeSlots_result0 (s : State) : s.takeSlots.result0 = s.result0 := rfl
@[simp] theorem State.takeSlots_result1 (s : State) : s.takeSlots.result1 = s.result1 := rfl
@[simp] theorem State.takeSlots_faddr (s : State) : s.takeSlots.faddr = s.faddr := rfl
@[simp] theorem State.takeSlots_mem (s : State) : s.takeSlots.mem = s.mem := rfl
@[simp] theorem State.takeSlots_hosts (s : State) : s.takeSlots.hosts = s.hosts := rfl
@[simp] theorem State.takeSlots_turns (s : State) : s.takeSlots.turns = s.turns := rfl
@[simp] theorem State.takeSlots_draws (s : State) : s.takeSlots.draws = s.draws + 64 := rfl

/-! ### A dropped write (R31) -/

@[simp] theorem State.overrun_acc (s : State) : s.overrun.acc = s.acc := rfl
@[simp] theorem State.overrun_tail (s : State) : s.overrun.tail = s.tail := rfl
@[simp] theorem State.overrun_blk (s : State) : s.overrun.blk = s.blk := rfl
@[simp] theorem State.overrun_phase (s : State) : s.overrun.phase = s.phase := rfl
@[simp] theorem State.overrun_cmd (s : State) : s.overrun.cmd = s.cmd := rfl
@[simp] theorem State.overrun_bufBase (s : State) : s.overrun.bufBase = s.bufBase := rfl
@[simp] theorem State.overrun_bufLen (s : State) : s.overrun.bufLen = s.bufLen := rfl
@[simp] theorem State.overrun_bufCap (s : State) : s.overrun.bufCap = s.bufCap := rfl
@[simp] theorem State.overrun_seed0 (s : State) : s.overrun.seed0 = s.seed0 := rfl
@[simp] theorem State.overrun_seed1 (s : State) : s.overrun.seed1 = s.seed1 := rfl
@[simp] theorem State.overrun_status (s : State) : s.overrun.status = statusOverrun s.status := rfl
@[simp] theorem State.overrun_result0 (s : State) : s.overrun.result0 = s.result0 := rfl
@[simp] theorem State.overrun_result1 (s : State) : s.overrun.result1 = s.result1 := rfl
@[simp] theorem State.overrun_faddr (s : State) : s.overrun.faddr = s.faddr := rfl
@[simp] theorem State.overrun_mem (s : State) : s.overrun.mem = s.mem := rfl
@[simp] theorem State.overrun_hosts (s : State) : s.overrun.hosts = s.hosts := rfl
@[simp] theorem State.overrun_turns (s : State) : s.overrun.turns = s.turns := rfl
@[simp] theorem State.overrun_draws (s : State) : s.overrun.draws = s.draws := rfl

/-! ### A move of a host -/

@[simp] theorem State.withHost_acc (k : Nat) (h : HostAgent) (s : State) : (s.withHost k h).acc = s.acc := rfl
@[simp] theorem State.withHost_tail (k : Nat) (h : HostAgent) (s : State) : (s.withHost k h).tail = s.tail := rfl
@[simp] theorem State.withHost_blk (k : Nat) (h : HostAgent) (s : State) : (s.withHost k h).blk = s.blk := rfl
@[simp] theorem State.withHost_phase (k : Nat) (h : HostAgent) (s : State) : (s.withHost k h).phase = s.phase := rfl
@[simp] theorem State.withHost_cmd (k : Nat) (h : HostAgent) (s : State) : (s.withHost k h).cmd = s.cmd := rfl
@[simp] theorem State.withHost_bufBase (k : Nat) (h : HostAgent) (s : State) : (s.withHost k h).bufBase = s.bufBase := rfl
@[simp] theorem State.withHost_bufLen (k : Nat) (h : HostAgent) (s : State) : (s.withHost k h).bufLen = s.bufLen := rfl
@[simp] theorem State.withHost_bufCap (k : Nat) (h : HostAgent) (s : State) : (s.withHost k h).bufCap = s.bufCap := rfl
@[simp] theorem State.withHost_seed0 (k : Nat) (h : HostAgent) (s : State) : (s.withHost k h).seed0 = s.seed0 := rfl
@[simp] theorem State.withHost_seed1 (k : Nat) (h : HostAgent) (s : State) : (s.withHost k h).seed1 = s.seed1 := rfl
@[simp] theorem State.withHost_status (k : Nat) (h : HostAgent) (s : State) : (s.withHost k h).status = s.status := rfl
@[simp] theorem State.withHost_result0 (k : Nat) (h : HostAgent) (s : State) : (s.withHost k h).result0 = s.result0 := rfl
@[simp] theorem State.withHost_result1 (k : Nat) (h : HostAgent) (s : State) : (s.withHost k h).result1 = s.result1 := rfl
@[simp] theorem State.withHost_faddr (k : Nat) (h : HostAgent) (s : State) : (s.withHost k h).faddr = s.faddr := rfl
@[simp] theorem State.withHost_mem (k : Nat) (h : HostAgent) (s : State) : (s.withHost k h).mem = s.mem := rfl
@[simp] theorem State.withHost_hosts (k : Nat) (h : HostAgent) (s : State) : (s.withHost k h).hosts = s.hosts.set k h := rfl
@[simp] theorem State.withHost_turns (k : Nat) (h : HostAgent) (s : State) : (s.withHost k h).turns = s.turns := rfl
@[simp] theorem State.withHost_draws (k : Nat) (h : HostAgent) (s : State) : (s.withHost k h).draws = s.draws := rfl

/-! ### A turn taken off -/

@[simp] theorem State.withTurns_acc (ts : List Turn) (s : State) : (s.withTurns ts).acc = s.acc := rfl
@[simp] theorem State.withTurns_tail (ts : List Turn) (s : State) : (s.withTurns ts).tail = s.tail := rfl
@[simp] theorem State.withTurns_blk (ts : List Turn) (s : State) : (s.withTurns ts).blk = s.blk := rfl
@[simp] theorem State.withTurns_phase (ts : List Turn) (s : State) : (s.withTurns ts).phase = s.phase := rfl
@[simp] theorem State.withTurns_cmd (ts : List Turn) (s : State) : (s.withTurns ts).cmd = s.cmd := rfl
@[simp] theorem State.withTurns_bufBase (ts : List Turn) (s : State) : (s.withTurns ts).bufBase = s.bufBase := rfl
@[simp] theorem State.withTurns_bufLen (ts : List Turn) (s : State) : (s.withTurns ts).bufLen = s.bufLen := rfl
@[simp] theorem State.withTurns_bufCap (ts : List Turn) (s : State) : (s.withTurns ts).bufCap = s.bufCap := rfl
@[simp] theorem State.withTurns_seed0 (ts : List Turn) (s : State) : (s.withTurns ts).seed0 = s.seed0 := rfl
@[simp] theorem State.withTurns_seed1 (ts : List Turn) (s : State) : (s.withTurns ts).seed1 = s.seed1 := rfl
@[simp] theorem State.withTurns_status (ts : List Turn) (s : State) : (s.withTurns ts).status = s.status := rfl
@[simp] theorem State.withTurns_result0 (ts : List Turn) (s : State) : (s.withTurns ts).result0 = s.result0 := rfl
@[simp] theorem State.withTurns_result1 (ts : List Turn) (s : State) : (s.withTurns ts).result1 = s.result1 := rfl
@[simp] theorem State.withTurns_faddr (ts : List Turn) (s : State) : (s.withTurns ts).faddr = s.faddr := rfl
@[simp] theorem State.withTurns_mem (ts : List Turn) (s : State) : (s.withTurns ts).mem = s.mem := rfl
@[simp] theorem State.withTurns_hosts (ts : List Turn) (s : State) : (s.withTurns ts).hosts = s.hosts := rfl
@[simp] theorem State.withTurns_turns (ts : List Turn) (s : State) : (s.withTurns ts).turns = ts := rfl
@[simp] theorem State.withTurns_draws (ts : List Turn) (s : State) : (s.withTurns ts).draws = s.draws := rfl

/-! ### A change of the buffer memory -/

@[simp] theorem State.withChange_acc (e : EnvChange) (s : State) : (s.withChange e).acc = s.acc := rfl
@[simp] theorem State.withChange_tail (e : EnvChange) (s : State) : (s.withChange e).tail = s.tail := rfl
@[simp] theorem State.withChange_blk (e : EnvChange) (s : State) : (s.withChange e).blk = s.blk := rfl
@[simp] theorem State.withChange_phase (e : EnvChange) (s : State) : (s.withChange e).phase = s.phase := rfl
@[simp] theorem State.withChange_cmd (e : EnvChange) (s : State) : (s.withChange e).cmd = s.cmd := rfl
@[simp] theorem State.withChange_bufBase (e : EnvChange) (s : State) : (s.withChange e).bufBase = s.bufBase := rfl
@[simp] theorem State.withChange_bufLen (e : EnvChange) (s : State) : (s.withChange e).bufLen = s.bufLen := rfl
@[simp] theorem State.withChange_bufCap (e : EnvChange) (s : State) : (s.withChange e).bufCap = s.bufCap := rfl
@[simp] theorem State.withChange_seed0 (e : EnvChange) (s : State) : (s.withChange e).seed0 = s.seed0 := rfl
@[simp] theorem State.withChange_seed1 (e : EnvChange) (s : State) : (s.withChange e).seed1 = s.seed1 := rfl
@[simp] theorem State.withChange_status (e : EnvChange) (s : State) : (s.withChange e).status = s.status := rfl
@[simp] theorem State.withChange_result0 (e : EnvChange) (s : State) : (s.withChange e).result0 = s.result0 := rfl
@[simp] theorem State.withChange_result1 (e : EnvChange) (s : State) : (s.withChange e).result1 = s.result1 := rfl
@[simp] theorem State.withChange_faddr (e : EnvChange) (s : State) : (s.withChange e).faddr = s.faddr := rfl
@[simp] theorem State.withChange_mem (e : EnvChange) (s : State) : (s.withChange e).mem = s.mem.change e := rfl
@[simp] theorem State.withChange_hosts (e : EnvChange) (s : State) : (s.withChange e).hosts = s.hosts := rfl
@[simp] theorem State.withChange_turns (e : EnvChange) (s : State) : (s.withChange e).turns = s.turns := rfl
@[simp] theorem State.withChange_draws (e : EnvChange) (s : State) : (s.withChange e).draws = s.draws := rfl

end Sys2Proof.Machine
end

