-- ==== Sys2Proof/Laws/Status.lean ====
section
/-! SUPPORT. What each update of `STATUS` does to each of its fields (spec 10_state.md R38). -/

namespace Sys2Proof.Machine

@[simp] theorem statusBusy_accepted : statusBusy statusAccepted = true := by decide
@[simp] theorem statusDone_accepted : statusDone statusAccepted = false := by decide
@[simp] theorem statusFault_accepted : statusFault statusAccepted = false := by decide
@[simp] theorem statusOvr_accepted : statusOvr statusAccepted = false := by decide
@[simp] theorem statusCause_accepted : statusCause statusAccepted = 0 := by decide
@[simp] theorem statusReserved_accepted : statusReserved statusAccepted = 0 := by decide

@[simp] theorem statusBusy_overrun (st : Word) : statusBusy (statusOverrun st) = statusBusy st := by
  simp [statusBusy, statusOverrun]
@[simp] theorem statusDone_overrun (st : Word) : statusDone (statusOverrun st) = statusDone st := by
  simp [statusDone, statusOverrun]
@[simp] theorem statusFault_overrun (st : Word) : statusFault (statusOverrun st) = statusFault st := by
  simp [statusFault, statusOverrun]
@[simp] theorem statusOvr_overrun (st : Word) : statusOvr (statusOverrun st) = true := by
  simp [statusOvr, statusOverrun]
@[simp] theorem statusCause_overrun (st : Word) : statusCause (statusOverrun st) = statusCause st := by
  simp only [statusCause, statusOverrun, BitVec.extractLsb'_or]
  have : (0x8#64).extractLsb' 4 4 = 0#4 := by decide
  rw [this]; simp
@[simp] theorem statusReserved_overrun (st : Word) : statusReserved (statusOverrun st) = statusReserved st := by
  simp only [statusReserved, statusOverrun, BitVec.extractLsb'_or]
  have : (0x8#64).extractLsb' 8 56 = 0#56 := by decide
  rw [this]; simp

@[simp] theorem statusBusy_finished (st : Word) : statusBusy (statusFinished st) = false := by
  simp [statusBusy, statusFinished]
@[simp] theorem statusDone_finished (st : Word) : statusDone (statusFinished st) = true := by
  simp [statusDone, statusFinished]
@[simp] theorem statusFault_finished (st : Word) : statusFault (statusFinished st) = statusFault st := by
  simp [statusFault, statusFinished]
@[simp] theorem statusOvr_finished (st : Word) : statusOvr (statusFinished st) = statusOvr st := by
  simp [statusOvr, statusFinished]
@[simp] theorem statusCause_finished (st : Word) : statusCause (statusFinished st) = statusCause st := by
  simp only [statusCause, statusFinished, BitVec.extractLsb'_or, BitVec.extractLsb'_and]
  have h1 : (~~~0x1#64).extractLsb' 4 4 = BitVec.allOnes 4 := by decide
  have h2 : (0x2#64).extractLsb' 4 4 = 0#4 := by decide
  rw [h1, h2, BitVec.and_allOnes, BitVec.or_zero]
@[simp] theorem statusReserved_finished (st : Word) : statusReserved (statusFinished st) = statusReserved st := by
  simp only [statusReserved, statusFinished, BitVec.extractLsb'_or, BitVec.extractLsb'_and]
  have h1 : (~~~0x1#64).extractLsb' 8 56 = BitVec.allOnes 56 := by decide
  have h2 : (0x2#64).extractLsb' 8 56 = 0#56 := by decide
  rw [h1, h2, BitVec.and_allOnes, BitVec.or_zero]

@[simp] theorem statusBusy_faulted (k : Cause) (st : Word) : statusBusy (statusFaulted k st) = false := by
  simp [statusBusy, statusFaulted]
@[simp] theorem statusDone_faulted (k : Cause) (st : Word) : statusDone (statusFaulted k st) = false := by
  simp [statusDone, statusFaulted]
@[simp] theorem statusFault_faulted (k : Cause) (st : Word) : statusFault (statusFaulted k st) = true := by
  simp [statusFault, statusFaulted]
@[simp] theorem statusOvr_faulted (k : Cause) (st : Word) : statusOvr (statusFaulted k st) = statusOvr st := by
  simp [statusOvr, statusFaulted]
@[simp] theorem statusCause_faulted (k : Cause) (st : Word) : statusCause (statusFaulted k st) = causeCode k := by
  simp only [statusCause, statusFaulted, BitVec.extractLsb'_or, BitVec.extractLsb'_and]
  have h1 : (~~~0xf7#64).extractLsb' 4 4 = 0#4 := by decide
  have h2 : (0x4#64).extractLsb' 4 4 = 0#4 := by decide
  have h3 : ((causeCode k).setWidth 64 <<< 4).extractLsb' 4 4 = causeCode k := by cases k <;> decide
  rw [h1, h2, h3]; simp
@[simp] theorem statusReserved_faulted (k : Cause) (st : Word) :
    statusReserved (statusFaulted k st) = statusReserved st := by
  simp only [statusReserved, statusFaulted, BitVec.extractLsb'_or, BitVec.extractLsb'_and]
  have h1 : (~~~0xf7#64).extractLsb' 8 56 = BitVec.allOnes 56 := by decide
  have h2 : (0x4#64).extractLsb' 8 56 = 0#56 := by decide
  have h3 : ((causeCode k).setWidth 64 <<< 4).extractLsb' 8 56 = 0#56 := by cases k <;> decide
  rw [h1, h2, h3, BitVec.and_allOnes, BitVec.or_zero, BitVec.or_zero]

end Sys2Proof.Machine
end

