-- ==== Sys2Proof/Laws/Sequencer.lean ====
section
/-! SUPPORT. What each shared operation of the sequencer, the host port and the step can do, said once: later proofs cite
these lemmas and unfold none of the operations. -/

namespace Sys2Proof.Machine

/-! ### Runs -/

/-- The host's run of the machine is `runSteps`. -/
theorem core_run_eq (k : Nat) (s : State) : Host.Core.run Sys2Proof.core k s = runSteps k s := by
  induction k generalizing s with
  | zero => rfl
  | succ k ih =>
    cases hs : step s with
    | next t =>
      have hc : Sys2Proof.core.step s = .next t := hs
      simp only [Host.Core.run, hc, runSteps, hs]
      exact ih t
    | fault r =>
      have hc : Sys2Proof.core.step s = .fault r := hs
      simp only [Host.Core.run, hc, runSteps, hs]
      rfl
    | refused r =>
      have hc : Sys2Proof.core.step s = .refused r := hs
      simp only [Host.Core.run, hc, runSteps, hs]
      rfl

theorem runSteps_succ {k : Nat} {s t : State} (h : step s = .next t) : runSteps (k + 1) s = runSteps k t := by
  rw [runSteps, h]

/-- A run in two parts. -/
theorem runSteps_add {j k : Nat} {s t : State} (h : runSteps j s = .next t) : runSteps (j + k) s = runSteps k t := by
  induction j generalizing s with
  | zero =>
    have : s = t := by simpa [runSteps] using h
    rw [this, Nat.zero_add]
  | succ j ih =>
    rw [runSteps] at h
    rw [Nat.succ_add, runSteps]
    cases hs : step s with
    | next u => rw [hs] at h; exact ih h
    | fault r => rw [hs] at h; simp at h
    | refused r => rw [hs] at h; simp at h

/-! ### The reading steps -/

@[simp] theorem afterReads_ok (ws : List Word) (k : List Word → State → State) (s : State) :
    afterReads (.ok ws) k s = .next (k ws s.takeSlots) := rfl
@[simp] theorem afterReads_refused (a : Nat) (k : List Word → State → State) (s : State) :
    afterReads (.refused a) k s = .next (faultEntry .bufferAccess (BitVec.ofNat 64 a) s.takeSlots) := rfl
@[simp] theorem afterReads_silent (k : List Word → State → State) (s : State) :
    afterReads .silent k s = .next s := rfl
@[simp] theorem afterReads_beyond (a : Nat) (k : List Word → State → State) (s : State) :
    afterReads (.beyond a) k s = .fault (.addressBeyondSpace a) := rfl

/-- A reading step that goes on has read its words, or was refused a byte, or got no answer. -/
theorem afterReads_next {r : Reading (List Word)} {k : List Word → State → State} {s t : State}
    (h : afterReads r k s = .next t) :
    (∃ ws, r = .ok ws ∧ t = k ws s.takeSlots) ∨
      (∃ a, r = .refused a ∧ t = faultEntry .bufferAccess (BitVec.ofNat 64 a) s.takeSlots) ∨
      (r = .silent ∧ t = s) := by
  cases r with
  | ok ws => exact .inl ⟨ws, rfl, by simpa using h.symm⟩
  | refused a => exact .inr (.inl ⟨a, rfl, by simpa using h.symm⟩)
  | silent => exact .inr (.inr ⟨rfl, by simpa using h.symm⟩)
  | beyond a => simp at h

/-- A reading step never refuses, and it stops only at an address that does not exist. -/
theorem afterReads_stops (r : Reading (List Word)) (k : List Word → State → State) (s : State) :
    (∃ t, afterReads r k s = .next t) ∨
      ∃ a, r = .beyond a ∧ afterReads r k s = .fault (.addressBeyondSpace a) := by
  cases r with
  | ok ws => exact .inl ⟨_, rfl⟩
  | refused a => exact .inl ⟨_, rfl⟩
  | silent => exact .inl ⟨_, rfl⟩
  | beyond a => exact .inr ⟨a, rfl, rfl⟩

/-! ### CHECK -/

/-- What the operand tests of CHECK come to: the first that holds decides (R203, R206). -/
theorem checkOperands_cases (s : State) :
    ((s.bufLen ≠ 0 ∧ s.bufBase = 0) ∧ checkOperands s = faultEntry .nullBuffer 0 s) ∨
      ((s.bufLen = 0 ∨ s.bufBase ≠ 0) ∧ s.bufCap.toNat < s.bufLen.toNat ∧
        checkOperands s = faultEntry .lengthExceedsBuffer 0 s) ∨
      ((s.bufLen = 0 ∨ s.bufBase ≠ 0) ∧ s.bufLen.toNat ≤ s.bufCap.toNat ∧
        2 ^ 64 < s.bufBase.toNat + s.bufLen.toNat ∧ checkOperands s = faultEntry .addressWrap 0 s) ∨
      (s.operandsChecked ∧ checkOperands s = s.enterPhase (if isLong s.bufLen then .init else .finish)) := by
  by_cases h1 : s.bufLen ≠ 0 ∧ s.bufBase = 0
  · exact .inl ⟨h1, if_pos h1⟩
  · have h1' : s.bufLen = 0 ∨ s.bufBase ≠ 0 := by tauto
    by_cases h2 : s.bufCap.toNat < s.bufLen.toNat
    · exact .inr (.inl ⟨h1', h2, by rw [checkOperands, if_neg h1, if_pos h2]⟩)
    · by_cases h3 : 2 ^ 64 < s.bufBase.toNat + s.bufLen.toNat
      · exact .inr (.inr (.inl ⟨h1', by omega, h3, by rw [checkOperands, if_neg h1, if_neg h2, if_pos h3]⟩))
      · exact .inr (.inr (.inr ⟨⟨h1', by omega, by omega⟩,
          by rw [checkOperands, if_neg h1, if_neg h2, if_neg h3]⟩))

theorem checkStep_command {s : State} {i : Instr} (h : decode s.cmd = .command i) : checkStep s = checkOperands s := by
  rw [checkStep, h]

theorem checkStep_illegal {s : State} (h : decode s.cmd = .illegalCommand) :
    checkStep s = faultEntry .illegalCommand 0 s := by
  rw [checkStep, h]

/-! ### A command's step -/

theorem commandStep_idle {c : Cfg} {i : Instr} {s : State} (h : s.phase = .idle) : commandStep c i s = .next s := by
  rw [commandStep, h]
theorem commandStep_check {c : Cfg} {i : Instr} {s : State} (h : s.phase = .check) :
    commandStep c i s = .next (checkStep s) := by
  rw [commandStep, h]
theorem commandStep_init {c : Cfg} {i : Instr} {s : State} (h : s.phase = .init) :
    commandStep c i s = .next (initStep c i s) := by
  rw [commandStep, h]
theorem commandStep_absorb {c : Cfg} {i : Instr} {s : State} (h : s.phase = .absorb) :
    commandStep c i s = absorbStep c i s := by
  rw [commandStep, h]
theorem commandStep_finish {c : Cfg} {i : Instr} {s : State} (h : s.phase = .finish) :
    commandStep c i s = finishStep c i s := by
  rw [commandStep, h]

/-- Every command's meaning is the sequencer's step of that command (R27). -/
theorem exec_eq (i : Instr) (s : State) : exec i s = commandStep Config.cfg i s := by
  cases i <;> rfl

/-- Everything a command's step can do when it goes on: nothing in IDLE, CHECK, INIT, the writes of ABSORB or of FINISH, a
refused byte, or no answer. -/
theorem commandStep_next {c : Cfg} {i : Instr} {s t : State} (h : commandStep c i s = .next t) :
    (s.phase = .idle ∧ t = s) ∨
      (s.phase = .check ∧ t = checkStep s) ∨
      (s.phase = .init ∧ t = initStep c i s) ∨
      (s.phase = .absorb ∧ ∃ ws, fetchPlan s.mem s.draws (blockAddress s) blockPlan = .ok ws ∧
        t = absorbWords c i ws s.takeSlots) ∨
      (s.phase = .finish ∧
        ∃ ws, fetchPlan s.mem s.draws (tailAddress s) (tailPlan (tailLength s.bufLen)) = .ok ws ∧
          t = finishWords c i ws s.takeSlots) ∨
      ((s.phase = .absorb ∨ s.phase = .finish) ∧
        ∃ a, t = faultEntry .bufferAccess (BitVec.ofNat 64 a) s.takeSlots) ∨
      ((s.phase = .absorb ∨ s.phase = .finish) ∧ t = s) := by
  cases hp : s.phase with
  | idle => rw [commandStep_idle hp] at h; exact .inl ⟨rfl, by simpa using h.symm⟩
  | check => rw [commandStep_check hp] at h; exact .inr (.inl ⟨rfl, by simpa using h.symm⟩)
  | init => rw [commandStep_init hp] at h; exact .inr (.inr (.inl ⟨rfl, by simpa using h.symm⟩))
  | absorb =>
    rw [commandStep_absorb hp, absorbStep] at h
    rcases afterReads_next h with ⟨ws, hr, ht⟩ | ⟨a, -, ht⟩ | ⟨-, ht⟩
    · exact .inr (.inr (.inr (.inl ⟨rfl, ws, hr, ht⟩)))
    · exact .inr (.inr (.inr (.inr (.inr (.inl ⟨.inl rfl, a, ht⟩)))))
    · exact .inr (.inr (.inr (.inr (.inr (.inr ⟨.inl rfl, ht⟩)))))
  | finish =>
    rw [commandStep_finish hp, finishStep] at h
    rcases afterReads_next h with ⟨ws, hr, ht⟩ | ⟨a, -, ht⟩ | ⟨-, ht⟩
    · exact .inr (.inr (.inr (.inr (.inl ⟨rfl, ws, hr, ht⟩))))
    · exact .inr (.inr (.inr (.inr (.inr (.inl ⟨.inr rfl, a, ht⟩)))))
    · exact .inr (.inr (.inr (.inr (.inr (.inr ⟨.inr rfl, ht⟩)))))

/-! ### The host port -/

theorem hostWrite_ignored {n : Nat} (h : 6 ≤ n) (v : Word) (s : State) : hostWrite n v s = s := by
  rw [hostWrite, if_pos h]

theorem hostWrite_busy {n : Nat} {s : State} (h : n ≤ 5) (hb : statusBusy s.status = true) (v : Word) :
    hostWrite n v s = s.overrun := by
  rw [hostWrite, if_neg (by omega), if_pos hb]

theorem hostWrite_accept {s : State} (hb : statusBusy s.status = false) (v : Word) :
    hostWrite 0 v s = acceptCommand v s := by
  rw [hostWrite, if_neg (by omega), hb, if_neg (by simp), if_pos rfl]

theorem hostWrite_operand {n : Nat} {s : State} (h1 : 1 ≤ n) (h5 : n ≤ 5) (hb : statusBusy s.status = false)
    (v : Word) : hostWrite n v s = writeOperand n v s := by
  rw [hostWrite, if_neg (by omega), hb, if_neg (by simp), if_neg (by omega)]

/-- What a host write can do: nothing, the note of a dropped write, an acceptance, or the store of an operand (R31). -/
theorem hostWrite_cases (n : Nat) (v : Word) (s : State) :
    hostWrite n v s = s ∨
      (n ≤ 5 ∧ statusBusy s.status = true ∧ hostWrite n v s = s.overrun) ∨
      (n = 0 ∧ statusBusy s.status = false ∧ hostWrite n v s = acceptCommand v s) ∨
      (1 ≤ n ∧ n ≤ 5 ∧ statusBusy s.status = false ∧ hostWrite n v s = writeOperand n v s) := by
  by_cases h6 : 6 ≤ n
  · exact .inl (hostWrite_ignored h6 v s)
  · cases hb : statusBusy s.status with
    | true => exact .inr (.inl ⟨by omega, rfl, hostWrite_busy (by omega) hb v⟩)
    | false =>
      by_cases h0 : n = 0
      · subst h0
        exact .inr (.inr (.inl ⟨rfl, rfl, hostWrite_accept hb v⟩))
      · exact .inr (.inr (.inr ⟨by omega, by omega, rfl, hostWrite_operand (by omega) (by omega) hb v⟩))

/-- The store of an operand register changes operand registers only. -/
theorem writeOperand_frame (n : Nat) (v : Word) (s : State) :
    (writeOperand n v s).acc = s.acc ∧ (writeOperand n v s).tail = s.tail ∧ (writeOperand n v s).blk = s.blk ∧
      (writeOperand n v s).phase = s.phase ∧ (writeOperand n v s).cmd = s.cmd ∧
      (writeOperand n v s).status = s.status ∧ (writeOperand n v s).result0 = s.result0 ∧
      (writeOperand n v s).result1 = s.result1 ∧ (writeOperand n v s).faddr = s.faddr ∧
      (writeOperand n v s).mem = s.mem ∧ (writeOperand n v s).hosts = s.hosts ∧
      (writeOperand n v s).turns = s.turns ∧ (writeOperand n v s).draws = s.draws := by
  unfold writeOperand
  split <;> exact ⟨rfl, rfl, rfl, rfl, rfl, rfl, rfl, rfl, rfl, rfl, rfl, rfl, rfl⟩

/-- What a host's turn can do: nothing, a write under the host's own new record, or a read that changes only its record. -/
theorem hostTurn_cases (k : Nat) (s : State) :
    hostTurn k s = s ∨ (∃ h n v, hostTurn k s = hostWrite n v (s.withHost k h)) ∨ ∃ h, hostTurn k s = s.withHost k h := by
  unfold hostTurn
  split
  · exact .inl rfl
  · split
    · exact .inl rfl
    · exact .inr (.inl ⟨_, _, _, rfl⟩)
    · exact .inr (.inr ⟨_, rfl⟩)
    · exact .inr (.inr ⟨_, rfl⟩)

/-! ### The step -/

theorem sequencerTurn_idle {s : State} (h : s.phase = .idle) : sequencerTurn s = .next s := by
  rw [sequencerTurn, h]

/-- The sequencer's turn runs the command that `CMD` holds. -/
theorem sequencerTurn_command {s : State} {i : Instr} (hi : decode s.cmd = .command i) :
    sequencerTurn s = exec i s := by
  unfold sequencerTurn
  cases h : s.phase with
  | idle => simp [exec_eq, commandStep_idle h]
  | check => simp [hi]
  | init => simp [hi]
  | absorb => simp [hi]
  | finish => simp [hi]

theorem sequencerTurn_illegal_check {s : State} (hd : decode s.cmd = .illegalCommand) (h : s.phase = .check) :
    sequencerTurn s = .next (faultEntry .illegalCommand 0 s) := by
  rw [sequencerTurn, h]
  simp [hd, checkStep_illegal hd]

theorem step_turn {s : State} {t : Turn} {ts : List Turn} (h : s.turns = t :: ts) :
    step s = takeTurn t (s.withTurns ts) := by
  rw [step, h]

theorem step_busy {s : State} (h : s.turns = []) (hp : s.phase ≠ .idle) : step s = sequencerTurn s := by
  rw [step, h]
  simp [defaultTurn, hp, takeTurn]

theorem step_idle {s : State} (h : s.turns = []) (hp : s.phase = .idle) :
    step s = match nextHost s with
      | some k => .next (hostTurn k s)
      | none => .next s := by
  rw [step, h]
  simp only [defaultTurn, hp, if_true]
  cases nextHost s <;> rfl

/-- What a step can do when it goes on: one move of one agent, or nothing. -/
theorem step_next {s t : State} (h : step s = .next t) :
    ∃ u, (u = s ∨ ∃ ts, u = s.withTurns ts) ∧
      (sequencerTurn u = .next t ∨ (∃ k, t = hostTurn k u) ∨ t = coreReset u ∨ (∃ e, t = u.withChange e) ∨ t = u) := by
  cases hts : s.turns with
  | cons x ts =>
    rw [step_turn hts] at h
    refine ⟨_, .inr ⟨ts, rfl⟩, ?_⟩
    cases x with
    | sequencer => exact .inl h
    | host k => exact .inr (.inl ⟨k, by simpa [takeTurn] using h.symm⟩)
    | reset => exact .inr (.inr (.inl (by simpa [takeTurn] using h.symm)))
    | environment e => exact .inr (.inr (.inr (.inl ⟨e, by simpa [takeTurn] using h.symm⟩)))
  | nil =>
    refine ⟨s, .inl rfl, ?_⟩
    by_cases hp : s.phase = .idle
    · rw [step_idle hts hp] at h
      cases hn : nextHost s with
      | none =>
        rw [hn] at h
        exact .inr (.inr (.inr (.inr (by simpa using h.symm))))
      | some k =>
        rw [hn] at h
        exact .inr (.inl ⟨k, by simpa using h.symm⟩)
    · rw [step_busy hts hp] at h
      exact .inl h

end Sys2Proof.Machine
end

