-- ==== Sys2Proof/Laws/Reads.lean ====
section
/-! SUPPORT. The reading steps by the addresses they read: a list of fetches comes to one sequence of byte reads in the
normative order (spec 20_memory.md R52, R58), whose outcome is said once here. -/

namespace Sys2Proof.Machine

/-- The bytes at the listed addresses, read in the order of the list; the first read has the number `slot`. -/
def readBytes (m : BufMem) (slot : Nat) : List Nat → Reading (List Byte)
  | [] => .ok []
  | a :: as => (readByte m slot a).andThen fun b => (readBytes m (slot + 1) as).andThen fun bs => .ok (b :: bs)

/-- The words of a list of fetches, from the bytes it reads one after the other. -/
def wordsOf : List (Nat × Nat) → List Byte → List Word
  | [], _ => []
  | (_, n) :: plan, bs => assemble (bs.take n) :: wordsOf plan (bs.drop n)

theorem andThen_assoc {α β γ : Type} (r : Reading α) (f : α → Reading β) (g : β → Reading γ) :
    (r.andThen f).andThen g = r.andThen fun x => (f x).andThen g := by
  cases r <;> rfl

theorem readBytes_append (m : BufMem) (slot : Nat) (as bs : List Nat) :
    readBytes m slot (as ++ bs) = (readBytes m slot as).andThen fun x =>
      (readBytes m (slot + as.length) bs).andThen fun y => .ok (x ++ y) := by
  induction as generalizing slot with
  | nil =>
    simp only [List.nil_append, readBytes, andThen_ok, List.length_nil, Nat.add_zero]
    cases readBytes m slot bs <;> rfl
  | cons a as ih =>
    simp only [List.cons_append, readBytes, ih, andThen_assoc, List.length_cons, andThen_ok]
    rw [show slot + 1 + as.length = slot + (as.length + 1) by omega]

/-- `MemRead` reads its addresses in rising order (R52). -/
theorem memRead_eq (m : BufMem) (slot addr n : Nat) :
    memRead m slot addr n = readBytes m slot ((List.range n).map (addr + ·)) := by
  induction n generalizing slot addr with
  | zero => rfl
  | succ n ih =>
    have hf : ((addr + ·) ∘ Nat.succ : Nat → Nat) = (addr + 1 + ·) := by
      funext k
      show addr + (k + 1) = addr + 1 + k
      omega
    rw [memRead_succ, ih, List.range_succ_eq_map, List.map_cons, List.map_map, hf, readBytes]
    rfl

theorem readBytes_length {m : BufMem} {slot : Nat} {as : List Nat} {bs : List Byte} (h : readBytes m slot as = .ok bs) :
    bs.length = as.length := by
  induction as generalizing slot bs with
  | nil =>
    have : [] = bs := by simpa [readBytes] using h
    rw [← this]; rfl
  | cons a as ih =>
    obtain ⟨b, -, h⟩ := andThen_eq_ok h
    obtain ⟨x, hx, h⟩ := andThen_eq_ok h
    have : b :: x = bs := by simpa using h
    rw [← this, List.length_cons, List.length_cons, ih hx]

theorem planAddresses_cons (base off n : Nat) (plan : List (Nat × Nat)) :
    planAddresses base ((off, n) :: plan) = (List.range n).map (base + off + ·) ++ planAddresses base plan := by
  simp [planAddresses]

/-- A list of fetches is one sequence of byte reads in the normative order, assembled into words. -/
theorem fetchPlan_eq (m : BufMem) (slot base : Nat) (plan : List (Nat × Nat)) :
    fetchPlan m slot base plan =
      (readBytes m slot (planAddresses base plan)).andThen fun bs => .ok (wordsOf plan bs) := by
  induction plan generalizing slot with
  | nil => rfl
  | cons e plan ih =>
    obtain ⟨off, n⟩ := e
    rw [fetchPlan, ih, fetchWord, memRead_eq, planAddresses_cons, readBytes_append]
    simp only [andThen_assoc, andThen_ok, List.length_map, List.length_range]
    cases h : readBytes m slot ((List.range n).map (base + off + ·)) with
    | ok bs =>
      have hl : bs.length = n := by simpa using readBytes_length h
      simp [wordsOf, ← hl]
    | refused a => rfl
    | silent => rfl
    | beyond a => rfl

/-- If every address is answered, the reads give bytes. -/
theorem readBytes_ok {m : BufMem} {slot : Nat} {as : List Nat} (h : ∀ a ∈ as, a < 2 ^ 64 ∧ m.answers a) :
    ∃ bs, readBytes m slot as = .ok bs := by
  induction as generalizing slot with
  | nil => exact ⟨_, rfl⟩
  | cons a as ih =>
    obtain ⟨h1, h2⟩ := h a (by simp)
    obtain ⟨b, hb⟩ := h2 slot
    obtain ⟨bs, hbs⟩ := ih (slot := slot + 1) fun x hx => h x (by simp [hx])
    exact ⟨b :: bs, by rw [readBytes]; simp only [readByte, if_pos h1, hb, andThen_ok, hbs]⟩

/-- The first address whose read gives no byte decides the whole sequence. -/
theorem readBytes_first {m : BufMem} {slot : Nat} {as : List Nat} (k a : Nat) (r : Reading Byte) (hk : as[k]? = some a)
    (hlt : ∀ b ∈ as, b < 2 ^ 64) (hb : ∀ j b, j < k → as[j]? = some b → m.answers b) (hr : ∀ s, readByte m s a = r)
    (hno : ∀ v, r ≠ .ok v) : readBytes m slot as = r.andThen fun _ => .silent := by
  induction as generalizing slot k with
  | nil => simp at hk
  | cons x as ih =>
    cases k with
    | zero =>
      obtain rfl : x = a := by simpa using hk
      rw [readBytes, hr]
      cases r <;> first | rfl | exact absurd rfl (hno _)
    | succ k =>
      obtain ⟨b, h0⟩ := hb 0 x (by omega) rfl slot
      have hx : readByte m slot x = .ok b := by simp only [readByte, if_pos (hlt x (by simp)), h0]
      rw [readBytes, hx, andThen_ok, ih k (by simpa using hk) (fun b hb => hlt b (by simp [hb]))
        (fun j b hj hg => hb (j + 1) b (by omega) (by simpa using hg))]
      cases r <;> rfl

/-- If no read goes unanswered, the sequence gives bytes or is refused one. -/
theorem readBytes_answered {m : BufMem} {slot : Nat} {as : List Nat}
    (h : ∀ a ∈ as, a < 2 ^ 64 ∧ ∀ s, m.answer s a ≠ .silent) :
    (∃ bs, readBytes m slot as = .ok bs) ∨ ∃ a, readBytes m slot as = .refused a := by
  induction as generalizing slot with
  | nil => exact .inl ⟨_, rfl⟩
  | cons a as ih =>
    obtain ⟨h1, h2⟩ := h a (by simp)
    rw [readBytes]
    simp only [readByte, if_pos h1]
    cases hh : m.answer slot a with
    | silent => exact absurd hh (h2 slot)
    | refused => exact .inr ⟨a, rfl⟩
    | byte b =>
      rcases ih (slot := slot + 1) fun x hx => h x (by simp [hx]) with ⟨bs, hb⟩ | ⟨c, hb⟩
      · exact .inl ⟨b :: bs, by simp [hb]⟩
      · exact .inr ⟨c, by simp [hb]⟩

/-- Reads of existing addresses never go beyond the address space. -/
theorem readBytes_not_beyond {m : BufMem} {slot : Nat} {as : List Nat} (h : ∀ a ∈ as, a < 2 ^ 64) (c : Nat) :
    readBytes m slot as ≠ .beyond c := by
  induction as generalizing slot with
  | nil => simp [readBytes]
  | cons x as ih =>
    rw [readBytes]
    rcases readByte_cases m slot x with ⟨_, b, _, e⟩ | ⟨_, _, e⟩ | ⟨_, _, e⟩ | ⟨hh, e⟩
    · have ih' := ih (slot := slot + 1) fun y hy => h y (by simp [hy])
      rw [e, andThen_ok]
      cases hr : readBytes m (slot + 1) as <;> simp [hr] at ih' ⊢
      exact ih'
    · rw [e]; simp
    · rw [e]; simp
    · have := h x (by simp)
      omega

/-- Memories that answer alike at the addresses read give the same reads. -/
theorem readBytes_congr {m m' : BufMem} {slot : Nat} {as : List Nat}
    (h : ∀ a ∈ as, ∀ s, m'.answer s a = m.answer s a) : readBytes m' slot as = readBytes m slot as := by
  induction as generalizing slot with
  | nil => rfl
  | cons a as ih =>
    rw [readBytes, readBytes, ih fun x hx => h x (by simp [hx])]
    simp only [readByte, h a (by simp)]

/-- The addresses of fetches that stay within `n` bytes of the base. -/
theorem mem_planAddresses {base a n : Nat} {plan : List (Nat × Nat)} (h : a ∈ planAddresses base plan)
    (hp : ∀ e ∈ plan, e.1 + e.2 ≤ n) : base ≤ a ∧ a < base + n := by
  simp only [planAddresses, List.mem_flatMap, List.mem_map, List.mem_range] at h
  obtain ⟨e, he, k, hk, rfl⟩ := h
  have := hp e he
  omega

/-- A reading step of a command, by the sequence of addresses it reads. -/
theorem commandStep_reading {c : Cfg} {i : Instr} {s : State} (h : s.phase = .absorb ∨ s.phase = .finish) :
    commandStep c i s = afterReads
      ((readBytes s.mem s.draws (readOrder s)).andThen fun bs =>
        .ok (wordsOf (if s.phase = .absorb then blockPlan else tailPlan (tailLength s.bufLen)) bs))
      (if s.phase = .absorb then absorbWords c i else finishWords c i) s := by
  rcases h with h | h
  · rw [commandStep_absorb h, absorbStep, fetchPlan_eq]
    simp [readOrder, h]
  · rw [commandStep_finish h, finishStep, fetchPlan_eq]
    simp [readOrder, h]

/-- Step FINISH over a readable tail (R174). -/
theorem finishStep_bytesAt {c : Cfg} {i : Instr} {s : State} {bs : List Byte} (hl : bs.length = tailLength s.bufLen)
    (ha : tailAddress s + bs.length ≤ 2 ^ 64) (hb : bytesAt s.mem (tailAddress s) bs) :
    finishStep c i s = .next (finishWords c i (planWords bs (tailPlan bs.length)) s.takeSlots) := by
  rw [finishStep, ← hl, fetchPlan_bytesAt s.mem bs _ s.draws _ hb
    (tailPlan_in bs.length (by rw [hl]; exact tailLength_le_64 _)) ha, afterReads_ok]

/-- Step ABSORB over a readable block (R154). -/
theorem absorbStep_bytesAt {c : Cfg} {i : Instr} {s : State} {bs : List Byte} (hl : bs.length = 64)
    (ha : blockAddress s + 64 ≤ 2 ^ 64) (hb : bytesAt s.mem (blockAddress s) bs) :
    absorbStep c i s = .next (absorbWords c i (planWords bs blockPlan) s.takeSlots) := by
  rw [absorbStep, fetchPlan_bytesAt s.mem bs _ s.draws _ hb (by rw [hl]; exact blockPlan_in) (by omega), afterReads_ok]

end Sys2Proof.Machine
end

