-- ==== Sys2Proof/Tests/Slice0.lean ====
section
/-! SUPPORT. Tests. First the checks on the configuration and the decoder, on words written out from spec 30_encoding.md R70
and R72; then at most two one-step tests for each command, whose expected values are those of spec 95_test_vectors.md; then,
for each statement of `Obligations` that has hypotheses, a state and operands that meet them. -/

namespace Sys2Proof.Tests

open Sys2Proof Sys2Proof.Machine

/-! ### Well-formedness: a record that breaks each constraint of R9 is refused -/

theorem test_default_cfg_wf : Cfg.default.wf = true := by decide
theorem test_even_k0 : ({ Cfg.default with k0 := 2 } : Cfg).wf = false := by decide
theorem test_even_k1 : ({ Cfg.default with k1 := 2 } : Cfg).wf = false := by decide
theorem test_even_k2 : ({ Cfg.default with k2 := 2 } : Cfg).wf = false := by decide
theorem test_even_kmul : ({ Cfg.default with kmul := 2 } : Cfg).wf = false := by decide
theorem test_even_j0 : ({ Cfg.default with j0 := 2 } : Cfg).wf = false := by decide
theorem test_even_j1 : ({ Cfg.default with j1 := 2 } : Cfg).wf = false := by decide
theorem test_even_jmul : ({ Cfg.default with jmul := 2 } : Cfg).wf = false := by decide
theorem test_sh64_zero : ({ Cfg.default with sh64 := 0 } : Cfg).wf = false := by decide
theorem test_sh64_over : ({ Cfg.default with sh64 := 64 } : Cfg).wf = false := by decide
theorem test_sh32_zero : ({ Cfg.default with sh32 := 0 } : Cfg).wf = false := by decide
theorem test_sh32_over : ({ Cfg.default with sh32 := 32 } : Cfg).wf = false := by decide
/-- `J2` is under no constraint (R9). -/
theorem test_even_j2 : ({ Cfg.default with j2 := 2 } : Cfg).wf = true := by decide

/-! ### Decoding: bits 63:3 are RSV, bits 2:0 are OP (R70); the numbers are those of R72 -/

theorem test_decode_h32 : decode 0b0000000000000000000000000000000000000000000000000000000000000000 = .command .h32 := by
  decide
theorem test_decode_h64 : decode 0b0000000000000000000000000000000000000000000000000000000000000001 = .command .h64 := by
  decide
theorem test_decode_h64s : decode 0b0000000000000000000000000000000000000000000000000000000000000010 = .command .h64s := by
  decide
theorem test_decode_h64ss : decode 0b0000000000000000000000000000000000000000000000000000000000000011 = .command .h64ss := by
  decide
theorem test_decode_h128 : decode 0b0000000000000000000000000000000000000000000000000000000000000100 = .command .h128 := by
  decide
theorem test_decode_h128s : decode 0b0000000000000000000000000000000000000000000000000000000000000101 = .command .h128s := by
  decide
/-- R75: the numbers 6 and 7 and any reserved bit make the word illegal. -/
theorem test_decode_illegal : decode 6 = .illegalCommand ∧ decode 7 = .illegalCommand ∧ decode 8 = .illegalCommand ∧
    decode 0x8000000000000000 = .illegalCommand ∧ decode 0x8000000000000001 = .illegalCommand := by decide
theorem test_table_word : decodeTableWord 64 5 = some .h128s ∧ decodeTableWord 64 6 = none ∧
    decodeTableWord 8 3 = some .h64ss := by decide

/-! ### Helpers -/

/-- The state after a step that goes on. -/
def after : Host.Outcome State Fault Refusal → Option State
  | .next t => some t
  | .fault _ => none
  | .refused _ => none

/-- Readable bytes from an address on. -/
def cellsFrom (addr : Nat) : List Byte → List Host.Cell
  | [] => []
  | b :: bs => (addr, b) :: cellsFrom (addr + 1) bs

/-- A buffer memory that holds the bytes from an address on and nothing else. -/
def memOf (addr : Nat) (bs : List Byte) : BufMem := ⟨cellsFrom addr bs, []⟩

theorem assocFind_cellsFrom_lt (a addr : Nat) (bs : List Byte) (h : a < addr) : assocFind a (cellsFrom addr bs) = none := by
  induction bs generalizing addr with
  | nil => rfl
  | cons b bs ih => rw [cellsFrom, assocFind_cons, if_neg (by omega), ih (addr + 1) (by omega)]

theorem assocFind_cellsFrom (addr k : Nat) (bs : List Byte) : assocFind (addr + k) (cellsFrom addr bs) = bs[k]? := by
  induction bs generalizing addr k with
  | nil => rfl
  | cons b bs ih =>
    cases k with
    | zero => simp [cellsFrom, assocFind_cons]
    | succ k =>
      rw [cellsFrom, assocFind_cons, if_neg (by omega), show addr + (k + 1) = addr + 1 + k by omega, ih]
      simp

/-- The helper's memory holds its bytes. -/
theorem bytesAt_memOf (addr : Nat) (bs : List Byte) : bytesAt (memOf addr bs) addr bs := by
  intro k b hk slot
  have : assocFind (addr + k) (memOf addr bs).cells = some b := (assocFind_cellsFrom addr k bs).trans hk
  simp [BufMem.answer, memOf] at this ⊢
  rw [this]

/-- The helper's memory refuses the address after its last byte. -/
theorem memOf_refuses (addr : Nat) (bs : List Byte) (slot : Nat) :
    (memOf addr bs).answer slot (addr + bs.length) = .refused := by
  have : assocFind (addr + bs.length) (memOf addr bs).cells = none :=
    (assocFind_cellsFrom addr bs.length bs).trans (by simp)
  simp [BufMem.answer, memOf] at this ⊢
  rw [this]

/-- The helper's memory answers inside its bytes. -/
theorem memOf_answers (addr x : Nat) (bs : List Byte) (h1 : addr ≤ x) (h2 : x < addr + bs.length) :
    (memOf addr bs).answers x := by
  intro slot
  have hx : x - addr < bs.length := by omega
  have := bytesAt_memOf addr bs (x - addr) bs[x - addr] (by simp [hx]) slot
  rw [show addr + (x - addr) = x by omega] at this
  exact ⟨_, this⟩

theorem mem_cellsFrom (addr : Nat) (bs : List Byte) (e : Host.Cell) (h : e ∈ cellsFrom addr bs) : addr ≤ e.1 := by
  induction bs generalizing addr with
  | nil => simp [cellsFrom] at h
  | cons b bs ih =>
    rcases List.mem_cons.1 h with rfl | h
    · exact Nat.le_refl _
    · exact Nat.le_of_succ_le (ih (addr + 1) h)

/-- The helper's memory has the canonical form. -/
theorem memOf_wf (addr : Nat) (bs : List Byte) (h : addr + bs.length ≤ 2 ^ 64) : (memOf addr bs).wf = true := by
  have hc : assocWf (cellsFrom addr bs) = true := by
    induction bs generalizing addr with
    | nil => rfl
    | cons b bs ih =>
      rw [List.length_cons] at h
      exact (assocWf_cons addr b _).2
        ⟨by omega, fun e he => Nat.lt_of_succ_le (mem_cellsFrom (addr + 1) bs e he), ih (addr + 1) (by omega)⟩
  simp [BufMem.wf, memOf, hc, assocWf]

/-- A running command over a buffer at `0x1000`. -/
def busy (i : Instr) (p : Phase) (bs : List Byte) : State :=
  { State.reset with
    phase := p
    cmd := encode i
    bufBase := 0x1000
    bufLen := BitVec.ofNat 64 bs.length
    bufCap := BitVec.ofNat 64 bs.length
    status := 1
    mem := memOf 0x1000 bs }

/-- "abracadabra". -/
def abra : List Byte := [0x61, 0x62, 0x72, 0x61, 0x63, 0x61, 0x64, 0x61, 0x62, 0x72, 0x61]

/-- `P(n)`: byte `k` is `k mod 256`. -/
def ramp (n : Nat) : List Byte := (List.range n).map (BitVec.ofNat 8)

/-- `RESULT0`, `RESULT1` and `STATUS` of a state. -/
def results (s : State) : Word × Word × Word := (s.result0, s.result1, s.status)

/-! ### The commands: the values of V-S2, V-S4, V-C5 and the traces V-A1, V-A2, V-A5 -/

theorem test_h32_abra : (after (exec .h32 (busy .h32 .finish abra))).map results = some (0x3b1ac854, 0, 2) := by decide
theorem test_h32_absorb : (after (exec .h32 { busy .h32 .absorb (ramp 65) with
      acc := ⟨0xcca8d74a, 0xcc9e2d51, 0xfdd35e75, 0x85ebca6b⟩ })).map (fun t => (t.acc, t.tail, t.blk, t.phase)) =
    some (⟨0x6e19dbe6, 0x5e93fea3, 0xb40a3285, 0xc716978a⟩, (0xeac501b1, 0x932978bf), 1, .finish) := by decide
theorem test_h64_abra : (after (exec .h64 (busy .h64 .finish abra))).map results = some (0xf599142635ed16f1, 0, 2) := by
  decide
theorem test_h64_absorb : (after (exec .h64 { busy .h64 .absorb (ramp 65) with
      acc := ⟨0x35c2d4765f208120, 0xc3a5c85c97cb3127, 0x2e73dc549108b2a2, 0x9ddfea08eb382d69⟩ })).map
        (fun t => (t.acc, t.tail, t.blk, t.phase)) =
    some (⟨0x329b725a637b106f, 0xfac64c0e26e4f1c7, 0x8f686c9b5caf45d8, 0x0fba75d931186f71⟩,
      (0x3292336bfdcffff3, 0xefecdb6c1b0c9b0a), 1, .finish) := by decide
theorem test_h64s_abra : (after (exec .h64s { busy .h64s .finish abra with seed0 := 1, seed1 := 7 })).map results =
    some (0xb74eaa066150c53f, 0, 2) := by decide
/-- The one seed for which `H64S` of the empty buffer is zero (V-E1). -/
theorem test_h64s_empty : (after (exec .h64s { busy .h64s .finish [] with seed0 := 0x394f46b7428d3f9d })).map results =
    some (0, 0, 2) := by decide
theorem test_h64ss_abra : (after (exec .h64ss { busy .h64ss .finish abra with seed1 := 1 })).map results =
    some (0x0b0dd7a76c525cc1, 0, 2) := by decide
theorem test_h64ss_other : (after (exec .h64ss { busy .h64ss .finish abra with seed0 := 1 })).map results =
    some (0x854c2d0bcc153256, 0, 2) := by decide
theorem test_h128_abra : (after (exec .h128 (busy .h128 .finish abra))).map results =
    some (0x6c6c5190ae669d10, 0xb009b3df8da574d2, 2) := by decide
/-- `R[0] = K0 + K2 + 2 * 65` and `R[2] = K1 ^ (K2 + 2 * 65)`, computed by hand from R152 and R171. -/
theorem test_h128_init : (after (exec .h128 (busy .h128 .init (ramp 65)))).map (fun t => (t.acc, t.blk, t.phase)) =
    some (⟨0x5e873297c75b71f8, 0x9ae16a3b2f90404f, 0x2e73dc549108b2a2, 0x9ddfea08eb382d69⟩, 0, .absorb) := by decide
theorem test_h128s_abra : (after (exec .h128s { busy .h128s .finish abra with seed1 := 1 })).map results =
    some (0x38034dd7e8082e7d, 0x79f30d4fdb245357, 2) := by decide
/-- FINISH of `P(200)` with seeds (1, 2), from the tail registers of the trace V-A5; only the tail's bytes are there. -/
theorem test_h128s_long : (after (exec .h128s { busy .h128s .finish [] with
      bufLen := 200, bufCap := 200, seed0 := 1, seed1 := 2, blk := 3
      tail := (0xa84569e74ab9b387, 0xed5519aa431a1c7f)
      mem := memOf 0x10c0 [0xc0, 0xc1, 0xc2, 0xc3, 0xc4, 0xc5, 0xc6, 0xc7] })).map results =
    some (0xaa364bf838dc9397, 0x8de79925c2942d54, 2) := by decide

/-! ### Witnesses: states and operands that meet the hypotheses of the statements together -/

/-- The busy states of this file meet the invariants. -/
theorem busy_inv (i : Instr) (p : Phase) (bs : List Byte) (hp : p = .check ∨ (p = .init ∧ 64 < bs.length) ∨
    (p = .absorb ∧ 64 < bs.length) ∨ (p = .finish ∧ bs.length ≤ 64)) (hl : bs.length ≤ 1000) :
    (busy i p bs).Inv := by
  have hlen : (busy i p bs).bufLen.toNat = bs.length := by
    show (BitVec.ofNat 64 bs.length).toNat = _
    simp only [BitVec.toNat_ofNat]
    omega
  have hcap : (busy i p bs).bufCap.toNat = bs.length := hlen
  have hbase : (busy i p bs).bufBase.toNat = 0x1000 := rfl
  have hdec : decode (busy i p bs).cmd = .command i := by
    show decode (encode i) = _
    cases i <;> decide
  have hst : (busy i p bs).status = 1 := rfl
  refine ⟨?_, by rw [hst]; decide, by rw [hst]; decide, by rw [hst]; decide, by rw [hst]; decide, ?_, ?_, ?_, ?_, ?_, ?_,
    ?_, ?_, ?_, ?_, ?_, ?_, memOf_wf 0x1000 bs (by omega)⟩
  · rw [hst]
    show statusBusy 1 = true ↔ p ≠ .idle
    rcases hp with rfl | ⟨rfl, _⟩ | ⟨rfl, _⟩ | ⟨rfl, _⟩ <;> decide
  · exact fun h => absurd rfl h
  · exact fun h => h.elim (absurd rfl) (absurd rfl)
  · exact fun _ => by show hi32 0 = 0; decide
  · exact fun h => absurd rfl h
  · exact fun _ => ⟨rfl, rfl, rfl⟩
  · exact fun _ _ => ⟨rfl, rfl, rfl⟩
  · intro h
    have hpa : p = .absorb := h
    rw [nblkOf_toNat, hlen]
    show 0 < _
    rcases hp with e | ⟨e, _⟩ | ⟨_, h64⟩ | ⟨e, _⟩
    · simp [hpa] at e
    · simp [hpa] at e
    · omega
    · simp [hpa] at e
  · intro h h64
    have hpf : p = .finish := h
    rw [hlen] at h64
    rcases hp with e | ⟨e, _⟩ | ⟨e, _⟩ | ⟨_, h'⟩
    · simp [hpf] at e
    · simp [hpf] at e
    · simp [hpf] at e
    · omega
  · intro h
    have hpi : p = .init ∨ p = .absorb := h
    rw [hlen]
    rcases hp with e | ⟨_, h'⟩ | ⟨_, h'⟩ | ⟨e, _⟩
    · simp [e] at hpi
    · exact h'
    · exact h'
    · simp [e] at hpi
  · exact fun _ => ⟨i, hdec⟩
  · exact fun _ => ⟨.inr fun e => absurd (congrArg BitVec.toNat e) (by rw [hbase]; decide), by rw [hlen, hcap],
      by rw [hlen, hbase]; omega⟩
  · have h0 : hi32 0 = 0 := by decide
    exact fun _ => ⟨h0, h0, h0, h0, h0, h0⟩

theorem witness_ResetEventClearsCore : { busy .h64 .absorb abra with turns := [.reset] }.turns = .reset :: [] := rfl

/-- A short and a long command at each phase meet the invariants, and their steps go on. -/
theorem witness_EveryStepKeepsTheInvariant : (busy .h32 .check abra).Inv ∧ (after (step (busy .h32 .check abra))).isSome ∧
    (busy .h64 .absorb (ramp 65)).Inv ∧ (after (step (busy .h64 .absorb (ramp 65)))).map (fun t => t.blk) = some 1 ∧
    (busy .h128 .finish abra).Inv ∧ (after (step (busy .h128 .finish abra))).isSome :=
  ⟨busy_inv _ _ _ (.inl rfl) (by decide), by decide,
    busy_inv _ _ _ (.inr (.inr (.inl ⟨rfl, by decide⟩))) (by decide),
    by decide,
    busy_inv _ _ _ (.inr (.inr (.inr ⟨rfl, by decide⟩))) (by decide), by decide⟩

theorem witness_NoStepStopsUnderTheInvariant : (busy .h128s .init (ramp 65)).Inv :=
  busy_inv _ _ _ (.inr (.inl ⟨rfl, by decide⟩)) (by decide)

theorem witness_StepRunsTheDecodedCommand : Instr.h64s.wellFormed = true ∧
    decode (busy .h64s .check abra).cmd = .command .h64s ∧ (busy .h64s .check abra).turns = [] ∧
    (busy .h64s .check abra).phase ≠ .idle ∧
    { busy .h64s .check abra with turns := [.sequencer, .reset] }.turns = .sequencer :: [.reset] := by decide

/-- The reserved bits at their lowest, and `OP` at 6. -/
theorem witness_IllegalWordFaultsInCheck :
    ({ busy .h64 .check abra with cmd := 8 }.phase = .check ∧ { busy .h64 .check abra with cmd := 8 }.turns = [] ∧
      rsvField 8 ≠ 0) ∧
    ({ busy .h64 .check abra with cmd := 6 }.phase = .check ∧ { busy .h64 .check abra with cmd := 6 }.turns = [] ∧
      5 < (opField 6).toNat ∧ { busy .h64 .check abra with cmd := 6 }.status = 0x1) ∧
    { busy .h64 .check abra with cmd := 8, turns := [.sequencer, .host 0] }.phase = .check ∧
    { busy .h64 .check abra with cmd := 8, turns := [.sequencer, .host 0] }.turns = .sequencer :: [.host 0] :=
  ⟨⟨rfl, rfl, by decide⟩, ⟨rfl, rfl, by decide, rfl⟩, rfl, rfl⟩

theorem witness_HostReadReturnsTheRegister :
    { busy .h64 .check abra with turns := [.host 1], hosts := [⟨[], []⟩, ⟨[.rd 2], []⟩] }.turns = .host 1 :: [] ∧
    { busy .h64 .check abra with turns := [.host 1], hosts := [⟨[], []⟩, ⟨[.rd 2], []⟩] }.hosts[1]? =
      some ⟨.rd 2 :: [], []⟩ := by decide

/-- The read-only numbers from 6, a write while busy to 5, an operand write to 1 and to 5 in IDLE, and the number 10. -/
theorem witness_HostWriteFollowsTheRules : 6 ≤ 6 ∧ (5 ≤ 5 ∧ statusBusy (busy .h64 .check abra).status = true) ∧
    (1 ≤ 1 ∧ 5 ≤ 5 ∧ statusBusy State.reset.status = false) ∧ 10 ≤ 10 := by decide

/-- IDLE after a completed `H64`. -/
def finished : State := { State.reset with cmd := 1, status := 2, result0 := 5 }

/-- A state in CHECK in which a host writes `SEED1` and `CMD`, and another agent a byte below the buffer, between the two steps
of a short command; one more turn is left for the host. -/
def meddled (i : Instr) (bs : List Byte) : State :=
  { busy i .check bs with
    hosts := [⟨[.wr 5 9, .wr 0 3, .rd 6, .rd 7], []⟩]
    turns := [.host 0, .sequencer, .environment (.setByte 0xfff 7), .host 0, .host 0, .sequencer, .host 0] }

/-- An acceptance, and a host's write to `SEED1` while a command runs. -/
theorem witness_CommandAcceptance : statusBusy finished.status = false ∧ finished.Inv ∧ 5 ≤ 5 ∧ 9 ≠ 6 ∧
    statusBusy (meddled .h64 abra).status = true ∧ (after (step (meddled .h64 abra))).isSome ∧
    ∀ ts, (meddled .h64 abra).turns ≠ .reset :: ts := by
  refine ⟨by decide, ?_, by decide, by decide, by decide, by decide, fun ts h => by simp [meddled] at h⟩
  constructor <;> simp [finished, State.reset, State.quiet, State.pastCheck, State.halfWidth] <;> decide

theorem witness_HostTurnPerformsTheStatement :
    { State.reset with turns := [.host 0], hosts := [⟨[.wr 1 7], []⟩] }.hosts[0]? = some ⟨.wr 1 7 :: [], []⟩ ∧
    { State.reset with turns := [.host 0], hosts := [⟨[.rd 8], []⟩] }.hosts[0]? = some ⟨.rd 8 :: [], []⟩ ∧
    { State.reset with turns := [.host 0], hosts := [⟨[.wait], []⟩] }.hosts[0]? = some ⟨.wait :: [], []⟩ ∧
    { State.reset with turns := [.host 0], hosts := [⟨[.wait], []⟩] }.turns = .host 0 :: [] := by decide

theorem witness_OverrunNeverChangesACommand : (after (exec .h64 (busy .h64 .finish abra))).isSome := by decide

theorem witness_PseudoInstructionIssuesItsCommand : State.reset.phase = .idle ∧ statusBusy State.reset.status = false ∧
    { State.reset with hosts := [⟨expandPseudo .h64ss 0x1000 11 11 1 2, []⟩] }.turns = [] ∧
    { State.reset with hosts := [⟨expandPseudo .h64ss 0x1000 11 11 1 2, []⟩] }.hosts =
      [⟨expandPseudo .h64ss 0x1000 11 11 1 2, []⟩] := by decide

theorem witness_IdleKeepsAllState : State.reset.phase = .idle ∧ State.reset.turns = [] ∧
    (∀ h ∈ State.reset.hosts, h.script = []) ∧
    { State.reset with turns := [.sequencer] }.turns = .sequencer :: [] := by decide

/-- The operands of a command in CHECK. -/
def checking (cw base len cap : Word) : State :=
  { busy .h64 .check [] with cmd := cw, bufBase := base, bufLen := len, bufCap := cap }

/-- What the CHECK step of `H64` comes to: the cause, 0 for none, and the next phase. -/
def checkResult (cw base len cap : Word) : Option (BitVec 4 × Phase) :=
  (after (exec .h64 (checking cw base len cap))).map fun t => (statusCause t.status, t.phase)

/-- R203 at its boundaries: the illegal words 6 and 8; then the null base with one byte; a length one over the capacity; a
sum one over 2^64, and one of exactly 2^64; the lengths 64 and 65; and the empty buffer at 0. -/
theorem witness_CheckStepDecides : (checking 6 0 1 0).phase = .check ∧ 5 < (opField 6).toNat ∧ rsvField 8 ≠ 0 ∧
    rsvField 5 = 0 ∧ (opField 5).toNat ≤ 5 ∧
    checkResult 6 0 1 0 = some (1, .idle) ∧ checkResult 8 0 1 0 = some (1, .idle) ∧
    checkResult 5 0 1 0 = some (2, .idle) ∧ checkResult 5 0x1000 12 11 = some (3, .idle) ∧
    checkResult 5 0xfffffffffffffffe 3 3 = some (4, .idle) ∧ checkResult 5 0xfffffffffffffffe 2 2 = some (0, .finish) ∧
    checkResult 5 0x1000 64 64 = some (0, .finish) ∧ checkResult 5 0x1000 65 65 = some (0, .init) ∧
    checkResult 5 0 0 0 = some (0, .finish) := by decide

/-- The buffer "abracadabra" whose byte 10, the last, is not readable: the reads 0 to 14 are answered, read 15 is not. -/
def torn : State := { busy .h64 .finish abra with mem := memOf 0x1000 (abra.take 10) }

/-- The first 15 reads of `torn` are answered. -/
theorem torn_answers (j b : Nat) (hj : j < 15) (h : (readOrder torn)[j]? = some b) : torn.mem.answers b := by
  have hall : ∀ j < 15, ((readOrder torn)[j]?.getD 0) < 0x1000 + 10 ∧ 0x1000 ≤ ((readOrder torn)[j]?.getD 0) := by decide
  have := hall j hj
  rw [h] at this
  exact memOf_answers 0x1000 b (abra.take 10) this.2 this.1

theorem witness_FirstRefusedByteFaults : (readOrder torn)[15]? = some 0x100a ∧ (∀ b ∈ readOrder torn, b < 2 ^ 64) ∧
    (∀ j b, j < 15 → (readOrder torn)[j]? = some b → torn.mem.answers b) ∧
    ∀ slot, torn.mem.answer slot 0x100a = .refused :=
  ⟨by decide, by decide, torn_answers, fun slot => memOf_refuses 0x1000 (abra.take 10) slot⟩

/-- As `torn`, with the last byte never answered. -/
def hung : State := { torn with mem := ⟨cellsFrom 0x1000 abra, [(0x100a, .silent)]⟩ }

theorem hung_answers (j b : Nat) (hj : j < 15) (h : (readOrder hung)[j]? = some b) : hung.mem.answers b := by
  have hall : ∀ j < 15, ((readOrder hung)[j]?.getD 0) < 0x1000 + 10 ∧ 0x1000 ≤ ((readOrder hung)[j]?.getD 0) := by decide
  have hb := hall j hj
  rw [h] at hb
  obtain ⟨h2, h1⟩ : b < 0x1000 + 10 ∧ 0x1000 ≤ b := hb
  intro slot
  obtain ⟨c, hc⟩ := memOf_answers 0x1000 b abra h1 (by show b < 0x1000 + 11; omega) slot
  refine ⟨c, ?_⟩
  have hf : assocFind b hung.mem.conduct = none := by
    show assocFind b [(0x100a, Conduct.silent)] = none
    rw [assocFind_cons, if_neg (by omega), assocFind_nil]
  rw [BufMem.answer_plain _ _ _ hf, ← hc, BufMem.answer_plain _ _ _ rfl]
  rfl

theorem witness_UnansweredReadStaysInTheStep : (readOrder hung)[15]? = some 0x100a ∧
    (∀ b ∈ readOrder hung, b < 2 ^ 64) ∧ (∀ j b, j < 15 → (readOrder hung)[j]? = some b → hung.mem.answers b) ∧
    ∀ slot, hung.mem.answer slot 0x100a = .silent :=
  ⟨by decide, by decide, hung_answers, fun _ => rfl⟩

theorem witness_ReadsStayInsideTheBuffer : (busy .h64 .finish abra).Inv ∧ 0x100a ∈ readOrder (busy .h64 .finish abra) :=
  ⟨busy_inv _ _ _ (.inr (.inr (.inr ⟨rfl, by decide⟩))) (by decide), by decide⟩

theorem witness_InitStepOfTheWideCommands : Instr.h128s ≠ .h32 ∧ (busy .h128s .init (ramp 65)).phase = .init := by decide

theorem witness_InitStepOfH32 : (busy .h32 .init (ramp 65)).phase = .init := rfl

/-- The first block of `P(65)`, for both widths. -/
theorem witness_AbsorbStep (i : Instr) : (busy i .absorb (ramp 65)).phase = .absorb ∧ ((ramp 65).take 64).length = 64 ∧
    (busy i .absorb (ramp 65)).bufBase.toNat + 64 * (busy i .absorb (ramp 65)).blk.toNat + 64 ≤ 2 ^ 64 ∧
    bytesAt (busy i .absorb (ramp 65)).mem
      ((busy i .absorb (ramp 65)).bufBase.toNat + 64 * (busy i .absorb (ramp 65)).blk.toNat) ((ramp 65).take 64) :=
  ⟨rfl, by decide, by cases i <;> decide,
    bytesAt_slice _ 0x1000 0 64 _ (bytesAt_memOf 0x1000 (ramp 65))⟩

theorem witness_AbsorbStepOfTheWideCommands : Instr.h64 ≠ .h32 ∧
    (busy .h64 .absorb (ramp 65)).phase = .absorb ∧ ((ramp 65).take 64).length = 64 ∧
    (busy .h64 .absorb (ramp 65)).bufBase.toNat + 64 * (busy .h64 .absorb (ramp 65)).blk.toNat + 64 ≤ 2 ^ 64 ∧
    bytesAt (busy .h64 .absorb (ramp 65)).mem
      ((busy .h64 .absorb (ramp 65)).bufBase.toNat + 64 * (busy .h64 .absorb (ramp 65)).blk.toNat) ((ramp 65).take 64) :=
  ⟨by decide, witness_AbsorbStep .h64⟩

theorem witness_NoCommandWritesOutsideCore : (after (exec .h128s (busy .h128s .finish abra))).isSome ∧
    (after (step (busy .h64 .finish abra))).isSome ∧ ∀ e ts, (busy .h64 .finish abra).turns ≠ .environment e :: ts :=
  ⟨by decide, by decide, fun _ _ h => by simp [busy, State.reset] at h⟩

/-- A buffer of which every byte is being changed by another agent: the reads of ABSORB and of FINISH are answered. -/
theorem witness_UnsettledBytesRaiseNoFault :
    (∀ a ∈ readOrder { busy .h64 .finish abra with mem := ⟨[], (List.range 11).map fun k => (0x1000 + k, .unsettled)⟩ },
      a < 2 ^ 64 ∧
        ({ busy .h64 .finish abra with
          mem := ⟨[], (List.range 11).map fun k => (0x1000 + k, .unsettled)⟩ } : State).mem.answers a) ∧
    ∀ a ∈ readOrder (busy .h64 .absorb (ramp 65)), a < 2 ^ 64 ∧ (busy .h64 .absorb (ramp 65)).mem.answers a := by
  constructor
  · intro a ha
    have hf : ∀ a ∈ readOrder (busy .h64 .finish abra),
        a < 2 ^ 64 ∧ assocFind a ((List.range 11).map fun k => (0x1000 + k, Conduct.unsettled)) = some .unsettled := by
      decide
    obtain ⟨h1, h2⟩ := hf a ha
    exact ⟨h1, fun slot => ⟨Config.draw slot, by rw [BufMem.answer, h2]⟩⟩
  · intro a ha
    have hf : ∀ a ∈ readOrder (busy .h64 .absorb (ramp 65)), 0x1000 ≤ a ∧ a < 0x1000 + 65 := by decide
    obtain ⟨h1, h2⟩ := hf a ha
    exact ⟨by omega, memOf_answers 0x1000 a (ramp 65) h1 h2⟩

/-- The hypotheses that the six completion statements share. -/
def tailReadable (s : State) (bs : List Byte) : Prop :=
  s.phase = .finish ∧
    bs.length = (if s.bufLen.toNat ≤ 64 then s.bufLen.toNat else s.bufLen.toNat % 64) ∧
    s.bufBase.toNat + (if s.bufLen.toNat ≤ 64 then 0 else 64 * (s.bufLen.toNat / 64)) + bs.length ≤ 2 ^ 64 ∧
    bytesAt s.mem (s.bufBase.toNat + (if s.bufLen.toNat ≤ 64 then 0 else 64 * (s.bufLen.toNat / 64))) bs

/-- The hypotheses of `H32Completes`, `H64Completes`, `H64SCompletes`, `H64SSCompletes`, `H128Completes` and
`H128SCompletes`: the empty buffer, 64 bytes, and the tail of 65 bytes. -/
theorem witness_completes (i : Instr) : tailReadable (busy i .finish []) [] ∧
    tailReadable (busy i .finish (ramp 64)) (ramp 64) ∧
    tailReadable (busy i .finish (ramp 65)) (((ramp 65).drop 64).take 1) := by
  refine ⟨⟨rfl, ?_, ?_, fun _ _ h => by simp at h⟩, ⟨rfl, ?_, ?_, bytesAt_memOf 0x1000 (ramp 64)⟩,
    ⟨rfl, ?_, ?_, ?_⟩⟩
  rotate_right
  · have ha : (busy i .finish (ramp 65)).bufBase.toNat + (if (busy i .finish (ramp 65)).bufLen.toNat ≤ 64 then 0
        else 64 * ((busy i .finish (ramp 65)).bufLen.toNat / 64)) = 0x1000 + 64 := by cases i <;> decide
    rw [ha]
    exact bytesAt_slice _ 0x1000 64 1 _ (bytesAt_memOf 0x1000 (ramp 65))
  all_goals cases i <;> decide

theorem witness_H64SSIsH64SAndOneMorePass : (busy .h64ss .init (ramp 65)).phase ≠ .finish ∧
    (busy .h64ss .finish abra).phase = .finish ∧
    (after (exec .h64s (busy .h64ss .finish abra))).map (fun t => (t.phase, statusDone t.status)) =
      some (.idle, true) := by decide

theorem witness_H128SHalvesFollowTheirOwnSeeds : (busy .h128s .finish abra).phase = .finish ∧
    (busy .h128s .finish abra).bufLen.toNat ≤ 64 ∧ (after (exec .h128s (busy .h128s .finish abra))).isSome ∧
    (after (exec .h128s { busy .h128s .finish abra with seed1 := 5 })).isSome ∧
    (after (exec .h128s { busy .h128s .finish abra with seed0 := 5 })).isSome := by decide

theorem witness_UnusedSeedsAreIgnored : ∀ i, i = .h32 ∨ i = .h64 ∨ i = .h128 ∨ i = .h64s →
    (after (exec i (busy i .finish abra))).isSome := by
  rintro i (rfl | rfl | rfl | rfl) <;> decide

/-- The byte at `0x100b`, the first outside the buffer, differs between the two memories. -/
theorem witness_OnlyTheBufferMatters : (busy .h64 .finish abra).Inv ∧
    (∀ slot a, (busy .h64 .finish abra).bufBase.toNat ≤ a →
      a < (busy .h64 .finish abra).bufBase.toNat + (busy .h64 .finish abra).bufLen.toNat →
      (memOf 0x1000 (abra ++ [7])).answer slot a = (busy .h64 .finish abra).mem.answer slot a) ∧
    (after (exec .h64 (busy .h64 .finish abra))).isSome := by
  refine ⟨busy_inv _ _ _ (.inr (.inr (.inr ⟨rfl, by decide⟩))) (by decide), ?_, by decide⟩
  intro slot a h1 h2
  have h1 : 0x1000 ≤ a := h1
  have h2 : a < 0x1000 + 11 := h2
  have hk : (abra ++ [7])[a - 0x1000]? = abra[a - 0x1000]? := by
    rw [List.getElem?_append_left (by show a - 0x1000 < 11; omega)]
  rw [show a = 0x1000 + (a - 0x1000) by omega, BufMem.answer_plain _ _ _ rfl, BufMem.answer_plain _ _ _ rfl]
  have e1 : assocFind (0x1000 + (a - 0x1000)) (memOf 0x1000 (abra ++ [7])).cells = _ := assocFind_cellsFrom _ _ _
  have e2 : assocFind (0x1000 + (a - 0x1000)) (busy .h64 .finish abra).mem.cells = _ := assocFind_cellsFrom _ _ _
  rw [e1, e2, hk]

/-- A state in CHECK over its readable buffer. -/
theorem checking_accepted (i : Instr) (bs : List Byte) (hl : bs.length ≤ 1000) :
    (busy i .check bs).accepted i ∧ (busy i .check bs).bufferIs bs := by
  have hlen : (busy i .check bs).bufLen.toNat = bs.length := by
    show (BitVec.ofNat 64 bs.length).toNat = _
    simp only [BitVec.toNat_ofNat]
    omega
  have hbase : (busy i .check bs).bufBase.toNat = 0x1000 := rfl
  have hcap : (busy i .check bs).bufCap.toNat = bs.length := hlen
  refine ⟨⟨rfl, rfl, by show decode (encode i) = _; cases i <;> decide,
    .inr fun e => absurd (congrArg BitVec.toNat e) (by rw [hbase]; decide), by rw [hlen, hcap], by rw [hlen, hbase]; omega⟩,
    hlen.symm, by rw [hlen, hbase]; omega, bytesAt_memOf 0x1000 bs⟩

/-- 64 bytes, the longest short buffer, and 65. -/
theorem witness_WholeCommandLeavesTheHash (i : Instr) :
    ((busy i .check (ramp 64)).accepted i ∧ (busy i .check (ramp 64)).bufferIs (ramp 64)) ∧
      (busy i .check (ramp 65)).accepted i ∧ (busy i .check (ramp 65)).bufferIs (ramp 65) :=
  ⟨checking_accepted i _ (by decide), checking_accepted i _ (by decide)⟩

/-- `meddled` starts a command whose operands pass, over a readable buffer. -/
theorem meddled_underway (i : Instr) (bs : List Byte) (hl : bs.length ≤ 1000) : (meddled i bs).underway i bs where
  phase := rfl
  busy := by show statusBusy 0x1 = true; decide
  legal := (checking_accepted i bs hl).1.2.2.1
  checked := (checking_accepted i bs hl).1.2.2.2
  buffer := (checking_accepted i bs hl).2
  noReset := by simp [meddled]
  outside := by
    intro e he
    have he : e = .setByte 0xfff 7 := by simpa [meddled] using he
    subst he
    exact .inl (by show 0xfff < 0x1000; decide)

/-- A short and a long command; the run of the short one ends with the host's turn between its two steps. -/
theorem witness_InterleavedCommandLeavesTheHash : (meddled .h128s abra).underway .h128s abra ∧
    (meddled .h32 (ramp 65)).underway .h32 (ramp 65) ∧
    (after (runSteps 6 (meddled .h128s abra))).map (fun t => (t.status, t.turns, t.result0, t.seed1)) =
      some (0xa, [.host 0], (closedHash Config.cfg .h128s abra 0 0).1, 0) :=
  ⟨meddled_underway .h128s abra (by decide), meddled_underway .h32 (ramp 65) (by decide), by decide⟩

/-- The clause of interleaved runs. -/
theorem witness_ResultDependsOnBytesAndSeedsOnly_interleaved : (meddled .h64s abra).underway .h64s abra ∧
    { meddled .h64s abra with bufCap := 12, turns := [] }.underway .h64s abra ∧
    { meddled .h64s abra with bufCap := 12, turns := [] }.seed0 = (meddled .h64s abra).seed0 := by
  refine ⟨meddled_underway .h64s abra (by decide), ?_, rfl⟩
  obtain ⟨hp, hb, hd, ⟨h1, _, h3⟩, hbuf, _, _⟩ := meddled_underway .h64s abra (by decide)
  exact ⟨hp, hb, hd, ⟨h1, by decide, h3⟩, hbuf, by simp, fun e he => by simp at he⟩

theorem witness_ResultDependsOnBytesAndSeedsOnly :
    ((busy .h64 .check abra).accepted .h64 ∧ (busy .h64 .check abra).bufferIs abra) ∧
    (busy .h64 .check abra).seed0 = State.reset.seed0 ∧ (busy .h64 .check abra).seed1 = State.reset.seed1 ∧
    (after (runSteps (stepCount (busy .h64 .check abra).bufLen) (busy .h64 .check abra))).isSome :=
  ⟨checking_accepted .h64 abra (by decide), rfl, rfl, by decide⟩

theorem witness_ZeroLengthCommandCompletes : (checking 3 0 0 0).phase = .check ∧ (checking 3 0 0 0).turns = [] ∧
    decode (checking 3 0 0 0).cmd = .command .h64ss ∧ (checking 3 0 0 0).bufLen = 0 := by decide

/-- A long command whose last byte of block 0 is refused, and one whose first tail byte is. -/
theorem witness_BufferFaultStepCount :
    ({ busy .h64 .check (ramp 65) with mem := memOf 0x1000 (ramp 63) }.accepted .h64 ∧
      64 < (busy .h64 .check (ramp 65)).bufLen.toNat ∧ 0 < (busy .h64 .check (ramp 65)).bufLen.toNat / 64 ∧
      (∀ x, 0x1000 ≤ x → x < 0x1000 + 64 * 0 + 63 → (memOf 0x1000 (ramp 63)).answers x) ∧
      ∀ slot, (memOf 0x1000 (ramp 63)).answer slot (0x1000 + 64 * 0 + 63) = .refused) ∧
    ({ busy .h64 .check (ramp 65) with mem := memOf 0x1000 (ramp 64) }.accepted .h64 ∧
      tailAddress (busy .h64 .check (ramp 65)) = 0x1040 ∧
      planAddresses 0x1040 (tailPlan (tailLength (busy .h64 .check (ramp 65)).bufLen)) = [0x1040] ∧
      (∀ x, 0x1000 ≤ x → x < 0x1040 → (memOf 0x1000 (ramp 64)).answers x) ∧
      ∀ slot, (memOf 0x1000 (ramp 64)).answer slot 0x1040 = .refused) :=
  ⟨⟨(checking_accepted .h64 (ramp 65) (by decide)).1, by decide, by decide,
      fun x h1 h2 => memOf_answers 0x1000 x (ramp 63) h1 h2, fun slot => memOf_refuses 0x1000 (ramp 63) slot⟩,
    (checking_accepted .h64 (ramp 65) (by decide)).1, by decide, by decide,
      fun x h1 h2 => memOf_answers 0x1000 x (ramp 64) h1 h2, fun slot => memOf_refuses 0x1000 (ramp 64) slot⟩

theorem witness_EveryCommandEnds : (busy .h64 .check abra).Inv ∧ (busy .h64 .check abra).phase ≠ .idle ∧
    (busy .h64 .check abra).turns = [] ∧ ∀ a, 0x1000 ≤ a → a < 0x1000 + 11 →
      ∀ slot, (busy .h64 .check abra).mem.answer slot a ≠ .silent := by
  refine ⟨busy_inv _ _ _ (.inl rfl) (by decide), by decide, rfl, fun a h1 h2 slot => ?_⟩
  obtain ⟨b, hb⟩ := memOf_answers 0x1000 a abra h1 h2 slot
  have : (busy .h64 .check abra).mem.answer slot a = .byte b := hb
  simp [this]

/-- The state whose host will ask for `H128S` of "abracadabra". -/
def asking : State :=
  { State.reset with
    mem := memOf 0x1000 abra
    hosts := [⟨expandPseudo .h128s 0x1000 11 11 1 2 ++ [.wait, .rd 7, .rd 8], []⟩] }

theorem witness_ATransactionReturnsTheHash : asking.phase = .idle ∧ statusBusy asking.status = false ∧
    asking.turns = [] ∧ ((11 : Word) = 0 ∨ (0x1000 : Word) ≠ 0) ∧ (11 : Word).toNat ≤ (11 : Word).toNat ∧
    (0x1000 : Word).toNat + (11 : Word).toNat ≤ 2 ^ 64 ∧ abra.length = (11 : Word).toNat ∧
    bytesAt asking.mem (0x1000 : Word).toNat abra ∧
    asking.hosts = [⟨expandPseudo .h128s 0x1000 11 11 1 2 ++ [.wait, .rd 7, .rd 8], []⟩] :=
  ⟨rfl, by decide, rfl, by decide, by decide, by decide, by decide, bytesAt_memOf 0x1000 abra, rfl⟩

theorem witness_EnvironmentChangesOneAddress : (memOf 0x1000 abra).wf = true ∧ 0x1001 ≠ (0x1000 : Word).toNat := by decide

/-- `MixIsABijection`, `OutputStageIsBijectiveInEachWord`: the default record meets the constraints. -/
theorem witness_wellFormedCfg : Cfg.default.wf = true := by decide

theorem witness_SeededWordsDifferForDifferentSeeds : Cfg.default.wf = true ∧ (0 : Word) ≠ 1 := by decide

theorem witness_ShortInputsDoNotCollide : Cfg.default.wf = true ∧ 1 ≤ [(0 : Byte)].length ∧
    (ramp 4).length ≤ 4 ∧ (closedHash Cfg.default .h64 (ramp 4) 0 0).1 = (closedHash Cfg.default .h64 (ramp 4) 0 0).1 := by
  decide

theorem witness_BlockWordsReachTheRegisters : Cfg.default.wf = true ∧ ([1, 2, 3, 4, 5, 6, 7, 8] : List Word).length = 8 := by
  decide

theorem witness_AssemblyIsLittleEndian : (ramp 8).length = 8 ∧ (ramp 8).length ≤ 8 := by decide

theorem witness_RotateMovesEachBit : 0 < 64 ∧ 63 < 64 ∧ 31 < 32 := by decide

/-- `TailFetchesCoverTheTail`, `WideBranchOfEachClass`, `NarrowBranchOfEachClass`: each class at its ends. -/
theorem witness_classes : [0, 1, 4, 5, 8, 9, 16, 17, 32, 33, 64].map classOf =
    [.c0, .c1to4, .c1to4, .c5to8, .c5to8, .c9to16, .c9to16, .c17to32, .c17to32, .c33to64, .c33to64] := by decide

/-- The host's placed word is decoded and its command's CHECK step is run by the very next step (R43, R202). -/
theorem test_withFetchWord :
    (after (step (State.reset.withFetchWord 64 4))).map (fun t => (t.cmd, t.phase, t.status)) = some (4, .finish, 1) ∧
    (after (step (State.reset.withFetchWord 64 6))).map (fun t => (t.cmd, t.phase, t.status)) = some (6, .idle, 0x14) := by
  decide

end Sys2Proof.Tests
end

section
/-! PROOFS. The scope (spec 00_scope.md): what an idle CORE keeps. -/

namespace Sys2Proof.Machine

/-- No host is to move exactly when every script is done. -/
theorem nextHost_eq_none_iff {s : State} : nextHost s = none ↔ ∀ h ∈ s.hosts, h.script = [] := by
  simp [nextHost, List.findIdx?_eq_none_iff]

/-- R218: with no fixed turn and every script done, an idle CORE is quiescent. -/
theorem step_quiescent {s : State} (hp : s.phase = .idle) (ht : s.turns = [])
    (hs : ∀ h ∈ s.hosts, h.script = []) : step s = .next s := by
  rw [step_idle ht hp, nextHost_eq_none_iff.2 hs]

/-- R27: a sequencer turn finds no step enabled in IDLE, and only the turn is used up. -/
theorem step_sequencer_idle {s : State} {ts : List Turn} (hp : s.phase = .idle) (ht : s.turns = .sequencer :: ts) :
    step s = .next (s.withTurns ts) := by
  have hp' : (s.withTurns ts).phase = .idle := hp
  rw [step_turn ht, takeTurn, sequencerTurn_idle hp']

/-- Settles O16: the two kinds of step of an idle CORE are `step_quiescent` and `step_sequencer_idle`. -/
theorem idleKeepsAllState : Obligations.IdleKeepsAllState := by
  intro s hp
  exact ⟨step_quiescent hp, fun _ ht => step_sequencer_idle hp ht⟩

end Sys2Proof.Machine
end

section
/-! PROOFS. The state's operations, one rule each (spec 10_state.md R20 to R49): what a host read returns after each update,
what a dropped write does to the bits of `STATUS`, and what each agent's move comes to. -/

namespace Sys2Proof.Machine

/-! ### Host reads of the state's updates -/

/-- R42: a register from 10 on does not exist and reads as zero. -/
theorem hostRead_beyond {n : Nat} (h : 10 ≤ n) (s : State) : hostRead n s = 0 := by
  obtain ⟨k, rfl⟩ := Nat.exists_eq_add_of_le' h
  rfl

/-- The registers 0 to 5 are the six that a command takes its operands from (R73). -/
theorem hostRead_operands_congr {s t : State} (hcmd : t.cmd = s.cmd) (hbase : t.bufBase = s.bufBase)
    (hlen : t.bufLen = s.bufLen) (hcap : t.bufCap = s.bufCap) (hseed0 : t.seed0 = s.seed0) (hseed1 : t.seed1 = s.seed1)
    {n : Nat} (hn : n ≤ 5) : hostRead n t = hostRead n s := by
  interval_cases n
  · exact hcmd
  · exact hbase
  · exact hlen
  · exact hcap
  · exact hseed0
  · exact hseed1

/-- A dropped write is seen in `STATUS` alone (R31 (b)). -/
theorem hostRead_overrun {m : Nat} (hm : m ≠ 6) (s : State) : hostRead m s.overrun = hostRead m s := by
  unfold hostRead
  split
  case h_7 => exact absurd rfl hm
  all_goals rfl

/-- The store of an operand register is read back (R31 (c)). -/
theorem hostRead_writeOperand_same {n : Nat} (h1 : 1 ≤ n) (h5 : n ≤ 5) (v : Word) (s : State) :
    hostRead n (writeOperand n v s) = v := by
  interval_cases n <;> rfl

/-- The store of an operand register is seen in no other register (R31 (c)). -/
theorem hostRead_writeOperand_other {n m : Nat} (hm : m ≠ n) (v : Word) (s : State) :
    hostRead m (writeOperand n v s) = hostRead m s := by
  unfold writeOperand
  split
  case h_6 => rfl
  all_goals
    unfold hostRead
    split <;> simp_all

/-! ### The bits of `STATUS` after a dropped write -/

/-- R31 (b): a dropped write changes no bit of `STATUS` but `OVR`. -/
theorem statusOverrun_getLsbD {j : Nat} (hj : j ≠ 3) (st : Word) : (statusOverrun st).getLsbD j = st.getLsbD j := by
  have hbit : (0x8#64).getLsbD j = false := by
    rw [show (0x8#64) = BitVec.twoPow 64 3 by decide, BitVec.getLsbD_twoPow]
    simp [hj.symm]
  rw [statusOverrun, BitVec.getLsbD_or, hbit, Bool.or_false]

/-- R174: FINISH keeps `OVR`, so the note of a dropped write passes through it. -/
theorem statusFinished_overrun (st : Word) : statusFinished (statusOverrun st) = statusOverrun (statusFinished st) := by
  have hkeep : (0x8#64) &&& ~~~0x1#64 = 0x8#64 := by decide
  simp only [statusFinished, statusOverrun, BitVec.and_or_distrib_right, hkeep]
  ac_rfl

/-- R205: fault entry keeps `OVR`, so the note of a dropped write passes through it. -/
theorem statusFaulted_overrun (k : Cause) (st : Word) :
    statusFaulted k (statusOverrun st) = statusOverrun (statusFaulted k st) := by
  have hkeep : (0x8#64) &&& ~~~0xf7#64 = 0x8#64 := by decide
  simp only [statusFaulted, statusOverrun, BitVec.and_or_distrib_right, hkeep]
  ac_rfl

/-! ### What CHECK, the sequencer's turn and a step come to -/

/-- What CHECK comes to: a fault of its own, with no address, or, for a legal word whose operands pass, the next phase. -/
theorem checkStep_cases (s : State) :
    (∃ k, checkStep s = faultEntry k 0 s) ∨
      (s.legal ∧ s.operandsChecked ∧ checkStep s = s.enterPhase (if isLong s.bufLen then .init else .finish)) := by
  cases hd : decode s.cmd with
  | illegalCommand => exact .inl ⟨_, checkStep_illegal hd⟩
  | command i =>
    rw [checkStep_command hd]
    rcases checkOperands_cases s with ⟨-, hc⟩ | ⟨-, -, hc⟩ | ⟨-, -, -, hc⟩ | ⟨hok, hc⟩
    · exact .inl ⟨_, hc⟩
    · exact .inl ⟨_, hc⟩
    · exact .inl ⟨_, hc⟩
    · exact .inr ⟨⟨i, hd⟩, hok, hc⟩

/-- What the sequencer's turn can do when it goes on: nothing in IDLE, CHECK, or a step of the command that `CMD` holds. -/
theorem sequencerTurn_next {s t : State} (h : sequencerTurn s = .next t) :
    (s.phase = .idle ∧ t = s) ∨ (s.phase = .check ∧ t = checkStep s) ∨
      ∃ i, decode s.cmd = .command i ∧ commandStep Config.cfg i s = .next t := by
  cases hd : decode s.cmd with
  | command i =>
    rw [sequencerTurn_command hd, exec_eq] at h
    exact .inr (.inr ⟨i, rfl, h⟩)
  | illegalCommand =>
    cases hp : s.phase with
    | idle =>
      rw [sequencerTurn_idle hp] at h
      exact .inl ⟨rfl, by simpa using h.symm⟩
    | check =>
      rw [sequencerTurn_illegal_check hd hp, ← checkStep_illegal hd] at h
      exact .inr (.inl ⟨rfl, by simpa using h.symm⟩)
    | init | absorb | finish => simp [sequencerTurn, hp, hd] at h

/-- A step is one agent's move: the first fixed turn's, or with no turn fixed the default's, which is never the reset event;
or nobody moves (R18, R218). -/
theorem step_eq_takeTurn (s : State) :
    (∃ x ts, s.turns = x :: ts ∧ step s = takeTurn x (s.withTurns ts)) ∨
      (∃ x, x ≠ .reset ∧ s.turns = [] ∧ step s = takeTurn x s) ∨ step s = .next s := by
  cases hts : s.turns with
  | cons x ts => exact .inl ⟨x, ts, rfl, step_turn hts⟩
  | nil =>
    by_cases hp : s.phase = .idle
    · have hstep := step_idle hts hp
      cases hk : nextHost s with
      | none => exact .inr (.inr (by rw [hstep, hk]))
      | some k => exact .inr (.inl ⟨.host k, by simp, rfl, by rw [hstep, hk]; rfl⟩)
    · exact .inr (.inl ⟨.sequencer, by simp, rfl, step_busy hts hp⟩)

/-! ### The invariants with `BUSY` 0 -/

/-- R49 (a): with `BUSY` 0 the sequencer is in IDLE. -/
theorem State.Inv.idle_of_not_busy {s : State} (h : s.Inv) (hb : statusBusy s.status = false) : s.phase = .idle := by
  simpa [hb] using h.busy_iff

/-- R49 (a), (f): with `BUSY` 0 the invariants leave the datapath registers zero. -/
theorem State.Inv.quiet_of_not_busy {s : State} (h : s.Inv) (hb : statusBusy s.status = false) : s.quiet :=
  h.quiet_before (.inl (h.idle_of_not_busy hb))

end Sys2Proof.Machine
end

section
/-! PROOFS. What a host sees and does (spec 10_state.md R30, R31, R42, R48): the registers after reset, the read and the write
of a register; and that the sequencer's turn runs the decoded command (R27, R76). -/

namespace Sys2Proof.Machine

/-- R48: a host reads zero from every register after reset. -/
theorem hostRead_reset (n : Nat) : hostRead n State.reset = 0 := by
  unfold hostRead
  split <;> rfl

/-- Settles O1: the fields of `State.reset` are zero by definition, the host's view of them is `hostRead_reset`. -/
theorem resetStateIsAllZero : Obligations.ResetStateIsAllZero :=
  ⟨rfl, rfl, rfl, rfl, hostRead_reset, by decide, by decide, by decide, by decide, by decide⟩

/-- Settles O6: both kinds of sequencer turn are `sequencerTurn`, which runs the decoded command. -/
theorem stepRunsTheDecodedCommand : Obligations.StepRunsTheDecodedCommand := by
  intro i s _ hi
  refine ⟨fun hts hp => ?_, fun ts hts => ?_⟩
  · rw [step_busy hts hp, sequencerTurn_command hi]
  · have hi' : decode (s.withTurns ts).cmd = .command i := hi
    rw [step_turn hts, takeTurn, sequencerTurn_command hi']

/-- An `RD` statement at the head of host `k`'s script is one host read, recorded (R30, R78). -/
theorem hostTurn_rd {s : State} {k n : Nat} {rest : List HostStmt} {seen : List Observation}
    (h : s.hosts[k]? = some ⟨.rd n :: rest, seen⟩) :
    hostTurn k s = s.withHost k ⟨rest, seen ++ [.rd n (hostRead n s)]⟩ := by
  simp [hostTurn, h]

/-- Settles O10: a read is the register itself, and the move of an `RD` statement is `hostTurn_rd`. -/
theorem hostReadReturnsTheRegister : Obligations.HostReadReturnsTheRegister := by
  refine ⟨fun s => ⟨rfl, rfl, rfl, rfl, rfl, rfl, rfl, rfl, rfl, rfl⟩, ?_⟩
  intro s k n rest seen ts hts hk
  have hk' : (s.withTurns ts).hosts[k]? = some ⟨.rd n :: rest, seen⟩ := hk
  have hlt : k < s.hosts.length := (List.getElem?_eq_some_iff.1 hk).1
  refine ⟨_, by rw [step_turn hts, takeTurn, hostTurn_rd hk'], ?_, fun j hj => ?_, rfl⟩
  · exact List.getElem?_set_self hlt
  · exact List.getElem?_set_ne hj.symm

/-- Settles O11: each clause is the branch of `hostWrite` for its case of R31. -/
theorem hostWriteFollowsTheRules : Obligations.HostWriteFollowsTheRules := by
  intro n v s
  refine ⟨fun h6 => hostWrite_ignored h6 v s, fun h5 hb => ?_, fun h1 h5 hb => ?_, fun hb => hostWrite_accept hb v,
    fun h10 => ⟨hostRead_beyond h10 s, hostWrite_ignored (by omega) v s⟩⟩
  · exact ⟨statusOverrun s.status, hostWrite_busy h5 hb v, statusOvr_overrun s.status,
      fun j hj => statusOverrun_getLsbD hj s.status⟩
  · obtain ⟨hacc, htail, hblk, hphase, -, -, -, -, -, hmem, hhosts, hturns, -⟩ := writeOperand_frame n v s
    rw [hostWrite_operand h1 h5 hb v]
    exact ⟨hostRead_writeOperand_same h1 h5 v s, fun m hm => hostRead_writeOperand_other hm v s, hacc, htail, hblk,
      hphase, hhosts, hturns, fun slot a => by rw [hmem]⟩

end Sys2Proof.Machine
end

section
/-! PROOFS. The lock of the operand registers (spec 10_state.md R43): while `BUSY` is 1 no move of an agent, the reset event
apart, changes a register 0 to 5. -/

namespace Sys2Proof.Machine

/-- R205: fault entry writes no operand register. -/
theorem hostRead_faultEntry (k : Cause) (f : Word) (s : State) {n : Nat} (hn : n ≤ 5) :
    hostRead n (faultEntry k f s) = hostRead n s :=
  hostRead_operands_congr (s := s) (t := faultEntry k f s) rfl rfl rfl rfl rfl rfl hn

theorem hostRead_checkStep (s : State) {n : Nat} (hn : n ≤ 5) : hostRead n (checkStep s) = hostRead n s := by
  rcases checkStep_cases s with ⟨k, hc⟩ | ⟨-, -, hc⟩
  · rw [hc, hostRead_faultEntry k 0 s hn]
  · rw [hc]
    exact hostRead_operands_congr rfl rfl rfl rfl rfl rfl hn

/-- R188: no command's step writes an operand register. -/
theorem commandStep_keeps_operands {c : Cfg} {i : Instr} {s t : State} (h : commandStep c i s = .next t) {n : Nat}
    (hn : n ≤ 5) : hostRead n t = hostRead n s := by
  rcases commandStep_next h with ⟨-, rfl⟩ | ⟨-, rfl⟩ | ⟨-, rfl⟩ | ⟨-, ws, -, rfl⟩ | ⟨-, ws, -, rfl⟩ | ⟨-, a, rfl⟩ |
    ⟨-, rfl⟩
  · rfl
  · exact hostRead_checkStep s hn
  · exact hostRead_operands_congr rfl rfl rfl rfl rfl rfl hn
  · exact hostRead_operands_congr rfl rfl rfl rfl rfl rfl hn
  · exact hostRead_operands_congr (s := s) (t := finishWords c i ws s.takeSlots) rfl rfl rfl rfl rfl rfl hn
  · exact hostRead_faultEntry .bufferAccess _ s.takeSlots hn
  · rfl

theorem sequencerTurn_keeps_operands {s t : State} (h : sequencerTurn s = .next t) {n : Nat} (hn : n ≤ 5) :
    hostRead n t = hostRead n s := by
  rcases sequencerTurn_next h with ⟨-, rfl⟩ | ⟨-, rfl⟩ | ⟨i, -, hstep⟩
  · rfl
  · exact hostRead_checkStep s hn
  · exact commandStep_keeps_operands hstep hn

/-- R31 (a), (b): while `BUSY` is 1 a host write is seen in `STATUS` alone. -/
theorem hostRead_hostWrite_busy {s : State} (hb : statusBusy s.status = true) (n : Nat) (v : Word) {m : Nat}
    (hm : m ≠ 6) : hostRead m (hostWrite n v s) = hostRead m s := by
  by_cases h6 : 6 ≤ n
  · rw [hostWrite_ignored h6]
  · rw [hostWrite_busy (by omega) hb, hostRead_overrun hm]

theorem hostTurn_busy_keeps_operands {s : State} (hb : statusBusy s.status = true) (k : Nat) {n : Nat} (hn : n ≤ 5) :
    hostRead n (hostTurn k s) = hostRead n s := by
  have hagent (h : HostAgent) : hostRead n (s.withHost k h) = hostRead n s :=
    hostRead_operands_congr rfl rfl rfl rfl rfl rfl hn
  rcases hostTurn_cases k s with hc | ⟨h, m, v, hc⟩ | ⟨h, hc⟩
  · rw [hc]
  · have hb' : statusBusy (s.withHost k h).status = true := hb
    rw [hc, hostRead_hostWrite_busy hb' m v (by omega), hagent]
  · rw [hc, hagent]

/-- R43: while `BUSY` is 1 no agent's move but the reset event changes a register 0 to 5. -/
theorem takeTurn_busy_keeps_operands {s t : State} {x : Turn} (hb : statusBusy s.status = true) (hx : x ≠ .reset)
    (h : takeTurn x s = .next t) {n : Nat} (hn : n ≤ 5) : hostRead n t = hostRead n s := by
  cases x with
  | sequencer => exact sequencerTurn_keeps_operands h hn
  | host k =>
    obtain rfl : hostTurn k s = t := by simpa [takeTurn] using h
    exact hostTurn_busy_keeps_operands hb k hn
  | reset => exact absurd rfl hx
  | environment e =>
    obtain rfl : s.withChange e = t := by simpa [takeTurn] using h
    exact hostRead_operands_congr rfl rfl rfl rfl rfl rfl hn

/-- R43: the registers 0 to 5 are locked from acceptance until the command ends. -/
theorem step_busy_keeps_operands {s t : State} (hb : statusBusy s.status = true) (h : step s = .next t)
    (hr : ∀ ts, s.turns ≠ .reset :: ts) {n : Nat} (hn : n ≤ 5) : hostRead n t = hostRead n s := by
  rcases step_eq_takeTurn s with ⟨x, ts, hts, hstep⟩ | ⟨x, hx, -, hstep⟩ | hstep
  · have hx : x ≠ .reset := fun hx => hr ts (hx ▸ hts)
    have hb' : statusBusy (s.withTurns ts).status = true := hb
    rw [takeTurn_busy_keeps_operands hb' hx (hstep ▸ h) hn]
    exact hostRead_operands_congr rfl rfl rfl rfl rfl rfl hn
  · exact takeTurn_busy_keeps_operands hb hx (hstep ▸ h) hn
  · obtain rfl : s = t := by simpa [hstep] using h
    rfl

/-- Settles O12: acceptance is the branch of `hostWrite` for `CMD`, and the lock is `hostRead_hostWrite_busy` for a host's
write and `step_busy_keeps_operands` for a step. -/
theorem commandAcceptance : Obligations.CommandAcceptance := by
  intro v s hb
  have haccept := hostWrite_accept hb v
  refine ⟨haccept, by rw [haccept]; exact statusBusy_accepted, fun hinv => ?_,
    fun u hu n x _ m hm => hostRead_hostWrite_busy hu n x hm, fun u t hu ht hr n hn => step_busy_keeps_operands hu ht hr hn⟩
  have hquiet : s.quiet := hinv.quiet_of_not_busy hb
  exact ⟨hquiet, by rw [haccept]; exact hquiet⟩

end Sys2Proof.Machine
end

section
/-! PROOFS. The note of a dropped write (spec 70_reset_and_hazards.md R239, 10_state.md R31): every step of a command commutes
with setting `OVR`. -/

namespace Sys2Proof.Machine

theorem faultEntry_overrun (k : Cause) (f : Word) (s : State) : faultEntry k f s.overrun = (faultEntry k f s).overrun := by
  simp only [faultEntry, State.overrun, statusFaulted_overrun]

theorem finished_overrun (r : Word × Word) (s : State) : s.overrun.finished r = (s.finished r).overrun := by
  simp only [State.finished, State.overrun, statusFinished_overrun]

/-- CHECK examines no bit of `STATUS`. -/
theorem checkStep_overrun (s : State) : checkStep s.overrun = (checkStep s).overrun := by
  have hoperands : checkOperands s.overrun = (checkOperands s).overrun := by
    simp only [checkOperands, State.overrun_bufLen, State.overrun_bufBase, State.overrun_bufCap, faultEntry_overrun,
      apply_ite State.overrun]
    rfl
  unfold checkStep
  rw [State.overrun_cmd, hoperands, faultEntry_overrun]
  cases decode s.cmd <;> rfl

/-- A reading step passes the note on if its writes do. -/
theorem afterReads_overrun {r : Reading (List Word)} {k : List Word → State → State} {s t : State}
    (hk : ∀ ws u, k ws u.overrun = (k ws u).overrun) (h : afterReads r k s = .next t) :
    afterReads r k s.overrun = .next t.overrun := by
  rcases afterReads_next h with ⟨ws, rfl, rfl⟩ | ⟨a, rfl, rfl⟩ | ⟨rfl, rfl⟩
  · rw [afterReads_ok, ← hk]
    rfl
  · rw [afterReads_refused, ← faultEntry_overrun]
    rfl
  · rfl

/-- R239: a command's step, in every phase, commutes with the note of a dropped write. -/
theorem commandStep_overrun {c : Cfg} {i : Instr} {s t : State} (h : commandStep c i s = .next t) :
    commandStep c i s.overrun = .next t.overrun := by
  have hphase : s.overrun.phase = s.phase := rfl
  cases hp : s.phase with
  | idle =>
    obtain rfl : s = t := by simpa [commandStep_idle hp] using h
    exact commandStep_idle hp
  | check =>
    obtain rfl : checkStep s = t := by simpa [commandStep_check hp] using h
    rw [commandStep_check (hphase.trans hp), checkStep_overrun]
  | init =>
    obtain rfl : initStep c i s = t := by simpa [commandStep_init hp] using h
    exact commandStep_init hp
  | absorb =>
    rw [commandStep_absorb hp] at h
    rw [commandStep_absorb (hphase.trans hp)]
    exact afterReads_overrun (fun _ _ => rfl) h
  | finish =>
    rw [commandStep_finish hp] at h
    rw [commandStep_finish (hphase.trans hp)]
    exact afterReads_overrun (fun _ _ => finished_overrun _ _) h

/-- Settles O14: every command's meaning is `commandStep`, which commutes with `State.overrun`. -/
theorem overrunNeverChangesACommand : Obligations.OverrunNeverChangesACommand := by
  intro i s t h
  rw [exec_eq] at h ⊢
  exact commandStep_overrun h

end Sys2Proof.Machine
end

section
/-! PROOFS. No step stops (spec 10_state.md R49, 20_memory.md R52, 70_reset_and_hazards.md R243): under the invariants every
address read lies in the buffer that CHECK has passed, and the word past CHECK is legal. -/

namespace Sys2Proof.Machine

/-- R57, R204: under the invariants the reads of a step stay inside the declared buffer. -/
theorem readOrder_in_buffer {s : State} (h : s.Inv) {a : Nat} (ha : a ∈ readOrder s) :
    s.bufBase.toNat ≤ a ∧ a < s.bufBase.toNat + s.bufLen.toNat := by
  cases hp : s.phase with
  | idle | check | init => simp [readOrder, hp] at ha
  | absorb =>
    have ha' : a ∈ planAddresses (blockAddress s) blockPlan := by simpa [readOrder, hp] using ha
    have hplan := mem_planAddresses ha' blockPlan_in
    have hblk := h.blk_absorb hp
    rw [nblkOf_toNat] at hblk
    rw [blockAddress] at hplan
    omega
  | finish =>
    have ha' : a ∈ planAddresses (tailAddress s) (tailPlan (tailLength s.bufLen)) := by simpa [readOrder, hp] using ha
    have hplan := mem_planAddresses ha' (tailPlan_in _ (tailLength_le_64 _))
    have hsum := tailOffset_add_tailLength s.bufLen
    rw [tailAddress] at hplan
    omega

/-- A reading step stops only at an address beyond the address space, and the buffer that CHECK has passed ends below it. -/
theorem commandStep_reading_goes_on {c : Cfg} {i : Instr} {s : State} (h : s.Inv)
    (hp : s.phase = .absorb ∨ s.phase = .finish) : ∃ t, commandStep c i s = .next t := by
  obtain ⟨-, -, hend⟩ := h.checked_past_check (.inr hp)
  have hbelow : ∀ a ∈ readOrder s, a < 2 ^ 64 := fun a ha => by
    obtain ⟨-, hlt⟩ := readOrder_in_buffer h ha
    exact Nat.lt_of_lt_of_le hlt hend
  rw [commandStep_reading hp]
  cases hr : readBytes s.mem s.draws (readOrder s) with
  | beyond a => exact absurd hr (readBytes_not_beyond hbelow a)
  | ok bs => exact ⟨_, afterReads_ok _ _ _⟩
  | refused a => exact ⟨_, afterReads_refused a _ _⟩
  | silent => exact ⟨_, afterReads_silent _ _⟩

theorem commandStep_goes_on (c : Cfg) (i : Instr) {s : State} (h : s.Inv) : ∃ t, commandStep c i s = .next t := by
  cases hp : s.phase with
  | idle => exact ⟨_, commandStep_idle hp⟩
  | check => exact ⟨_, commandStep_check hp⟩
  | init => exact ⟨_, commandStep_init hp⟩
  | absorb => exact commandStep_reading_goes_on h (.inl hp)
  | finish => exact commandStep_reading_goes_on h (.inr hp)

/-- R49 (h): an illegal word stands in `CMD` in IDLE or CHECK only, where the sequencer has a step for it. -/
theorem sequencerTurn_goes_on {s : State} (h : s.Inv) : ∃ t, sequencerTurn s = .next t := by
  cases hd : decode s.cmd with
  | command i =>
    rw [sequencerTurn_command hd, exec_eq]
    exact commandStep_goes_on Config.cfg i h
  | illegalCommand =>
    have hcheck : ¬ s.pastCheck := fun hpast => by
      obtain ⟨i, hi⟩ := h.legal_past_check hpast
      simp [hd] at hi
    cases hp : s.phase with
    | idle => exact ⟨_, sequencerTurn_idle hp⟩
    | check => exact ⟨_, sequencerTurn_illegal_check hd hp⟩
    | init => exact absurd (.inl hp) hcheck
    | absorb => exact absurd (.inr (.inl hp)) hcheck
    | finish => exact absurd (.inr (.inr hp)) hcheck

theorem takeTurn_goes_on (x : Turn) {s : State} (h : s.Inv) : ∃ t, takeTurn x s = .next t := by
  cases x with
  | sequencer => exact sequencerTurn_goes_on h
  | host k => exact ⟨_, rfl⟩
  | reset => exact ⟨_, rfl⟩
  | environment e => exact ⟨_, rfl⟩

/-- The invariants say nothing of the turns. -/
theorem withTurns_inv (ts : List Turn) {s : State} (h : s.Inv) : (s.withTurns ts).Inv := { h with }

/-- Settles O5: a step is one agent's move, and `takeTurn_goes_on` for each agent. -/
theorem noStepStopsUnderTheInvariant : Obligations.NoStepStopsUnderTheInvariant := by
  intro s h
  rcases step_eq_takeTurn s with ⟨x, ts, -, hstep⟩ | ⟨x, -, -, hstep⟩ | hstep
  · rw [hstep]
    exact takeTurn_goes_on x (withTurns_inv ts h)
  · rw [hstep]
    exact takeTurn_goes_on x h
  · exact ⟨s, hstep⟩

end Sys2Proof.Machine
end

section
/-! PROOFS. The 32-bit datapath (spec 10_state.md R23, R39): what the 32-bit rules write is zero-extended; and which commands
leave a second result word (R40). -/

namespace Sys2Proof.Machine

/-- Four words whose high halves are zero. -/
def IsHalfQuad (q : Quad Word) : Prop := hi32 q.w0 = 0 ∧ hi32 q.w1 = 0 ∧ hi32 q.w2 = 0 ∧ hi32 q.w3 = 0

theorem isHalfQuad_zextQuad (q : Quad Half) : IsHalfQuad (zextQuad q) :=
  ⟨hi32_zext64 _, hi32_zext64 _, hi32_zext64 _, hi32_zext64 _⟩

/-- The halves of the accumulators and of the tail registers together are R23. -/
theorem State.halfWidth_of {s : State} (ha : IsHalfQuad s.acc) (ht1 : hi32 s.tail.1 = 0) (ht2 : hi32 s.tail.2 = 0) :
    s.halfWidth := by
  obtain ⟨h0, h1, h2, h3⟩ := ha
  exact ⟨h0, h1, h2, h3, ht1, ht2⟩

/-- Registers that are zero hold 32-bit values. -/
theorem State.quiet.halfWidth {s : State} (h : s.quiet) : s.halfWidth := by
  obtain ⟨hacc, htail, -⟩ := h
  have h0 : hi32 0 = 0 := by decide
  refine State.halfWidth_of ?_ (by rw [htail]; exact h0) (by rw [htail]; exact h0)
  rw [hacc]
  exact ⟨h0, h0, h0, h0⟩

theorem isHalfQuad_initAcc_h32 (c : Cfg) (w : Quad Word) (len : Word) : IsHalfQuad (initAcc c .h32 w len) :=
  isHalfQuad_zextQuad _

theorem isHalfQuad_blockUpdate_h32 (c : Cfg) (r : Quad Word) (m : List Word) : IsHalfQuad (blockUpdate c .h32 r m) :=
  isHalfQuad_zextQuad _

/-- R39: the result of `H32` is a 32-bit value. -/
theorem finishResults_h32_high (c : Cfg) (g : List Word) (s : State) : hi32 (finishResults c .h32 g s).1 = 0 :=
  hi32_zext64 _

/-- R40: a second result word is left by the 128-bit commands only. -/
theorem finishResults_second {c : Cfg} {i : Instr} {g : List Word} {s : State} (h : (finishResults c i g s).2 ≠ 0) :
    i = .h128 ∨ i = .h128s := by
  cases i with
  | h32 | h64 | h64s | h64ss => exact absurd rfl h
  | h128 => exact .inl rfl
  | h128s => exact .inr rfl

end Sys2Proof.Machine
end

section
/-! PROOFS. The invariants (spec 10_state.md R49): they hold at reset, and every step of every agent keeps them. -/

namespace Sys2Proof.Machine

/-! ### The two kinds of state -/

/-- The clauses of the invariants about what a host reads of a command that is over: the registers `CMD`, `STATUS`,
`RESULT0`, `RESULT1` and `FADDR`, in this order. -/
structure EndRecord (cmd st r0 r1 fa : Word) : Prop where
  not_busy : statusBusy st = false
  reserved_zero : statusReserved st = 0
  cause_iff : statusCause st ≠ 0 ↔ statusFault st = true
  cause_le : (statusCause st).toNat ≤ 5
  one_end : ¬(statusDone st = true ∧ statusFault st = true)
  faddr_only : fa ≠ 0 → statusFault st = true ∧ statusCause st = 5
  result_only : r0 ≠ 0 ∨ r1 ≠ 0 → statusDone st = true
  result_half : decode cmd = .command .h32 → hi32 r0 = 0
  result_single : r1 ≠ 0 → decode cmd = .command .h128 ∨ decode cmd = .command .h128s

/-- In IDLE the invariants come to the record of the last command, zero datapath registers and the memory's form. -/
theorem State.Inv.of_idle {s : State} (hp : s.phase = .idle) (hr : EndRecord s.cmd s.status s.result0 s.result1 s.faddr)
    (hq : s.quiet) (hm : s.mem.wf = true) : s.Inv :=
  { hr with
    busy_iff := by simp [hp, hr.not_busy]
    one_flag := by simpa [hr.not_busy] using hr.one_end
    quiet_before := fun _ => hq
    quiet_short := fun _ _ => hq
    blk_absorb := by simp [hp]
    blk_finish := by simp [hp]
    long_absorber := by simp [hp]
    legal_past_check := by simp [State.pastCheck, hp]
    checked_past_check := by simp [State.pastCheck, hp]
    half_width := fun _ => hq.halfWidth
    mem_wf := hm }

theorem State.Inv.endRecord {s : State} (h : s.Inv) (hb : statusBusy s.status = false) :
    EndRecord s.cmd s.status s.result0 s.result1 s.faddr :=
  { h with
    not_busy := hb
    one_end := fun hdf => by
      obtain ⟨-, -, hdone_fault⟩ := h.one_flag
      exact hdone_fault hdf }

/-- While a command runs only `BUSY` is set of the three, there is no cause, and the results and `FADDR` are still zero. -/
theorem State.Inv.running {s : State} (h : s.Inv) (hp : s.phase ≠ .idle) :
    statusBusy s.status = true ∧ statusDone s.status = false ∧ statusFault s.status = false ∧ statusCause s.status = 0 ∧
      s.result0 = 0 ∧ s.result1 = 0 ∧ s.faddr = 0 := by
  have hbusy : statusBusy s.status = true := h.busy_iff.2 hp
  obtain ⟨hbd, hbf, -⟩ := h.one_flag
  have hdone : statusDone s.status = false := by simpa [hbusy] using hbd
  have hfault : statusFault s.status = false := by simpa [hbusy] using hbf
  have hcause : statusCause s.status = 0 := by_contra fun hne => by simpa [hfault] using h.cause_iff.1 hne
  have hresult0 : s.result0 = 0 := by_contra fun hne => by simpa [hdone] using h.result_only (.inl hne)
  have hresult1 : s.result1 = 0 := by_contra fun hne => by simpa [hdone] using h.result_only (.inr hne)
  have hfaddr : s.faddr = 0 := by_contra fun hne => by simpa [hfault] using (h.faddr_only hne).1
  exact ⟨hbusy, hdone, hfault, hcause, hresult0, hresult1, hfaddr⟩

/-! ### Reset and the moves of the other agents -/

/-- R48: the record that reset leaves. -/
theorem reset_endRecord : EndRecord 0 0 0 0 0 where
  not_busy := by decide
  reserved_zero := by decide
  cause_iff := by decide
  cause_le := by decide
  one_end := by decide
  faddr_only := by simp
  result_only := by simp
  result_half := fun _ => by decide
  result_single := by simp

/-- The reset event restores R48 at any moment; the memory, which it leaves alone, keeps its form (R230, R231). -/
theorem coreReset_inv {s : State} (hm : s.mem.wf = true) : (coreReset s).Inv :=
  .of_idle rfl reset_endRecord ⟨rfl, rfl, rfl⟩ hm

/-- Settles O3: the reset state is what the reset event leaves of itself. -/
theorem resetSatisfiesTheInvariant : Obligations.ResetSatisfiesTheInvariant :=
  coreReset_inv (s := State.reset) reset_mem_wf

theorem withHost_inv (k : Nat) (a : HostAgent) {s : State} (h : s.Inv) : (s.withHost k a).Inv := { h with }

theorem withChange_inv (e : EnvChange) {s : State} (h : s.Inv) : (s.withChange e).Inv :=
  { h with mem_wf := BufMem.change_wf s.mem e h.mem_wf }

theorem takeSlots_inv {s : State} (h : s.Inv) : s.takeSlots.Inv := { h with }

/-- R31 (b): `OVR` is a bit that no invariant is about. -/
theorem overrun_inv {s : State} (h : s.Inv) : s.overrun.Inv :=
  { h with
    busy_iff := by simpa using h.busy_iff
    reserved_zero := by simpa using h.reserved_zero
    cause_iff := by simpa using h.cause_iff
    cause_le := by simpa using h.cause_le
    one_flag := by simpa using h.one_flag
    faddr_only := by simpa using h.faddr_only
    result_only := by simpa using h.result_only }

/-- R43: the registers are zero when a command is accepted, whatever its word is. -/
theorem acceptCommand_inv (v : Word) {s : State} (hq : s.quiet) (hm : s.mem.wf = true) : (acceptCommand v s).Inv where
  busy_iff := by simp
  reserved_zero := by simp
  cause_iff := by simp
  cause_le := by simp
  one_flag := by simp
  faddr_only := by simp
  result_only := by simp
  result_half := fun _ => by rw [acceptCommand_result0]; decide
  result_single := by simp
  quiet_before := fun _ => hq
  quiet_short := by simp
  blk_absorb := by simp
  blk_finish := by simp
  long_absorber := by simp
  legal_past_check := by simp [State.pastCheck]
  checked_past_check := by simp [State.pastCheck]
  half_width := fun _ => State.quiet.halfWidth (s := acceptCommand v s) hq
  mem_wf := hm

/-- R31 (c): in IDLE the invariants say nothing of the operand registers 1 to 5. -/
theorem writeOperand_inv (n : Nat) (v : Word) {s : State} (h : s.Inv) (hb : statusBusy s.status = false) :
    (writeOperand n v s).Inv := by
  obtain ⟨hacc, htail, hblk, hphase, hcmd, hstatus, hr0, hr1, hfaddr, hmem, -⟩ := writeOperand_frame n v s
  refine .of_idle (hphase.trans (h.idle_of_not_busy hb)) ?_ ?_ (hmem ▸ h.mem_wf)
  · rw [hcmd, hstatus, hr0, hr1, hfaddr]
    exact h.endRecord hb
  · rw [State.quiet, hacc, htail, hblk]
    exact h.quiet_of_not_busy hb

theorem hostWrite_inv (n : Nat) (v : Word) {s : State} (h : s.Inv) : (hostWrite n v s).Inv := by
  rcases hostWrite_cases n v s with hc | ⟨-, -, hc⟩ | ⟨-, hb, hc⟩ | ⟨-, -, hb, hc⟩ <;> rw [hc]
  · exact h
  · exact overrun_inv h
  · exact acceptCommand_inv v (h.quiet_of_not_busy hb) h.mem_wf
  · exact writeOperand_inv n v h hb

theorem hostTurn_inv (k : Nat) {s : State} (h : s.Inv) : (hostTurn k s).Inv := by
  rcases hostTurn_cases k s with hc | ⟨a, n, v, hc⟩ | ⟨a, hc⟩ <;> rw [hc]
  · exact h
  · exact hostWrite_inv n v (withHost_inv k a h)
  · exact withHost_inv k a h

/-! ### The sequencer's steps -/

/-- R201: every cause has a code, and none is over 5. -/
theorem causeCode_bounds (k : Cause) : causeCode k ≠ 0 ∧ (causeCode k).toNat ≤ 5 := by
  cases k <;> decide

/-- R205: fault entry leaves a record with its cause; an address goes with cause 5 only. -/
theorem faultEntry_inv {k : Cause} {f : Word} {s : State} (h : s.Inv) (hf : f ≠ 0 → k = .bufferAccess) :
    (faultEntry k f s).Inv := by
  obtain ⟨hcode, hle⟩ := causeCode_bounds k
  refine .of_idle rfl ?_ ⟨rfl, rfl, rfl⟩ h.mem_wf
  exact {
    not_busy := by simp
    reserved_zero := by simpa using h.reserved_zero
    cause_iff := by simpa using hcode
    cause_le := by simpa using hle
    one_end := by simp
    faddr_only := fun hne => by simp [hf hne, causeCode]
    result_only := by simp
    result_half := fun _ => by rw [faultEntry_result0]; decide
    result_single := by simp }

/-- R203: a passed CHECK enters INIT for a long buffer and FINISH for a short one, its registers still zero. -/
theorem enterPhase_inv {s : State} (h : s.Inv) (hp : s.phase = .check) (hl : s.legal) (ho : s.operandsChecked) :
    (s.enterPhase (if isLong s.bufLen then .init else .finish)).Inv := by
  have hq : s.quiet := h.quiet_before (.inr (.inl hp))
  obtain ⟨hbusy, -⟩ := h.running (by simp [hp])
  by_cases hlong : 64 < s.bufLen.toNat
  · rw [if_pos ((isLong_iff _).2 hlong)]
    exact { h with
      busy_iff := by simp [hbusy]
      quiet_before := fun _ => hq
      quiet_short := by simp
      blk_absorb := by simp
      blk_finish := by simp
      long_absorber := fun _ => hlong
      legal_past_check := fun _ => hl
      checked_past_check := fun _ => ho }
  · rw [if_neg (mt (isLong_iff _).1 hlong)]
    exact { h with
      busy_iff := by simp [hbusy]
      quiet_before := fun _ => hq
      quiet_short := fun _ _ => hq
      blk_absorb := by simp
      blk_finish := fun _ hlen => absurd hlen hlong
      long_absorber := by simp
      legal_past_check := fun _ => hl
      checked_past_check := fun _ => ho }

theorem checkStep_inv {s : State} (h : s.Inv) (hp : s.phase = .check) : (checkStep s).Inv := by
  rcases checkStep_cases s with ⟨k, hc⟩ | ⟨hl, ho, hc⟩ <;> rw [hc]
  · exact faultEntry_inv h fun hne => absurd rfl hne
  · exact enterPhase_inv h hp hl ho

/-- R152, R153: INIT fills the accumulators and starts at block 0 of at least one. -/
theorem initStep_inv {c : Cfg} {i : Instr} {s : State} (h : s.Inv) (hp : s.phase = .init)
    (hi : decode s.cmd = .command i) : (initStep c i s).Inv := by
  obtain ⟨hbusy, -⟩ := h.running (by simp [hp])
  obtain ⟨-, htail, -⟩ := h.quiet_before (.inr (.inr hp))
  have hlong : 64 < s.bufLen.toNat := h.long_absorber (.inl hp)
  unfold initStep
  exact { h with
    busy_iff := by simp [hbusy]
    quiet_before := by simp
    quiet_short := by simp
    blk_absorb := fun _ => show 0 < (nblkOf s.bufLen).toNat by
      rw [nblkOf_toNat]
      omega
    blk_finish := by simp
    long_absorber := fun _ => hlong
    legal_past_check := fun _ => h.legal_past_check (.inl hp)
    checked_past_check := fun _ => h.checked_past_check (.inl hp)
    half_width := fun h32 => by
      obtain rfl : i = .h32 := by simpa [hi] using h32
      refine State.halfWidth_of (isHalfQuad_initAcc_h32 _ _ _) ?_ ?_ <;> rw [State.initialised_tail, htail] <;> decide }

/-- A block counter below the last block goes up without wrapping on 58 bits (log entry 13). -/
theorem blk_succ_lt {b n : BitVec 58} (hlt : b.toNat < n.toNat) (hne : b + 1 ≠ n) : (b + 1).toNat < n.toNat := by
  bv_omega

/-- R154: the block just absorbed was the last. -/
theorem absorbed_phase_eq_finish_iff {r : Quad Word} {p : Word × Word} {s : State} :
    (s.absorbed r p).phase = .finish ↔ s.blk + 1 = nblkOf s.bufLen := by
  rw [State.absorbed_phase]
  split
  next hlast => exact ⟨fun _ => hlast, fun _ => rfl⟩
  next hmore => exact ⟨nofun, fun hlast => absurd hlast hmore⟩

/-- R154: there is a further block. -/
theorem absorbed_phase_eq_absorb_iff {r : Quad Word} {p : Word × Word} {s : State} :
    (s.absorbed r p).phase = .absorb ↔ s.blk + 1 ≠ nblkOf s.bufLen := by
  rw [State.absorbed_phase]
  split
  next hlast => exact ⟨nofun, fun hmore => absurd hlast hmore⟩
  next hmore => exact ⟨fun _ => hmore, fun _ => rfl⟩

/-- R154: ABSORB goes on to the next block, and to FINISH after the last. -/
theorem absorbWords_inv {c : Cfg} {i : Instr} {s : State} (ws : List Word) (h : s.Inv) (hp : s.phase = .absorb)
    (hi : decode s.cmd = .command i) : (absorbWords c i ws s).Inv := by
  obtain ⟨hbusy, -⟩ := h.running (by simp [hp])
  have hlong : 64 < s.bufLen.toNat := h.long_absorber (.inr hp)
  have hblk := h.blk_absorb hp
  unfold absorbWords
  exact { h with
    busy_iff := by
      rw [State.absorbed_phase, State.absorbed_status]
      split <;> simp [hbusy]
    quiet_before := by
      rw [State.absorbed_phase]
      split <;> simp
    quiet_short := fun _ hshort => absurd hlong (Nat.not_lt.2 hshort)
    blk_absorb := fun hnext => blk_succ_lt hblk (absorbed_phase_eq_absorb_iff.1 hnext)
    blk_finish := fun hnext _ => absorbed_phase_eq_finish_iff.1 hnext
    long_absorber := fun _ => hlong
    legal_past_check := fun _ => h.legal_past_check (.inr (.inl hp))
    checked_past_check := fun _ => h.checked_past_check (.inr (.inl hp))
    half_width := fun h32 => by
      obtain rfl : i = .h32 := by simpa [hi] using h32
      exact State.halfWidth_of (isHalfQuad_blockUpdate_h32 _ _ _) (hi32_zext64 _) (hi32_zext64 _) }

/-- R174: FINISH leaves the record of a command that is done. -/
theorem finishWords_inv {c : Cfg} {i : Instr} {s : State} (ws : List Word) (h : s.Inv) (hp : s.phase = .finish)
    (hi : decode s.cmd = .command i) : (finishWords c i ws s).Inv := by
  obtain ⟨-, -, hfault, hcause, -, -, hfaddr⟩ := h.running (by simp [hp])
  unfold finishWords
  refine .of_idle rfl ?_ ⟨rfl, rfl, rfl⟩ h.mem_wf
  exact {
    not_busy := by simp
    reserved_zero := by simpa using h.reserved_zero
    cause_iff := by simp [hfault, hcause]
    cause_le := by simp [hcause]
    one_end := by simp [hfault]
    faddr_only := by simp [hfaddr]
    result_only := fun _ => by simp
    result_half := fun h32 => by
      obtain rfl : i = .h32 := by simpa [hi] using h32
      exact finishResults_h32_high c ws s
    result_single := fun hne => by
      rw [State.finished_cmd, hi]
      exact (finishResults_second hne).imp (congrArg _) (congrArg _) }

/-- Every step of the command that `CMD` holds keeps the invariants, a refused and an unanswered read among them. -/
theorem commandStep_inv {c : Cfg} {i : Instr} {s t : State} (h : s.Inv) (hi : decode s.cmd = .command i)
    (hstep : commandStep c i s = .next t) : t.Inv := by
  have hslots : s.takeSlots.Inv := takeSlots_inv h
  rcases commandStep_next hstep with ⟨-, rfl⟩ | ⟨hp, rfl⟩ | ⟨hp, rfl⟩ | ⟨hp, ws, -, rfl⟩ | ⟨hp, ws, -, rfl⟩ |
    ⟨-, a, rfl⟩ | ⟨-, rfl⟩
  · exact h
  · exact checkStep_inv h hp
  · exact initStep_inv h hp hi
  · exact absorbWords_inv ws hslots hp hi
  · exact finishWords_inv ws hslots hp hi
  · exact faultEntry_inv hslots fun _ => rfl
  · exact h

theorem sequencerTurn_inv {s t : State} (h : s.Inv) (hstep : sequencerTurn s = .next t) : t.Inv := by
  rcases sequencerTurn_next hstep with ⟨-, rfl⟩ | ⟨hp, rfl⟩ | ⟨i, hi, hcmd⟩
  · exact h
  · exact checkStep_inv h hp
  · exact commandStep_inv h hi hcmd

/-- Settles O4: `step_next` names the agent that moved, and each agent's move keeps the invariants. -/
theorem everyStepKeepsTheInvariant : Obligations.EveryStepKeepsTheInvariant := by
  intro s t h hstep
  obtain ⟨u, hu, hmove⟩ := step_next hstep
  have hinv : u.Inv := by
    rcases hu with rfl | ⟨ts, rfl⟩
    · exact h
    · exact withTurns_inv ts h
  rcases hmove with hseq | ⟨k, rfl⟩ | rfl | ⟨e, rfl⟩ | rfl
  · exact sequencerTurn_inv hinv hseq
  · exact hostTurn_inv k hinv
  · exact coreReset_inv hinv.mem_wf
  · exact withChange_inv e hinv
  · exact hinv

end Sys2Proof.Machine
end

section
/-! PROOFS. The environment's changes of the buffer memory (spec 20_memory.md R51, R63, 70_reset_and_hazards.md R242): each
keeps the canonical form, decides the answers at its own address, and is seen nowhere else. -/

namespace Sys2Proof.Machine

theorem BufMem.wf_iff (m : BufMem) : m.wf = true ↔ assocWf m.cells = true ∧ assocWf m.conduct = true := by
  simp [BufMem.wf]

/-- What the memory lists for an address is all that decides the answers there. -/
theorem BufMem.answer_congr {m m' : BufMem} {x : Nat} (hcells : assocFind x m'.cells = assocFind x m.cells)
    (hconduct : assocFind x m'.conduct = assocFind x m.conduct) (slot : Nat) : m'.answer slot x = m.answer slot x := by
  simp only [BufMem.answer, hcells, hconduct]

/-- No change is seen at an address other than its own. -/
theorem BufMem.answer_change_other (m : BufMem) (e : EnvChange) (slot : Nat) {x : Nat} (h : x ≠ e.address) :
    (m.change e).answer slot x = m.answer slot x := by
  cases e with
  | setByte a b =>
    refine BufMem.answer_congr ?_ ?_ slot
    · exact assocFind_insert_other _ _ _ _ h
    · rfl
  | refuse a =>
    refine BufMem.answer_congr ?_ ?_ slot
    · exact assocFind_erase_other _ _ _ h
    · rfl
  | setConduct a c =>
    refine BufMem.answer_congr ?_ ?_ slot
    · cases c <;> rfl
    · cases c with
      | none => exact assocFind_erase_other _ _ _ h
      | some k => exact assocFind_insert_other _ _ _ _ h

/-- An address that another agent leaves alone again has no conduct of its own. -/
theorem BufMem.conduct_settled {m : BufMem} (h : m.wf = true) (a : Word) :
    assocFind a.toNat (m.change (.setConduct a none)).conduct = none := by
  obtain ⟨-, hconduct⟩ := m.wf_iff.1 h
  exact assocFind_erase_same a.toNat m.conduct hconduct

/-- A plain address that is no longer readable refuses its reads (R51). -/
theorem BufMem.answer_refuse_same {m : BufMem} (h : m.wf = true) (slot : Nat) {a : Word}
    (hplain : assocFind a.toNat m.conduct = none) : (m.change (.refuse a)).answer slot a.toNat = .refused := by
  obtain ⟨hcells, -⟩ := m.wf_iff.1 h
  have hgone : assocFind a.toNat (m.change (.refuse a)).cells = none := assocFind_erase_same a.toNat m.cells hcells
  have hplain' : assocFind a.toNat (m.change (.refuse a)).conduct = none := hplain
  rw [BufMem.answer_plain _ _ _ hplain', hgone]

/-- R242: reads of a silent address are not answered. -/
theorem BufMem.answer_silenced (m : BufMem) (slot : Nat) (a : Word) :
    (m.change (.setConduct a (some .silent))).answer slot a.toNat = .silent := by
  simp [BufMem.answer, BufMem.change, assocFind_insert_same]

/-- R63: a byte that another agent is changing answers each read with that read's own draw (log entry 2). -/
theorem BufMem.answer_unsettled (m : BufMem) (slot : Nat) (a : Word) :
    (m.change (.setConduct a (some .unsettled))).answer slot a.toNat = .byte (Config.draw slot) := by
  simp [BufMem.answer, BufMem.change, assocFind_insert_same]

/-- Settles O45: the changed address by the lemma of its change, every other one by `BufMem.answer_change_other`. -/
theorem environmentChangesOneAddress : Obligations.EnvironmentChangesOneAddress := by
  refine ⟨BufMem.change_wf, fun m slot x a b hwf => ?_⟩
  have hplain := BufMem.conduct_settled hwf a
  refine ⟨?_, BufMem.answer_setByte_same _ slot a b hplain,
    BufMem.answer_refuse_same (BufMem.change_wf m _ hwf) slot hplain, BufMem.answer_silenced m slot a,
    BufMem.answer_unsettled m slot a, fun hx k => ⟨?_, ?_, ?_⟩⟩
  · by_cases hx : x = a.toNat
    · rw [if_pos hx, hx]
      exact BufMem.answer_plain _ slot a.toNat hplain
    · rw [if_neg hx]
      exact m.answer_change_other (.setConduct a none) slot hx
  · exact m.answer_change_other (.setByte a b) slot hx
  · exact m.answer_change_other (.refuse a) slot hx
  · exact m.answer_change_other (.setConduct a (some k)) slot hx

end Sys2Proof.Machine
end

section
/-! PROOFS. Byte order (spec 20_memory.md R53, R54, 41_length_dispatch.md R133): the bits of an assembled word, and its
halves. -/

namespace Sys2Proof.Machine

theorem assemble_cons (b : Byte) (bs : List Byte) : assemble (b :: bs) = b.setWidth 64 ||| (assemble bs <<< 8) := rfl

/-- R53: bit `j` of an assembled word is bit `j mod 8` of byte `j / 8`, and 0 where there is no such byte. -/
theorem assemble_getLsbD (bs : List Byte) {j : Nat} (hj : j < 64) :
    (assemble bs).getLsbD j = ((bs[j / 8]?).getD 0).getLsbD (j % 8) := by
  induction bs generalizing j with
  | nil => simp [assemble]
  | cons b bs ih =>
    rw [assemble_cons, BitVec.getLsbD_or, BitVec.getLsbD_setWidth, BitVec.getLsbD_shiftLeft]
    by_cases h8 : j < 8
    · have hdiv : j / 8 = 0 := by omega
      have hmod : j % 8 = j := by omega
      simp [hj, h8, hdiv, hmod]
    · have hdiv : j / 8 = (j - 8) / 8 + 1 := by omega
      have hmod : j % 8 = (j - 8) % 8 := by omega
      have hbyte : b.getLsbD j = false := BitVec.getLsbD_of_ge b j (by omega)
      rw [ih (by omega), hdiv, hmod, List.getElem?_cons_succ, hbyte]
      simp [hj, h8]

/-- R54: byte `k` of at most eight stands in the bits `8k+7 : 8k`, with zeros above the last. -/
theorem assemble_extract_byte {bs : List Byte} (h : bs.length ≤ 8) (k : Nat) :
    (assemble bs).extractLsb' (8 * k) 8 = (bs[k]?).getD 0 := by
  apply BitVec.eq_of_getLsbD_eq
  intro i hi
  rw [BitVec.getLsbD_extractLsb']
  by_cases hk : k < 8
  · have hdiv : (8 * k + i) / 8 = k := by omega
    have hmod : (8 * k + i) % 8 = i := by omega
    rw [assemble_getLsbD bs (by omega), hdiv, hmod]
    simp [hi]
  · have habove : (assemble bs).getLsbD (8 * k + i) = false := BitVec.getLsbD_of_ge _ _ (by omega)
    have hnone : bs[k]? = none := List.getElem?_eq_none (by omega)
    simp [habove, hnone]

/-- R133: the low half of an assembled word is assembled from its first four bytes. -/
theorem lo32_assemble (bs : List Byte) : lo32 (assemble bs) = lo32 (assemble (bs.take 4)) := by
  apply BitVec.eq_of_getLsbD_eq
  intro i hi
  rw [lo32, lo32, BitVec.getLsbD_extractLsb', BitVec.getLsbD_extractLsb', Nat.zero_add,
    assemble_getLsbD bs (by omega), assemble_getLsbD (bs.take 4) (by omega), List.getElem?_take_of_lt (by omega)]

/-- R133: the high half of an assembled word is assembled from the bytes after the first four. -/
theorem hi32_assemble (bs : List Byte) : hi32 (assemble bs) = lo32 (assemble (bs.drop 4)) := by
  apply BitVec.eq_of_getLsbD_eq
  intro i hi
  have hdiv : (32 + i) / 8 = 4 + i / 8 := by omega
  have hmod : (32 + i) % 8 = i % 8 := by omega
  rw [hi32, lo32, BitVec.getLsbD_extractLsb', BitVec.getLsbD_extractLsb', Nat.zero_add,
    assemble_getLsbD bs (by omega), assemble_getLsbD (bs.drop 4) (by omega), List.getElem?_drop, hdiv, hmod]

/-- Settles O55: the halves are `lo32_assemble` and `hi32_assemble`, each byte's place is `assemble_extract_byte`. -/
theorem assemblyIsLittleEndian : Obligations.AssemblyIsLittleEndian :=
  ⟨fun bs _ => ⟨lo32_assemble bs, hi32_assemble bs⟩, fun _ k h => assemble_extract_byte h k⟩

end Sys2Proof.Machine
end

section
/-! PROOFS. The frame of a command's step (spec 20_memory.md R59, 43_finalization_commands.md R188): no command writes memory,
an operand register or an agent, and no agent but the environment writes memory. -/

namespace Sys2Proof.Machine

theorem SameOutside.refl (s : State) : SameOutside s s :=
  ⟨rfl, rfl, rfl, rfl, rfl, rfl, rfl, rfl, rfl, fun _ _ => rfl⟩

/-- The registers that a sequencer step may write: none of them is an operand register or the environment's. -/
theorem SameOutside.of_core_writes (s : State) (acc : Quad Word) (tail : Word × Word) (blk : BitVec 58) (phase : Phase)
    (status result0 result1 faddr : Word) (draws : Nat) :
    SameOutside s { s with acc, tail, blk, phase, status, result0, result1, faddr, draws } :=
  ⟨rfl, rfl, rfl, rfl, rfl, rfl, rfl, rfl, rfl, fun _ _ => rfl⟩

theorem sameOutside_faultEntry (k : Cause) (f : Word) (s : State) : SameOutside s (faultEntry k f s) :=
  .of_core_writes ..

theorem sameOutside_checkStep (s : State) : SameOutside s (checkStep s) := by
  rcases checkStep_cases s with ⟨k, hc⟩ | ⟨-, -, hc⟩ <;> rw [hc]
  · exact sameOutside_faultEntry k 0 s
  · exact .of_core_writes ..

theorem sameOutside_absorbWords (c : Cfg) (i : Instr) (ws : List Word) (s : State) :
    SameOutside s (absorbWords c i ws s.takeSlots) :=
  .of_core_writes ..

theorem sameOutside_finishWords (c : Cfg) (i : Instr) (ws : List Word) (s : State) :
    SameOutside s (finishWords c i ws s.takeSlots) :=
  .of_core_writes ..

/-- R59, R188: every step of a command leaves what is outside CORE's own registers as it was. -/
theorem commandStep_sameOutside {c : Cfg} {i : Instr} {s t : State} (h : commandStep c i s = .next t) :
    SameOutside s t := by
  rcases commandStep_next h with ⟨-, rfl⟩ | ⟨-, rfl⟩ | ⟨-, rfl⟩ | ⟨-, ws, -, rfl⟩ | ⟨-, ws, -, rfl⟩ | ⟨-, a, rfl⟩ |
    ⟨-, rfl⟩
  · exact .refl _
  · exact sameOutside_checkStep s
  · exact .of_core_writes ..
  · exact sameOutside_absorbWords c i ws s
  · exact sameOutside_finishWords c i ws s
  · exact .of_core_writes ..
  · exact .refl _

theorem sequencerTurn_sameOutside {s t : State} (h : sequencerTurn s = .next t) : SameOutside s t := by
  rcases sequencerTurn_next h with ⟨-, rfl⟩ | ⟨-, rfl⟩ | ⟨i, -, hstep⟩
  · exact .refl _
  · exact sameOutside_checkStep s
  · exact commandStep_sameOutside hstep

/-- A host write is to a register, never to memory (R31). -/
theorem hostWrite_mem (n : Nat) (v : Word) (s : State) : (hostWrite n v s).mem = s.mem := by
  rcases hostWrite_cases n v s with hc | ⟨-, -, hc⟩ | ⟨-, -, hc⟩ | ⟨-, -, -, hc⟩ <;> rw [hc]
  · rfl
  · rfl
  · obtain ⟨-, -, -, -, -, -, -, -, -, hmem, -⟩ := writeOperand_frame n v s
    exact hmem

theorem hostTurn_mem (k : Nat) (s : State) : (hostTurn k s).mem = s.mem := by
  rcases hostTurn_cases k s with hc | ⟨a, n, v, hc⟩ | ⟨a, hc⟩ <;> rw [hc]
  · exact hostWrite_mem n v (s.withHost k a)
  · rfl

/-- No agent's move but the environment's changes the memory. -/
theorem takeTurn_mem {x : Turn} {s t : State} (hx : ∀ e, x ≠ .environment e) (h : takeTurn x s = .next t) :
    t.mem = s.mem := by
  cases x with
  | sequencer => exact (sequencerTurn_sameOutside h).mem
  | host k =>
    obtain rfl : hostTurn k s = t := by simpa [takeTurn] using h
    exact hostTurn_mem k s
  | reset =>
    obtain rfl : coreReset s = t := by simpa [takeTurn] using h
    rfl
  | environment e => exact absurd rfl (hx e)

/-- The default turn is never the environment's (log entry 7). -/
theorem defaultTurn_ne_environment (s : State) (e : EnvChange) : defaultTurn s ≠ some (.environment e) := by
  rw [defaultTurn]
  split <;> simp

/-- R59: only a change made by the environment itself changes the memory. -/
theorem step_mem {s t : State} (h : step s = .next t) (hne : ∀ e ts, s.turns ≠ .environment e :: ts) :
    t.mem = s.mem := by
  cases hts : s.turns with
  | cons x ts =>
    have hx : ∀ e, x ≠ .environment e := fun e he => hne e ts (he ▸ hts)
    rw [step_turn hts] at h
    exact takeTurn_mem (s := s.withTurns ts) hx h
  | nil =>
    rw [step, hts] at h
    cases hd : defaultTurn s with
    | some x =>
      have hx : ∀ e, x ≠ .environment e := fun e he => defaultTurn_ne_environment s e (he ▸ hd)
      rw [hd] at h
      exact takeTurn_mem hx h
    | none =>
      rw [hd] at h
      obtain rfl : s = t := by simpa using h
      rfl

/-- Settles O27: a command's step by `commandStep_sameOutside`, a step of the machine by `step_mem`. -/
theorem noCommandWritesOutsideCore : Obligations.NoCommandWritesOutsideCore := by
  refine ⟨fun i s t h => ?_, fun s t h hne => ?_⟩
  · rw [exec_eq] at h
    exact commandStep_sameOutside h
  · have hmem := step_mem h hne
    exact ⟨hmem, fun slot a => by rw [hmem]⟩

end Sys2Proof.Machine
end

section
/-! PROOFS. The reading steps by what the memory answers (spec 20_memory.md R57, R58, R63): a step whose every byte is
answered goes on, and a step reads the declared buffer and nothing else. -/

namespace Sys2Proof.Machine

/-- Settles O21: `readOrder_in_buffer` is the bound of every address. -/
theorem readsStayInsideTheBuffer : Obligations.ReadsStayInsideTheBuffer := fun _ h _ ha => readOrder_in_buffer h ha

/-! ### Every byte answered -/

/-- R174: the writes of FINISH are those of a command that is done. -/
theorem commandDone_finishWords (c : Cfg) (i : Instr) (ws : List Word) (s : State) :
    CommandDone (finishResults c i ws s) s (finishWords c i ws s.takeSlots) where
  same := sameOutside_finishWords c i ws s
  quiet := ⟨rfl, rfl, rfl⟩
  result0 := rfl
  result1 := rfl
  faddr := rfl
  busy := statusBusy_finished s.status
  done := statusDone_finished s.status
  fault := statusFault_finished s.status
  code := statusCause_finished s.status
  ovr := statusOvr_finished s.status
  reserved := statusReserved_finished s.status
  phase := rfl

/-- R154: if every byte that ABSORB reads is answered, settled or not, it writes some eight words' block. -/
theorem commandStep_absorb_answered {c : Cfg} {i : Instr} {s : State} (hp : s.phase = .absorb)
    (h : ∀ a ∈ readOrder s, a < 2 ^ 64 ∧ s.mem.answers a) :
    ∃ ws, commandStep c i s = .next (absorbWords c i ws s.takeSlots) := by
  obtain ⟨bs, hbs⟩ := readBytes_ok (slot := s.draws) h
  exact ⟨wordsOf blockPlan bs, by simp [commandStep_reading (.inl hp), hbs, hp]⟩

/-- R174: if every byte that FINISH reads is answered, settled or not, it writes the result of some tail words. -/
theorem commandStep_finish_answered {c : Cfg} {i : Instr} {s : State} (hp : s.phase = .finish)
    (h : ∀ a ∈ readOrder s, a < 2 ^ 64 ∧ s.mem.answers a) :
    ∃ ws, commandStep c i s = .next (finishWords c i ws s.takeSlots) := by
  obtain ⟨bs, hbs⟩ := readBytes_ok (slot := s.draws) h
  exact ⟨wordsOf (tailPlan (tailLength s.bufLen)) bs, by simp [commandStep_reading (.inr hp), hbs, hp]⟩

/-- Settles O28: with every byte answered, ABSORB and FINISH make their writes, which raise no fault. -/
theorem unsettledBytesRaiseNoFault : Obligations.UnsettledBytesRaiseNoFault := by
  intro i s h
  rw [exec_eq]
  refine ⟨fun hp => ?_, fun hp => ?_⟩
  · obtain ⟨ws, hws⟩ := commandStep_absorb_answered (c := Config.cfg) (i := i) hp h
    exact ⟨_, hws, sameOutside_absorbWords _ i ws s, rfl, rfl⟩
  · obtain ⟨ws, hws⟩ := commandStep_finish_answered (c := Config.cfg) (i := i) hp h
    exact ⟨_, _, hws, commandDone_finishWords _ i ws s⟩

/-! ### The same step over another memory -/

/-- The same state over another buffer memory. -/
def State.withMem (m : BufMem) (s : State) : State := { s with mem := m }

/-- CHECK reads no memory (R203). -/
theorem checkStep_withMem (m : BufMem) (s : State) : checkStep (s.withMem m) = (checkStep s).withMem m := by
  have hoperands : checkOperands (s.withMem m) = (checkOperands s).withMem m := by
    simp only [checkOperands, apply_ite (State.withMem m)]
    rfl
  have hcmd : (s.withMem m).cmd = s.cmd := rfl
  rw [checkStep, checkStep, hcmd, hoperands]
  cases decode s.cmd <;> rfl

/-- A reading step whose words, refusal or silence are given does the same over another memory, if its writes do. -/
theorem afterReads_withMem (m : BufMem) {r : Reading (List Word)} {k : List Word → State → State} {s t : State}
    (hk : ∀ ws u, k ws (u.withMem m) = (k ws u).withMem m) (h : afterReads r k s = .next t) :
    afterReads r k (s.withMem m) = .next (t.withMem m) := by
  rcases afterReads_next h with ⟨ws, rfl, rfl⟩ | ⟨a, rfl, rfl⟩ | ⟨rfl, rfl⟩
  · rw [afterReads_ok, ← hk]
    rfl
  · rfl
  · rfl

/-- R57: ABSORB and FINISH are the same over every memory that answers alike at the addresses they read. -/
theorem commandStep_reading_withMem {c : Cfg} {i : Instr} {s t : State} {m : BufMem}
    (hp : s.phase = .absorb ∨ s.phase = .finish)
    (hm : ∀ a ∈ readOrder s, ∀ slot, m.answer slot a = s.mem.answer slot a) (h : commandStep c i s = .next t) :
    commandStep c i (s.withMem m) = .next (t.withMem m) := by
  have hreads : readBytes (s.withMem m).mem (s.withMem m).draws (readOrder (s.withMem m)) =
      readBytes s.mem s.draws (readOrder s) := readBytes_congr hm
  rw [commandStep_reading hp] at h
  rw [commandStep_reading (s := s.withMem m) hp, hreads]
  refine afterReads_withMem m (fun ws u => ?_) h
  split <;> rfl

/-- R57: a command's step is the same over every memory that answers alike at the addresses the step reads. -/
theorem commandStep_withMem {c : Cfg} {i : Instr} {s t : State} {m : BufMem}
    (hm : ∀ a ∈ readOrder s, ∀ slot, m.answer slot a = s.mem.answer slot a) (h : commandStep c i s = .next t) :
    commandStep c i (s.withMem m) = .next (t.withMem m) := by
  cases hp : s.phase with
  | idle =>
    obtain rfl : s = t := by simpa [commandStep_idle hp] using h
    exact commandStep_idle hp
  | check =>
    obtain rfl : checkStep s = t := by simpa [commandStep_check hp] using h
    rw [commandStep_check (s := s.withMem m) hp, checkStep_withMem]
  | init =>
    obtain rfl : initStep c i s = t := by simpa [commandStep_init hp] using h
    exact commandStep_init hp
  | absorb => exact commandStep_reading_withMem (.inl hp) hm h
  | finish => exact commandStep_reading_withMem (.inr hp) hm h

/-- Settles O38: the addresses a step reads lie in the buffer (`readOrder_in_buffer`), and `commandStep_withMem` asks for
equal answers there only. -/
theorem onlyTheBufferMatters : Obligations.OnlyTheBufferMatters := by
  intro i s t m hinv hm h
  rw [exec_eq] at h ⊢
  refine commandStep_withMem (fun a ha slot => ?_) h
  obtain ⟨hlo, hhi⟩ := readOrder_in_buffer hinv ha
  exact hm slot a hlo hhi

end Sys2Proof.Machine
end

section
/-! PROOFS. The command word (spec 30_encoding.md R70 to R77): decoding and encoding are inverse to each other, and the words
that no command encodes to are the illegal ones. -/

namespace Sys2Proof

/-- The per-command facts of `Laws.EncodingFits`, for every command. -/
theorem encodingFits (i : Instr) : Laws.EncodingFits.Statement i := by
  cases i with
  | h32 => exact Laws.EncodingFits.h32
  | h64 => exact Laws.EncodingFits.h64
  | h64s => exact Laws.EncodingFits.h64s
  | h64ss => exact Laws.EncodingFits.h64ss
  | h128 => exact Laws.EncodingFits.h128
  | h128s => exact Laws.EncodingFits.h128s

/-- R72, R76: the word of a command decodes to that command. -/
theorem decode_encode (i : Instr) : decode (encode i) = .command i := by
  obtain ⟨-, -, -, hdecode⟩ := encodingFits i
  exact hdecode

/-- R70: with the reserved bits zero a command word is its command number. -/
theorem eq_setWidth_opField {w : Word} (h : rsvField w = 0) : w = (opField w).setWidth 64 := by
  have hrsv : (rsvField w).toNat = 0 := by rw [h]; rfl
  have hw := w.isLt
  simp only [rsvField, BitVec.extractLsb'_toNat, Nat.shiftRight_eq_div_pow] at hrsv
  apply BitVec.eq_of_toNat_eq
  simp only [opField, BitVec.toNat_setWidth, BitVec.extractLsb'_toNat, Nat.shiftRight_zero]
  omega

/-- The command numbers are the words of the table (R72): the case split of `commandOf`. -/
theorem setWidth_of_commandOf {op : BitVec 3} {i : Instr} (h : commandOf op = .command i) : op.setWidth 64 = encode i := by
  unfold commandOf at h
  split_ifs at h with hop hop hop hop hop hop
  all_goals
    cases h
    rw [hop]
    rfl

/-- R72: no word but a command's own decodes to it. -/
theorem eq_encode_of_decode {w : Word} {i : Instr} (h : decode w = .command i) : w = encode i := by
  unfold decode at h
  split at h
  next hrsv => rw [eq_setWidth_opField hrsv, setWidth_of_commandOf h]
  next => cases h

/-- R72: a word selects a command exactly when it is the command's word. -/
theorem decode_eq_command_iff {w : Word} {i : Instr} : decode w = .command i ↔ w = encode i :=
  ⟨eq_encode_of_decode, fun h => h ▸ decode_encode i⟩

/-- R75: a word is illegal exactly when it is no command's word. -/
theorem decode_eq_illegalCommand_iff {w : Word} : decode w = .illegalCommand ↔ ∀ i, w ≠ encode i := by
  simp only [ne_eq, ← decode_eq_command_iff]
  cases decode w with
  | command i => simp
  | illegalCommand => simp

/-- The mask of every row of the table of R72 is all ones. -/
theorem and_rowMask (w : Word) : w &&& 0xFFFFFFFFFFFFFFFF = w := BitVec.and_allOnes

/-- Settles O8: under the all-ones mask the two clauses are `decode_eq_command_iff` and `decode_eq_illegalCommand_iff`. -/
theorem decodeSelectsTheTableRow : Obligations.DecodeSelectsTheTableRow := by
  refine ⟨fun w i => ?_, fun w => ?_, rfl, rfl, rfl, rfl, rfl, rfl⟩
  · rw [and_rowMask, decode_eq_command_iff]
  · rw [and_rowMask, decode_eq_illegalCommand_iff]

/-- Settles O7: the six words are the commands' own; 6 is no command number, and the two other words have a
reserved bit set. -/
theorem tableWordsDecode : Obligations.TableWordsDecode :=
  ⟨decode_encode .h32, decode_encode .h64, decode_encode .h64s, decode_encode .h64ss, decode_encode .h128,
    decode_encode .h128s, by decide, by decide, by decide⟩

end Sys2Proof
end

section
/-! PROOFS. The statements of a host script (spec 30_encoding.md R78, R79): what each comes to in a host's turn, and the
pseudo-instruction as the run of its writes. -/

namespace Sys2Proof.Machine

/-! ### One statement -/

/-- A `WR` statement at the head of host `k`'s script is one host write (R31, R78). -/
theorem hostTurn_wr {s : State} {k n : Nat} {v : Word} {rest : List HostStmt} {seen : List Observation}
    (h : s.hosts[k]? = some ⟨.wr n v :: rest, seen⟩) :
    hostTurn k s = hostWrite n v (s.withHost k ⟨rest, seen⟩) := by
  simp [hostTurn, h]

/-- A `WAIT` at the head of host `k`'s script reads `STATUS` and stays while `BUSY` reads 1 (R78). -/
theorem hostTurn_wait {s : State} {k : Nat} {rest : List HostStmt} {seen : List Observation}
    (h : s.hosts[k]? = some ⟨.wait :: rest, seen⟩) :
    hostTurn k s =
      s.withHost k ⟨if statusBusy s.status then .wait :: rest else rest, seen ++ [.waitRead s.status]⟩ := by
  simp [hostTurn, h]

/-- Settles O13: taking the turn off leaves hosts and registers as they were, and the three moves are `hostTurn_wr`,
`hostTurn_rd` and `hostTurn_wait`. -/
theorem hostTurnPerformsTheStatement : Obligations.HostTurnPerformsTheStatement := by
  intro s k rest seen ts hts
  have hstep : step s = .next (hostTurn k (s.withTurns ts)) := step_turn hts
  refine ⟨fun n v hk => ?_, fun n hk => ?_, fun hk => ?_⟩
  · rw [hstep, hostTurn_wr (s := s.withTurns ts) hk]
    rfl
  · rw [hstep, hostTurn_rd (s := s.withTurns ts) hk]
    rfl
  · rw [hstep, hostTurn_wait (s := s.withTurns ts) hk]
    rfl

/-! ### The script of a lone host of an idle CORE

With no turn fixed and no command running the lone host has every step (log entry 7). -/

/-- CORE is idle, no turn is fixed, and its one host has the statements `script` before it and the record `seen`. -/
structure State.serves (script : List HostStmt) (seen : List Observation) (s : State) : Prop where
  phase : s.phase = .idle
  notBusy : statusBusy s.status = false
  turns : s.turns = []
  hosts : s.hosts = [⟨script, seen⟩]

section
variable {s : State} {stmt : HostStmt} {rest : List HostStmt} {seen : List Observation}

/-- The lone host performs the first statement of its script. -/
theorem State.serves.step_eq (h : s.serves (stmt :: rest) seen) : step s = .next (hostTurn 0 s) := by
  have hnext : nextHost s = some 0 := by simp [nextHost, h.hosts]
  rw [step_idle h.turns h.phase, hnext]

theorem State.serves.head (h : s.serves (stmt :: rest) seen) : s.hosts[0]? = some ⟨stmt :: rest, seen⟩ := by
  rw [h.hosts]
  rfl

/-- A move that changes only the host's own script and record leaves CORE as ready as before. -/
theorem State.serves.withHost {script : List HostStmt} {seen' : List Observation} (h : s.serves script seen) :
    (s.withHost 0 ⟨rest, seen'⟩).serves rest seen' where
  phase := h.phase
  notBusy := h.notBusy
  turns := h.turns
  hosts := by rw [State.withHost_hosts, h.hosts]; rfl

theorem State.serves.step_wr {n : Nat} {v : Word} (h : s.serves (.wr n v :: rest) seen) :
    step s = .next (hostWrite n v (s.withHost 0 ⟨rest, seen⟩)) := by
  rw [h.step_eq, hostTurn_wr h.head]

theorem State.serves.step_rd {n : Nat} (h : s.serves (.rd n :: rest) seen) :
    step s = .next (s.withHost 0 ⟨rest, seen ++ [.rd n (hostRead n s)]⟩) := by
  rw [h.step_eq, hostTurn_rd h.head]

/-- With `BUSY` 0 one read of `STATUS` ends a `WAIT`. -/
theorem State.serves.step_wait (h : s.serves (.wait :: rest) seen) :
    step s = .next (s.withHost 0 ⟨rest, seen ++ [.waitRead s.status]⟩) := by
  rw [h.step_eq, hostTurn_wait h.head, h.notBusy]
  rfl

end

/-! ### The operand writes -/

/-- The stores of a list of operand writes, given as register numbers and values, in their order (R31 (c)). -/
def storeOperands (ws : List (Nat × Word)) (s : State) : State := ws.foldl (fun u w => writeOperand w.1 w.2 u) s

theorem storeOperands_cons (w : Nat × Word) (ws : List (Nat × Word)) (s : State) :
    storeOperands (w :: ws) s = storeOperands ws (writeOperand w.1 w.2 s) := rfl

theorem withHost_withHost (k : Nat) (a b : HostAgent) (s : State) : (s.withHost k a).withHost k b = s.withHost k b := by
  simp [State.withHost]

/-- A store touches no host, so the host's own move may come before it or after. -/
theorem writeOperand_withHost (n : Nat) (v : Word) (k : Nat) (a : HostAgent) (s : State) :
    writeOperand n v (s.withHost k a) = (writeOperand n v s).withHost k a := by
  unfold writeOperand
  split <;> rfl

theorem storeOperands_withHost (ws : List (Nat × Word)) (k : Nat) (a : HostAgent) (s : State) :
    storeOperands ws (s.withHost k a) = (storeOperands ws s).withHost k a := by
  induction ws generalizing s with
  | nil => rfl
  | cons w ws ih => rw [storeOperands_cons, writeOperand_withHost, ih, storeOperands_cons]

section
variable {s : State} {script rest : List HostStmt} {seen : List Observation}

theorem State.serves.writeOperand (h : s.serves script seen) (n : Nat) (v : Word) :
    (writeOperand n v s).serves script seen := by
  obtain ⟨-, -, -, hphase, -, hstatus, -, -, -, -, hhosts, hturns, -⟩ := writeOperand_frame n v s
  exact ⟨hphase.trans h.phase, by rw [hstatus, h.notBusy], hturns.trans h.turns, hhosts.trans h.hosts⟩

theorem State.serves.storeOperands (h : s.serves script seen) (ws : List (Nat × Word)) :
    (storeOperands ws s).serves script seen := by
  induction ws generalizing s with
  | nil => exact h
  | cons w ws ih => exact ih (h.writeOperand w.1 w.2)

/-- A lone host's operand writes store their values, one in each step. -/
theorem State.serves.runSteps_storeOperands {ws : List (Nat × Word)}
    (h : s.serves (ws.map (fun w => .wr w.1 w.2) ++ rest) seen) (hws : ∀ w ∈ ws, 1 ≤ w.1 ∧ w.1 ≤ 5) :
    runSteps ws.length s = .next (Machine.storeOperands ws (s.withHost 0 ⟨rest, seen⟩)) := by
  induction ws generalizing s with
  | nil =>
    have hself : s.withHost 0 ⟨rest, seen⟩ = s := by
      have hhosts : s.hosts = [⟨rest, seen⟩] := h.hosts
      rw [State.withHost, hhosts, List.set_cons_zero, ← hhosts]
    rw [hself]
    rfl
  | cons w ws ih =>
    obtain ⟨h1, h5⟩ := hws w (by simp)
    rw [List.map_cons, List.cons_append] at h
    have hrest := h.withHost (rest := ws.map (fun w => .wr w.1 w.2) ++ rest) (seen' := seen)
    have hstep := h.step_wr
    rw [hostWrite_operand h1 h5 hrest.notBusy] at hstep
    rw [List.length_cons, runSteps_succ hstep, ih (hrest.writeOperand w.1 w.2) (fun x hx => hws x (by simp [hx])),
      ← writeOperand_withHost, withHost_withHost, storeOperands_cons]

end

/-! ### The pseudo-instruction -/

/-- The operand writes of a pseudo-instruction: `BUF_BASE`, `BUF_LEN`, `BUF_CAP`, then the seeds its command names (R79). -/
def pseudoOperands (i : Instr) (base len cap s0 s1 : Word) : List (Nat × Word) :=
  (1, base) :: (2, len) :: (3, cap) ::
    if i = .h64s then [(4, s0)] else if i = .h64ss ∨ i = .h128s then [(4, s0), (5, s1)] else []

section
variable (i : Instr) (base len cap s0 s1 : Word)

/-- R79: the expansion is the operand writes, then the write of the command word to `CMD`. -/
theorem expandPseudo_eq : expandPseudo i base len cap s0 s1 =
    (pseudoOperands i base len cap s0 s1).map (fun w => .wr w.1 w.2) ++ [.wr 0 (encode i)] := by
  cases i <;> rfl

theorem pseudoOperands_range : ∀ w ∈ pseudoOperands i base len cap s0 s1, 1 ≤ w.1 ∧ w.1 ≤ 5 := by
  cases i <;> simp [pseudoOperands]

/-- The state once the command is issued: the operands stored, the command accepted (R43, R79). -/
def State.issued (s : State) : State :=
  acceptCommand (encode i) (storeOperands (pseudoOperands i base len cap s0 s1) s)

/-- R79: the named operands are in their registers, the command is accepted, and everything else is as it was. -/
theorem State.issued_eq (s : State) : s.issued i base len cap s0 s1 =
    { s with
      cmd := encode i
      bufBase := base
      bufLen := len
      bufCap := cap
      seed0 := if i = .h64s ∨ i = .h64ss ∨ i = .h128s then s0 else s.seed0
      seed1 := if i = .h64ss ∨ i = .h128s then s1 else s.seed1
      status := 0x1
      result0 := 0
      result1 := 0
      faddr := 0
      phase := .check } := by
  cases i <;> simp [State.issued, pseudoOperands, storeOperands, writeOperand, acceptCommand, statusAccepted]

variable {i base len cap s0 s1}

/-- R79: a lone host's pseudo-instruction issues its command, one write in each step, and leaves the rest of the script. -/
theorem State.serves.runSteps_expandPseudo {s : State} {rest : List HostStmt} {seen : List Observation}
    (h : s.serves (expandPseudo i base len cap s0 s1 ++ rest) seen) :
    runSteps (expandPseudo i base len cap s0 s1).length s =
      .next ((s.withHost 0 ⟨rest, seen⟩).issued i base len cap s0 s1) := by
  have hscript := h
  rw [expandPseudo_eq, List.append_assoc, List.singleton_append] at hscript
  have hoperands := hscript.runSteps_storeOperands (pseudoOperands_range i base len cap s0 s1)
  have hready := (hscript.withHost (rest := .wr 0 (encode i) :: rest) (seen' := seen)).storeOperands
    (pseudoOperands i base len cap s0 s1)
  have haccept := hready.step_wr
  rw [hostWrite_accept hready.withHost.notBusy, ← storeOperands_withHost, withHost_withHost] at haccept
  rw [expandPseudo_eq, List.length_append, List.length_map, runSteps_add hoperands]
  exact runSteps_succ haccept

end

/-- Settles O15: the run of the writes is `State.serves.runSteps_expandPseudo`, what they leave is `State.issued_eq`. -/
theorem pseudoInstructionIssuesItsCommand : Obligations.PseudoInstructionIssuesItsCommand := by
  intro i base len cap s0 s1 seen s hphase hbusy hturns hhosts
  have hserves : s.serves (expandPseudo i base len cap s0 s1 ++ []) seen :=
    ⟨hphase, hbusy, hturns, by rw [List.append_nil, hhosts]⟩
  have hset : (s.withHost 0 ⟨[], seen⟩).hosts = [⟨[], seen⟩] := hserves.withHost.hosts
  rw [hserves.runSteps_expandPseudo, State.issued_eq, ← hset]
  rfl

end Sys2Proof.Machine
end

section
/-! PROOFS. A whole command over a readable buffer (spec 43_finalization_commands.md R187, 70_reset_and_hazards.md R240): the
absorber's loop block by block, and the closed form that FINISH leaves. -/

namespace Sys2Proof.Machine

/-! ### The pieces of a held buffer -/

/-- The end of a held byte list is held at its own address. -/
theorem bytesAt_drop {m : BufMem} {addr : Nat} {bs : List Byte} (h : bytesAt m addr bs) (off : Nat) :
    bytesAt m (addr + off) (bs.drop off) := fun k b hk slot => by
  rw [List.getElem?_drop] at hk
  rw [Nat.add_assoc]
  exact h (off + k) b hk slot

theorem lengthWord_of_bufferIs {s : State} {bs : List Byte} (h : s.bufferIs bs) : lengthWord bs = s.bufLen := by
  obtain ⟨hlen, -⟩ := h
  rw [lengthWord, hlen, BitVec.ofNat_toNat, BitVec.setWidth_eq]

/-- The buffer is a matter of the operand registers and the memory, which no sequencer step changes. -/
theorem SameOutside.bufferIs {s t : State} (h : SameOutside s t) {bs : List Byte} (hb : s.bufferIs bs) : t.bufferIs bs := by
  unfold State.bufferIs
  rwa [h.bufBase, h.bufLen, h.mem]

theorem SameOutside.trans {s t u : State} (h : SameOutside s t) (h' : SameOutside t u) : SameOutside s u where
  cmd := h'.cmd.trans h.cmd
  bufBase := h'.bufBase.trans h.bufBase
  bufLen := h'.bufLen.trans h.bufLen
  bufCap := h'.bufCap.trans h.bufCap
  seed0 := h'.seed0.trans h.seed0
  seed1 := h'.seed1.trans h.seed1
  hosts := h'.hosts.trans h.hosts
  turns := h'.turns.trans h.turns
  mem := h'.mem.trans h.mem
  bytes := fun slot a => (h'.bytes slot a).trans (h.bytes slot a)

/-! ### The absorber's loop -/

/-- The loop state of the closed form (R187): from `s` the command `i` has absorbed the first `n` blocks of `bs`. -/
structure AfterBlocks (c : Cfg) (i : Instr) (bs : List Byte) (s : State) (n : Nat) (t : State) : Prop where
  same : SameOutside s t
  status : t.status = s.status
  faddr : t.faddr = s.faddr
  acc : t.acc = absorbBlocks c i bs (initAcc c i (seedInit c i s.seed0 s.seed1) s.bufLen) n
  tail : 0 < n → t.tail = combine c i t.acc
  blk : t.blk.toNat = n
  phase : t.phase = if n = s.bufLen.toNat / 64 then .finish else .absorb

section
variable {c : Cfg} {i : Instr} {bs : List Byte} {s t : State} {n : Nat}

/-- R152, R153: INIT begins the loop. -/
theorem afterBlocks_initStep (hlong : 64 < s.bufLen.toNat) (hst : SameOutside s t) (hstatus : t.status = s.status)
    (hfaddr : t.faddr = s.faddr) : AfterBlocks c i bs s 0 (initStep c i t) where
  same := hst.trans (.of_core_writes ..)
  status := hstatus
  faddr := hfaddr
  acc := by
    show initAcc c i (seedInit c i t.seed0 t.seed1) t.bufLen = _
    rw [hst.seed0, hst.seed1, hst.bufLen]
    rfl
  tail := by omega
  blk := rfl
  phase := by
    rw [if_neg (by omega)]
    rfl

/-- The block counter reaches the number of blocks when the last one is absorbed, without wrapping on 58 bits. -/
theorem blk_succ_eq_nblkOf_iff {b : BitVec 58} {len : Word} (h : b.toNat < len.toNat / 64) :
    b + 1 = nblkOf len ↔ b.toNat + 1 = len.toNat / 64 := by
  have hn := nblkOf_toNat len
  have := (nblkOf len).isLt
  rw [← hn] at h ⊢
  exact ⟨fun hlast => by bv_omega, fun hlast => by bv_omega⟩

/-- R154: one ABSORB over a readable buffer takes the loop one block further. -/
theorem AfterBlocks.next_block (h : AfterBlocks c i bs s n t) (hbuf : s.bufferIs bs) (hn : n < s.bufLen.toNat / 64) :
    ∃ u, commandStep c i t = .next u ∧ AfterBlocks c i bs s (n + 1) u := by
  obtain ⟨hlen, hspace, hbytes⟩ := h.same.bufferIs hbuf
  rw [h.same.bufLen] at hlen hspace
  have hp : t.phase = .absorb := by rw [h.phase, if_neg (by omega)]
  have haddr : blockAddress t = t.bufBase.toNat + 64 * n := by rw [blockAddress, h.blk]
  have hread : fetchPlan t.mem t.draws (blockAddress t) blockPlan = .ok (blockWords bs n) := by
    have hin : ∀ e ∈ blockPlan, e.1 + e.2 ≤ (bs.drop (64 * n)).length := fun e he => by
      have := blockPlan_in e he
      rw [List.length_drop]
      omega
    rw [haddr]
    exact fetchPlan_bytesAt _ _ _ _ _ (bytesAt_drop hbytes _) hin (by rw [List.length_drop]; omega)
  have hstep : commandStep c i t = .next (absorbWords c i (blockWords bs n) t.takeSlots) := by
    rw [commandStep_absorb hp, absorbStep, hread, afterReads_ok]
  refine ⟨_, hstep, ?_⟩
  have hlast : t.blk + 1 = nblkOf t.bufLen ↔ n + 1 = s.bufLen.toNat / 64 := by
    rw [h.same.bufLen, blk_succ_eq_nblkOf_iff (by rwa [h.blk]), h.blk]
  exact {
    same := h.same.trans (sameOutside_absorbWords ..)
    status := h.status
    faddr := h.faddr
    acc := by
      show blockUpdate c i t.acc (blockWords bs n) = _
      rw [h.acc]
      rfl
    tail := fun _ => rfl
    blk := by
      have := h.blk
      show (t.blk + 1).toNat = n + 1
      have := s.bufLen.isLt
      bv_omega
    phase := by
      show (if t.blk + 1 = nblkOf t.bufLen then Phase.finish else .absorb) = _
      simp only [hlast] }

/-! ### FINISH leaves the closed form -/

theorem CommandDone.of_frame {r : Word × Word} {u : State} (hst : SameOutside s t) (hstatus : t.status = s.status)
    (hfaddr : t.faddr = s.faddr) (h : CommandDone r t u) : CommandDone r s u where
  same := hst.trans h.same
  quiet := h.quiet
  result0 := h.result0
  result1 := h.result1
  faddr := h.faddr.trans hfaddr
  busy := h.busy
  done := h.done
  fault := by rw [h.fault, hstatus]
  code := by rw [h.code, hstatus]
  ovr := by rw [h.ovr, hstatus]
  reserved := by rw [h.reserved, hstatus]
  phase := h.phase

/-- FINISH over a readable buffer completes with the output stage of the tail's words (R122, R174). -/
theorem commandStep_finish_bufferIs (hp : s.phase = .finish) (hbuf : s.bufferIs bs) {g : List Byte}
    (hg : g = bs.drop (tailOffset s.bufLen)) :
    ∃ u, commandStep c i s = .next u ∧ CommandDone (finishResults c i (planWords g (tailPlan g.length)) s) s u := by
  obtain ⟨hlen, hspace, hbytes⟩ := hbuf
  have hparts := tailOffset_add_tailLength s.bufLen
  have hl : g.length = tailLength s.bufLen := by rw [hg, List.length_drop]; omega
  have ha : tailAddress s + g.length ≤ 2 ^ 64 := by rw [tailAddress]; omega
  have hb : bytesAt s.mem (tailAddress s) g := hg ▸ bytesAt_drop hbytes _
  exact ⟨_, by rw [commandStep_finish hp, finishStep_bytesAt hl ha hb], commandDone_finishWords c i _ s⟩

/-- R125, R187: up to 64 bytes the tail is the whole buffer, and its seed-like inputs are the seed-integration words. -/
theorem finishResults_short (hbuf : s.bufferIs bs) (hshort : s.bufLen.toNat ≤ 64) :
    finishResults c i (planWords bs (tailPlan bs.length)) s = closedHash c i bs s.seed0 s.seed1 := by
  obtain ⟨hlen, -⟩ := hbuf
  have hlong : ¬isLong s.bufLen = true := by rw [isLong_iff]; omega
  rw [finishResults, tailLength_short _ hshort, tailSeeds, if_neg hlong, closedHash, if_pos (by omega), hlen]

/-- R125, R187: beyond, the seed-like inputs of the rest are the tail registers after the last block. -/
theorem AfterBlocks.finishResults_long (h : AfterBlocks c i bs s (s.bufLen.toNat / 64) t) (hbuf : s.bufferIs bs)
    (hlong : 64 < s.bufLen.toNat) {g : List Byte} (hg : g = bs.drop (tailOffset t.bufLen)) :
    finishResults c i (planWords g (tailPlan g.length)) t = closedHash c i bs s.seed0 s.seed1 := by
  have hlenw := lengthWord_of_bufferIs hbuf
  obtain ⟨hlen, -⟩ := hbuf
  rw [h.same.bufLen, tailOffset_long _ hlong, ← hlen] at hg
  have hl : tailLength t.bufLen = g.length := by
    rw [h.same.bufLen, tailLength_long _ hlong, hg, List.length_drop]
    omega
  have hseeds : tailSeeds c t.bufLen (seedInit c i t.seed0 t.seed1) t.tail =
      ⟨t.tail.1, t.tail.2, t.tail.2 + c.k1, t.tail.1⟩ := by
    rw [tailSeeds, h.same.bufLen, if_pos ((isLong_iff _).2 hlong)]
  rw [finishResults, hl, hseeds, h.tail (by omega), h.acc, h.same.seed1, closedHash, if_neg (by omega),
    hlenw, hlen, hg, hlen]

/-- R187: FINISH after the last block completes the command with the closed form's value. -/
theorem AfterBlocks.completes (h : AfterBlocks c i bs s (s.bufLen.toNat / 64) t) (hbuf : s.bufferIs bs)
    (hlong : 64 < s.bufLen.toNat) :
    ∃ u, commandStep c i t = .next u ∧ CommandDone (closedHash c i bs s.seed0 s.seed1) s u := by
  have hp : t.phase = .finish := by rw [h.phase, if_pos rfl]
  obtain ⟨u, hstep, hdone⟩ := commandStep_finish_bufferIs (c := c) (i := i) hp (h.same.bufferIs hbuf) rfl
  rw [h.finishResults_long hbuf hlong rfl] at hdone
  exact ⟨u, hstep, hdone.of_frame h.same h.status h.faddr⟩

end

/-! ### The run -/

section
variable {i : Instr} {bs : List Byte} {s t : State}

/-- With no turn fixed, the machine's step in a running command is that command's (log entry 7). -/
theorem step_command (hts : s.turns = []) (hp : s.phase ≠ .idle) (hi : decode s.cmd = .command i) :
    step s = commandStep Config.cfg i s := by
  rw [step_busy hts hp, sequencerTurn_command hi, exec_eq]

/-- R203: with a legal word and operands that pass, CHECK only goes on. -/
theorem checkStep_passed (hi : decode s.cmd = .command i) (hok : s.operandsChecked) :
    checkStep s = s.enterPhase (if isLong s.bufLen then .init else .finish) := by
  obtain ⟨hnull, hcap, hwrap⟩ := hok
  rw [checkStep_command hi]
  rcases checkOperands_cases s with ⟨hf, -⟩ | ⟨-, hf, -⟩ | ⟨-, -, hf, -⟩ | ⟨-, hc⟩
  · tauto
  · omega
  · omega
  · exact hc

theorem State.accepted.step_check (h : s.accepted i) :
    step s = .next (s.enterPhase (if isLong s.bufLen then .init else .finish)) := by
  obtain ⟨hp, hts, hi, hok⟩ := h
  rw [step_command hts (by simp [hp]) hi, commandStep_check hp, checkStep_passed hi hok]

/-- R154, R240: as many steps as blocks absorb them. -/
theorem AfterBlocks.run {n : Nat} (h : AfterBlocks Config.cfg i bs s 0 t) (hts : s.turns = [])
    (hi : decode s.cmd = .command i) (hbuf : s.bufferIs bs) (hn : n ≤ s.bufLen.toNat / 64) :
    ∃ u, runSteps n t = .next u ∧ AfterBlocks Config.cfg i bs s n u := by
  induction n with
  | zero => exact ⟨t, rfl, h⟩
  | succ n ih =>
    obtain ⟨u, hrun, hu⟩ := ih (by omega)
    obtain ⟨v, hstep, hv⟩ := hu.next_block hbuf (by omega)
    have hp : u.phase ≠ .idle := by
      rw [hu.phase]
      split <;> simp
    rw [← step_command (hu.same.turns.trans hts) hp (by rwa [hu.same.cmd])] at hstep
    exact ⟨v, by rw [runSteps_add hrun, runSteps_succ hstep]; rfl, hv⟩

/-- R183, R240: a command of at most 64 bytes is CHECK and FINISH. -/
theorem State.accepted.completes_short (h : s.accepted i) (hbuf : s.bufferIs bs) (hshort : s.bufLen.toNat ≤ 64) :
    ∃ t, runSteps 2 s = .next t ∧ CommandDone (closedHash Config.cfg i bs s.seed0 s.seed1) s t := by
  have hcheck := h.step_check
  obtain ⟨-, hts, hi, -⟩ := h
  rw [isLong, if_neg (by simpa using hshort)] at hcheck
  have hsame : SameOutside s (s.enterPhase .finish) := .of_core_writes ..
  obtain ⟨t, hstep, hdone⟩ := commandStep_finish_bufferIs (c := Config.cfg) (i := i) (s := s.enterPhase .finish) rfl
    (hsame.bufferIs hbuf) (g := bs) (by simp [tailOffset_short _ hshort])
  rw [finishResults_short (hsame.bufferIs hbuf) hshort] at hdone
  rw [← step_command (s := s.enterPhase .finish) hts (by simp) hi] at hstep
  exact ⟨t, by rw [runSteps_succ hcheck, runSteps_succ hstep]; rfl, hdone.of_frame hsame rfl rfl⟩

/-- R240: a longer command is CHECK, INIT, one ABSORB for each block, and FINISH. -/
theorem State.accepted.completes_long (h : s.accepted i) (hbuf : s.bufferIs bs) (hlong : 64 < s.bufLen.toNat) :
    ∃ t, runSteps (3 + s.bufLen.toNat / 64) s = .next t ∧
      CommandDone (closedHash Config.cfg i bs s.seed0 s.seed1) s t := by
  have hcheck := h.step_check
  obtain ⟨-, hts, hi, -⟩ := h
  rw [if_pos ((isLong_iff _).2 hlong)] at hcheck
  have hinit : step (s.enterPhase .init) = .next (initStep Config.cfg i (s.enterPhase .init)) := by
    rw [step_command (s := s.enterPhase .init) hts (by simp) hi, commandStep_init rfl]
  obtain ⟨u, hrun, hu⟩ := (afterBlocks_initStep (c := Config.cfg) (i := i) (bs := bs) hlong
    (t := s.enterPhase .init) (.of_core_writes ..) rfl rfl).run hts hi hbuf le_rfl
  obtain ⟨t, hfinish, hdone⟩ := hu.completes hbuf hlong
  have hp : u.phase ≠ .idle := by simp [hu.phase]
  rw [← step_command (hu.same.turns.trans hts) hp (by rwa [hu.same.cmd])] at hfinish
  refine ⟨t, ?_, hdone⟩
  rw [show 3 + s.bufLen.toNat / 64 = s.bufLen.toNat / 64 + 1 + 1 + 1 by omega, runSteps_succ hcheck,
    runSteps_succ hinit, runSteps_add hrun, runSteps_succ hfinish]
  rfl

/-- R187, R240: an accepted command over a readable buffer completes with the closed form's value. -/
theorem State.accepted.completes (h : s.accepted i) (hbuf : s.bufferIs bs) :
    ∃ t, runSteps (stepCount s.bufLen) s = .next t ∧
      CommandDone (closedHash Config.cfg i bs s.seed0 s.seed1) s t := by
  rw [stepCount]
  split
  next hlong => exact h.completes_long hbuf hlong
  next hshort => exact h.completes_short hbuf (by omega)

end

end Sys2Proof.Machine
end

section
/-! PROOFS. A transaction (spec 30_encoding.md R78, R79, 70_reset_and_hazards.md R236): a host issues a command, waits for
its end and reads the results. -/

namespace Sys2Proof.Machine

/-- R38: the fields of `STATUS` are the whole register. -/
theorem status_ext {a b : Word} (hbusy : statusBusy a = statusBusy b) (hdone : statusDone a = statusDone b)
    (hfault : statusFault a = statusFault b) (hovr : statusOvr a = statusOvr b) (hcause : statusCause a = statusCause b)
    (hreserved : statusReserved a = statusReserved b) : a = b := by
  apply BitVec.eq_of_getLsbD_eq
  intro j hj
  by_cases hlow : j < 4
  · interval_cases j
    · exact hbusy
    · exact hdone
    · exact hfault
    · exact hovr
  · by_cases hmid : j < 8
    · have hbit := congrArg (·.getLsbD (j - 4)) hcause
      simpa [statusCause, show j - 4 < 4 by omega, show 4 + (j - 4) = j by omega] using hbit
    · have hbit := congrArg (·.getLsbD (j - 8)) hreserved
      simpa [statusReserved, show j - 8 < 56 by omega, show 8 + (j - 8) = j by omega] using hbit

/-- A command that completes under the `STATUS` of its acceptance leaves `DONE` and nothing else (R43, R174). -/
theorem CommandDone.status {r : Word × Word} {s t : State} (h : CommandDone r s t) (hs : s.status = statusAccepted) :
    t.status = 0x2 := by
  refine status_ext (h.busy.trans ?_) (h.done.trans ?_) (h.fault.trans ?_) (h.ovr.trans ?_) (h.code.trans ?_)
    (h.reserved.trans ?_)
  · decide
  · decide
  all_goals
    rw [hs]
    decide

/-- R182: the closed form depends on the seeds that its command names, and on no other. -/
theorem closedHash_congr {c : Cfg} {i : Instr} {bs : List Byte} {s0 s1 v0 v1 : Word}
    (h0 : i = .h64s ∨ i = .h64ss ∨ i = .h128s → v0 = s0) (h1 : i = .h64ss ∨ i = .h128s → v1 = s1) :
    closedHash c i bs v0 v1 = closedHash c i bs s0 s1 := by
  have hinit : seedInit c i v0 v1 = seedInit c i s0 s1 := by
    cases i with
    | h32 | h64 | h128 => rfl
    | h64s | h64ss =>
      obtain rfl := h0 (by simp)
      rfl
    | h128s => rw [h0 (by simp), h1 (by simp)]
  have hout (g : List Word) (n : Nat) (q : Quad Word) : outputStage c i g n q v1 = outputStage c i g n q s1 := by
    cases i with
    | h32 | h64 | h64s | h128 | h128s => rfl
    | h64ss => rw [h1 (by simp)]
  simp only [closedHash, hinit, hout]

/-- R236: once its command has ended, the host's `WAIT` reads `STATUS` once, and the two reads return the results. -/
theorem State.serves.runSteps_readResults {s : State} {rest : List HostStmt} {seen : List Observation}
    (h : s.serves (.wait :: .rd 7 :: .rd 8 :: rest) seen) :
    runSteps 3 s = .next
      (s.withHost 0 ⟨rest, seen ++ [.waitRead s.status] ++ [.rd 7 s.result0] ++ [.rd 8 s.result1]⟩) := by
  have hrd7 : step (s.withHost 0 ⟨.rd 7 :: .rd 8 :: rest, seen ++ [.waitRead s.status]⟩) =
      .next (s.withHost 0 ⟨.rd 8 :: rest, seen ++ [.waitRead s.status] ++ [.rd 7 s.result0]⟩) := by
    rw [h.withHost.step_rd, withHost_withHost]
    rfl
  have hrd8 : step (s.withHost 0 ⟨.rd 8 :: rest, seen ++ [.waitRead s.status] ++ [.rd 7 s.result0]⟩) =
      .next (s.withHost 0 ⟨rest, seen ++ [.waitRead s.status] ++ [.rd 7 s.result0] ++ [.rd 8 s.result1]⟩) := by
    rw [h.withHost.step_rd, withHost_withHost]
    rfl
  rw [runSteps_succ h.step_wait, runSteps_succ hrd7, runSteps_succ hrd8]
  rfl

section
variable {i : Instr} {base len cap s0 s1 : Word}

/-- An issued command whose operands pass the tests of CHECK is accepted (R43, R203). -/
theorem State.accepted_issued {s : State} (hts : s.turns = []) (hnull : len = 0 ∨ base ≠ 0)
    (hcap : len.toNat ≤ cap.toNat) (hwrap : base.toNat + len.toNat ≤ 2 ^ 64) : (s.issued i base len cap s0 s1).accepted i := by
  rw [State.issued_eq]
  exact ⟨rfl, hts, decode_encode i, hnull, hcap, hwrap⟩

/-- The issued command's buffer is the one that the operands describe. -/
theorem State.bufferIs_issued {s : State} {bs : List Byte} (hlen : bs.length = len.toNat)
    (hwrap : base.toNat + len.toNat ≤ 2 ^ 64) (hbytes : bytesAt s.mem base.toNat bs) :
    (s.issued i base len cap s0 s1).bufferIs bs := by
  rw [State.issued_eq]
  exact ⟨hlen, hwrap, hbytes⟩

/-- R182: a seed register that the pseudo-instruction leaves as it was is one that its command does not use. -/
theorem closedHash_issued (s : State) (bs : List Byte) :
    closedHash Config.cfg i bs (s.issued i base len cap s0 s1).seed0 (s.issued i base len cap s0 s1).seed1 =
      closedHash Config.cfg i bs s0 s1 := by
  rw [State.issued_eq]
  exact closedHash_congr (fun h => if_pos h) (fun h => if_pos h)

/-- R187: an issued command over a readable buffer leaves the operands' value, and CORE idle for the host to go on. -/
theorem State.serves.issued_completes {s : State} {script : List HostStmt} {seen : List Observation} {bs : List Byte}
    (h : s.serves script seen) (hnull : len = 0 ∨ base ≠ 0) (hcap : len.toNat ≤ cap.toNat)
    (hwrap : base.toNat + len.toNat ≤ 2 ^ 64) (hlen : bs.length = len.toNat) (hbytes : bytesAt s.mem base.toNat bs) :
    ∃ t, runSteps (stepCount len) (s.issued i base len cap s0 s1) = .next t ∧ t.serves script seen ∧ t.status = 0x2 ∧
      (t.result0, t.result1) = closedHash Config.cfg i bs s0 s1 := by
  obtain ⟨t, hrun, hdone⟩ := (State.accepted_issued (i := i) (s0 := s0) (s1 := s1) h.turns hnull hcap hwrap).completes
    (State.bufferIs_issued hlen hwrap hbytes)
  rw [closedHash_issued] at hdone
  have hissued := State.issued_eq i base len cap s0 s1 s
  have hlenReg : (s.issued i base len cap s0 s1).bufLen = len := by rw [hissued]
  have hstatus : (s.issued i base len cap s0 s1).status = statusAccepted := by rw [hissued]; rfl
  have hturns : t.turns = [] := by rw [hdone.same.turns, hissued, ← h.turns]
  have hhosts : t.hosts = [⟨script, seen⟩] := by rw [hdone.same.hosts, hissued, ← h.hosts]
  rw [hlenReg] at hrun
  exact ⟨t, hrun, ⟨hdone.phase, hdone.busy, hturns, hhosts⟩, hdone.status hstatus,
    Prod.ext hdone.result0 hdone.result1⟩

end

/-- Settles O44: the writes issue the command (`State.serves.runSteps_expandPseudo`), which completes with the closed form's
value (`State.serves.issued_completes`), and the host reads it (`State.serves.runSteps_readResults`). -/
theorem aTransactionReturnsTheHash : Obligations.ATransactionReturnsTheHash := by
  intro i base len cap s0 s1 s bs hphase hbusy hturns hnull hcap hwrap hlen hbytes hhosts
  have hserves : s.serves (expandPseudo i base len cap s0 s1 ++ [.wait, .rd 7, .rd 8]) [] :=
    ⟨hphase, hbusy, hturns, hhosts⟩
  have hissue := hserves.runSteps_expandPseudo
  have hready := hserves.withHost (rest := [.wait, .rd 7, .rd 8]) (seen' := [])
  obtain ⟨t, hrun, ht, hstatus, hresult⟩ := hready.issued_completes (i := i) (s0 := s0) (s1 := s1) hnull hcap hwrap
    hlen hbytes
  have hread := ht.runSteps_readResults
  refine ⟨_, by rw [Nat.add_assoc, runSteps_add hissue, runSteps_add hrun, hread], ?_⟩
  rw [ht.withHost.hosts, hstatus, ← hresult]
  rfl

end Sys2Proof.Machine
end

section
/-! PROOFS. Rotate (spec 40_mix_primitives.md R91 to R93): both rotations are the library's `BitVec.rotateRight`, which moves
each bit by its amount; the laws follow from the bits, at every width. -/

namespace Sys2Proof.Machine

/-! ### One rotation at both widths -/

theorem rotr64_eq_rotateRight (x : Word) (r : Fin 64) : rotr64 x r = x.rotateRight r.val := by
  rw [rotr64, BitVec.rotateRight_def, Nat.mod_eq_of_lt r.isLt]
  split
  next h => simp [h]
  next => rfl

theorem rotr32_eq_rotateRight (x : Half) (r : Fin 32) : rotr32 x r = x.rotateRight r.val := by
  rw [rotr32, BitVec.rotateRight_def, Nat.mod_eq_of_lt r.isLt]
  split
  next h => simp [h]
  next => rfl

/-! ### The bits -/

section

variable {w : Nat} (x y : BitVec w)

/-- R91, R92: the bit law, for every amount. -/
theorem getLsbD_rotateRight_mod (r : Nat) {i : Nat} (hi : i < w) :
    (x.rotateRight r).getLsbD i = x.getLsbD ((i + r) % w) := by
  have hr : r % w < w := Nat.mod_lt r (by omega)
  rw [BitVec.getLsbD_rotateRight, ← Nat.add_mod_mod]
  by_cases hlow : i < w - r % w
  · have hmod : (i + r % w) % w = r % w + i := by rw [Nat.mod_eq_of_lt (by omega), Nat.add_comm]
    simp [hlow, hmod]
  · have hmod : (i + r % w) % w = i - (w - r % w) := by
      rw [Nat.mod_eq_sub_mod (by omega), Nat.mod_eq_of_lt (by omega)]
      omega
    simp [hlow, hi, hmod]

/-! ### The laws -/

/-- R93: rotations compose by adding amounts. -/
theorem rotateRight_rotateRight (r u : Nat) : (x.rotateRight r).rotateRight u = x.rotateRight (r + u) := by
  apply BitVec.eq_of_getLsbD_eq
  intro i hi
  have hmod : (i + u) % w < w := Nat.mod_lt _ (by omega)
  rw [getLsbD_rotateRight_mod _ u hi, getLsbD_rotateRight_mod x r hmod, getLsbD_rotateRight_mod x (r + u) hi,
    Nat.mod_add_mod, Nat.add_assoc, Nat.add_comm u r]

/-- R93: rotation distributes over exclusive or. -/
theorem rotateRight_xor (r : Nat) : (x ^^^ y).rotateRight r = x.rotateRight r ^^^ y.rotateRight r := by
  apply BitVec.eq_of_getLsbD_eq
  intro i hi
  simp only [BitVec.getLsbD_xor, getLsbD_rotateRight_mod _ r hi]

/-- The places a rotation takes its bits from, in order, are the places of the word in a rotated order. -/
theorem map_add_mod_range (w r : Nat) : (List.range w).map (fun i => (i + r) % w) = (List.range w).rotate r := by
  apply List.ext_getElem <;> simp [List.getElem_rotate]

/-- R93: rotation keeps the number of one bits. -/
theorem length_filter_rotateRight (r : Nat) :
    ((List.range w).filter (x.rotateRight r).getLsbD).length = ((List.range w).filter x.getLsbD).length := by
  calc ((List.range w).filter (x.rotateRight r).getLsbD).length
      = ((List.range w).filter (x.getLsbD ∘ fun i => (i + r) % w)).length := by
        congr 1
        exact List.filter_congr fun i hi => getLsbD_rotateRight_mod x r (List.mem_range.1 hi)
    _ = (((List.range w).rotate r).filter x.getLsbD).length := by
        rw [← map_add_mod_range, List.filter_map, List.length_map]
    _ = ((List.range w).filter x.getLsbD).length := ((List.rotate_perm _ r).filter _).length_eq

/-- R93: amounts add modulo the width. -/
theorem rotateRight_fin_add (r u : Fin w) : (x.rotateRight r.val).rotateRight u.val = x.rotateRight (r + u).val := by
  rw [rotateRight_rotateRight, Fin.val_add, BitVec.rotateRight_mod_eq_rotateRight]

/-- R93: the amount 0 is the identity. -/
theorem rotateRight_fin_zero [NeZero w] : x.rotateRight (0 : Fin w).val = x := by
  simp [BitVec.rotateRight_def]

/-- R93: amounts that add to the width cancel. -/
theorem rotateRight_fin_cancel [NeZero w] {r u : Fin w} (h : r + u = 0) :
    (x.rotateRight r.val).rotateRight u.val = x := by
  rw [rotateRight_fin_add, h, rotateRight_fin_zero]

/-- R93, all its laws at one width. -/
theorem rotateRight_fin_laws [NeZero w] (r u : Fin w) :
    x.rotateRight (0 : Fin w).val = x ∧
    (x.rotateRight r.val).rotateRight u.val = x.rotateRight (r + u).val ∧
    (x.rotateRight r.val).rotateRight (-r).val = x ∧ (x.rotateRight (-r).val).rotateRight r.val = x ∧
    (x ^^^ y).rotateRight r.val = x.rotateRight r.val ^^^ y.rotateRight r.val ∧
    ((List.range w).filter (x.rotateRight r.val).getLsbD).length = ((List.range w).filter x.getLsbD).length :=
  ⟨rotateRight_fin_zero x, rotateRight_fin_add x r u, rotateRight_fin_cancel x (add_neg_cancel r),
    rotateRight_fin_cancel x (neg_add_cancel r), rotateRight_xor x y r, length_filter_rotateRight x r⟩

end

/-- Settles O47: both rotations obey `getLsbD_rotateRight_mod`, and the amount 0 is their first case. -/
theorem rotateMovesEachBit : Obligations.RotateMovesEachBit := by
  refine ⟨fun x r => ⟨rfl, fun i hi => ?_⟩, fun x r => ⟨rfl, fun i hi => ?_⟩⟩
  · rw [rotr64_eq_rotateRight, getLsbD_rotateRight_mod x r hi]
  · rw [rotr32_eq_rotateRight, getLsbD_rotateRight_mod x r hi]

/-- Settles O48: `rotateRight_fin_laws` at the two widths. -/
theorem rotateLaws : Obligations.RotateLaws := by
  unfold Obligations.RotateLaws
  simp only [rotr64_eq_rotateRight, rotr32_eq_rotateRight]
  exact ⟨fun x y => rotateRight_fin_laws x y, fun x y => rotateRight_fin_laws x y⟩

end Sys2Proof.Machine
end

section
/-! PROOFS. The multiplicative avalanche (spec 40_mix_primitives.md R94 to R97): two rounds of a product with an odd word and
an exclusive or with the shifted word, each of them injective at every width. -/

namespace Sys2Proof.Machine

section

variable {w : Nat}

/-- The second half of a round of the avalanche, and the last line of the pair-blend's multiply-mix (R94, R98). -/
def xorShift (k : Nat) (x : BitVec w) : BitVec w := x ^^^ (x >>> k)

/-- One round of the avalanche (R94, R95). -/
def mixRound (m : BitVec w) (k : Nat) (x : BitVec w) : BitVec w := xorShift k (x * m)

/-- A shift that moves keeps no word but zero. -/
theorem eq_zero_of_ushiftRight_eq {k : Nat} (hk : 1 ≤ k) {d : BitVec w} (h : d >>> k = d) : d = 0 := by
  have hdiv : d.toNat / 2 ^ k = d.toNat := by
    rw [← Nat.shiftRight_eq_div_pow, ← BitVec.toNat_ushiftRight, h]
  by_contra hne
  have hpos : 0 < d.toNat := Nat.pos_of_ne_zero fun h0 => hne (BitVec.eq_of_toNat_eq (by simpa using h0))
  exact absurd hdiv (Nat.div_lt_self hpos (Nat.one_lt_two_pow (by omega))).ne

theorem xorShift_xor (k : Nat) (x y : BitVec w) : xorShift k (x ^^^ y) = xorShift k x ^^^ xorShift k y := by
  simp only [xorShift, BitVec.ushiftRight_xor_distrib]
  ac_rfl

/-- R97: two words of one image differ by a word that its shift keeps. -/
theorem xorShift_injective {k : Nat} (hk : 1 ≤ k) : Function.Injective (xorShift (w := w) k) := by
  intro x y h
  have hdiff : xorShift k (x ^^^ y) = 0 := by rw [xorShift_xor, h, BitVec.xor_self]; rfl
  have hkept : (x ^^^ y) >>> k = x ^^^ y := (BitVec.xor_eq_zero_iff.1 hdiff).symm
  exact BitVec.xor_eq_zero_iff.1 (eq_zero_of_ushiftRight_eq hk hkept)

/-- R97: an odd word is invertible modulo `2 ^ w`. -/
theorem mul_right_injective_of_odd {m : BitVec w} (hm : m.getLsbD 0 = true) : Function.Injective (· * m) := by
  intro x y h
  have hodd : Odd m.toNat := by
    rw [← BitVec.testBit_toNat, Nat.testBit_zero, decide_eq_true_eq] at hm
    exact Nat.odd_iff.2 hm
  have hcoprime : (2 ^ w).gcd m.toNat = 1 := Nat.Coprime.pow_left w (Nat.coprime_two_left.2 hodd)
  have hmul : x.toNat * m.toNat % 2 ^ w = y.toNat * m.toNat % 2 ^ w := by
    simpa only [BitVec.toNat_mul] using congrArg BitVec.toNat h
  exact BitVec.eq_of_toNat_eq ((Nat.ModEq.cancel_right_of_coprime hcoprime hmul).eq_of_lt_of_lt x.isLt y.isLt)

theorem mixRound_injective {m : BitVec w} {k : Nat} (hm : m.getLsbD 0 = true) (hk : 1 ≤ k) :
    Function.Injective (mixRound m k) :=
  (xorShift_injective hk).comp (mul_right_injective_of_odd hm)

/-- R96: zero is a fixed point. -/
@[simp] theorem mixRound_zero (m : BitVec w) (k : Nat) : mixRound m k 0#w = 0#w := by
  simp [mixRound, xorShift]

end

theorem mix64_eq_comp (c : Cfg) : mix64 c = mixRound c.kmul c.sh64 ∘ mixRound c.kmul c.sh64 := rfl

theorem mix32_eq_comp (c : Cfg) : mix32 c = mixRound c.jmul c.sh32 ∘ mixRound c.jmul c.sh32 := rfl

theorem mix64_zero (c : Cfg) : mix64 c 0 = 0 := by simp [mix64_eq_comp]

theorem mix32_zero (c : Cfg) : mix32 c 0 = 0 := by simp [mix32_eq_comp]

/-- R9: what the avalanche at 64 bits asks of the record. -/
theorem kmul_odd_and_sh64_pos {c : Cfg} (h : c.wf = true) : c.kmul.getLsbD 0 = true ∧ 1 ≤ c.sh64 := by
  simp only [Cfg.wf, Cfg.oddWords, Cfg.shiftsInRange, Bool.and_eq_true, decide_eq_true_eq] at h
  obtain ⟨⟨⟨-, hkmul⟩, -⟩, ⟨⟨hsh64, -⟩, -⟩, -⟩ := h
  exact ⟨hkmul, hsh64⟩

/-- R9: what the avalanche at 32 bits asks of the record. -/
theorem jmul_odd_and_sh32_pos {c : Cfg} (h : c.wf = true) : c.jmul.getLsbD 0 = true ∧ 1 ≤ c.sh32 := by
  simp only [Cfg.wf, Cfg.oddHalves, Cfg.shiftsInRange, Bool.and_eq_true, decide_eq_true_eq] at h
  obtain ⟨⟨-, -, hjmul⟩, ⟨-, hsh32⟩, -⟩ := h
  exact ⟨hjmul, hsh32⟩

theorem mix64_injective {c : Cfg} (h : c.wf = true) : Function.Injective (mix64 c) := by
  obtain ⟨hodd, hshift⟩ := kmul_odd_and_sh64_pos h
  exact (mixRound_injective hodd hshift).comp (mixRound_injective hodd hshift)

theorem mix32_injective {c : Cfg} (h : c.wf = true) : Function.Injective (mix32 c) := by
  obtain ⟨hodd, hshift⟩ := jmul_odd_and_sh32_pos h
  exact (mixRound_injective hodd hshift).comp (mixRound_injective hodd hshift)

/-- R97 at 64 bits. -/
theorem mix64_bijective {c : Cfg} (h : c.wf = true) : Function.Bijective (mix64 c) :=
  Finite.injective_iff_bijective.1 (mix64_injective h)

/-- R97 at 32 bits. -/
theorem mix32_bijective {c : Cfg} (h : c.wf = true) : Function.Bijective (mix32 c) :=
  Finite.injective_iff_bijective.1 (mix32_injective h)

/-- Settles O49: an injective map of the words of one width is bijective, and takes zero, a fixed point, from zero only. -/
theorem mixIsABijection : Obligations.MixIsABijection := by
  intro c h
  exact ⟨mix64_bijective h, mix32_bijective h, fun x => (mix64_injective h).eq_iff' (mix64_zero c),
    fun x => (mix32_injective h).eq_iff' (mix32_zero c)⟩

end Sys2Proof.Machine
end

section
/-! PROOFS. The pair-blend (spec 40_mix_primitives.md R98, R99, R104): the two results as sums, at every width, and what follows
for each operand. -/

namespace Sys2Proof.Machine

/-- A map that adds one word to its argument is a bijection. -/
theorem bijective_of_eq_add {n : Nat} {f : BitVec n → BitVec n} (d : BitVec n) (hf : ∀ v, f v = v + d) :
    Function.Bijective f :=
  funext hf ▸ AddGroup.addRight_bijective d

section

variable {n : Nat}

/-- The pair-blend as its two sums, at any width, with multiplier `m`, shift `k` and rotation amounts `ra`, `rb` (R98, R99). -/
def pairBlend (m : BitVec n) (k ra rb : Nat) (a b w x y z : BitVec n) : BitVec n × BitVec n :=
  (a + w + x + y + z,
    b + (a + w + z).rotateRight ra + (a + w + x + y).rotateRight rb + mixRound m k ((a + w) ^^^ y))

variable (m : BitVec n) (k ra rb : Nat) (a b w x y z : BitVec n)

/-- R104 (b): the second result is `b` plus a value that does not depend on `b`. -/
theorem pairBlend_snd_eq_add : (pairBlend m k ra rb a b w x y z).2 = b + (pairBlend m k ra rb a 0 w x y z).2 := by
  simp only [pairBlend, zero_add, add_assoc]

/-- R104 (b): the second result is bijective in `b`. -/
theorem pairBlend_snd_bijective : Function.Bijective fun b => (pairBlend m k ra rb a b w x y z).2 :=
  bijective_of_eq_add _ fun b => pairBlend_snd_eq_add m k ra rb a b w x y z

/-- R104 (c): a sum of five is bijective in each of its summands. -/
theorem sum_bijective_in_each_summand :
    (Function.Bijective fun v => v + w + x + y + z) ∧ (Function.Bijective fun v => a + v + x + y + z) ∧
    (Function.Bijective fun v => a + w + v + y + z) ∧ (Function.Bijective fun v => a + w + x + v + z) ∧
    Function.Bijective fun v => a + w + x + y + v :=
  ⟨bijective_of_eq_add (w + x + y + z) fun v => by ring, bijective_of_eq_add (a + x + y + z) fun v => by ring,
    bijective_of_eq_add (a + w + y + z) fun v => by ring, bijective_of_eq_add (a + w + x + z) fun v => by ring,
    bijective_of_eq_add (a + w + x + y) fun v => by ring⟩

/-- R104 (d). -/
theorem pairBlend_zero : pairBlend m k ra rb 0 0 0 0 0 0 = (0, 0) := by
  simp [pairBlend, BitVec.rotateRight_def]

end

theorem wmp64_eq_pairBlend (c : Cfg) (a b w x y z : Word) :
    wmp64 c a b w x y z = pairBlend c.k1 c.sh64 c.ra64 c.rb64 a b w x y z := by
  simp only [wmp64, rotr64_eq_rotateRight]
  rfl

theorem wmp32_eq_pairBlend (c : Cfg) (a b w x y z : Half) :
    wmp32 c a b w x y z = pairBlend c.j1 c.sh32 c.ra32 c.rb32 a b w x y z := by
  simp only [wmp32, rotr32_eq_rotateRight]
  rfl

/-- Settles O50: both widths are `pairBlend`, whose first result is `sum_bijective_in_each_summand`'s sum and whose second
ends in one round of the avalanche on `a + w` and `y`. -/
theorem pairBlendLaws : Obligations.PairBlendLaws := by
  intro c
  simp only [wmp64_eq_pairBlend, wmp32_eq_pairBlend, rotr64_eq_rotateRight, rotr32_eq_rotateRight]
  exact ⟨fun a b w x y z => rfl,
    fun a w x y z => ⟨⟨_, fun b => pairBlend_snd_eq_add _ _ _ _ a b w x y z⟩, pairBlend_snd_bijective _ _ _ _ a w x y z⟩,
    fun a b w x y z => sum_bijective_in_each_summand a w x y z,
    pairBlend_zero _ _ _ _,
    ⟨fun s y => mixRound c.k1 c.sh64 (s ^^^ y), fun a b w x y z => rfl⟩,
    fun a b w x y z => rfl,
    fun a w x y z => ⟨⟨_, fun b => pairBlend_snd_eq_add _ _ _ _ a b w x y z⟩, pairBlend_snd_bijective _ _ _ _ a w x y z⟩,
    fun a b w x y z => sum_bijective_in_each_summand a w x y z,
    pairBlend_zero _ _ _ _,
    ⟨fun s y => mixRound c.j1 c.sh32 (s ^^^ y), fun a b w x y z => rfl⟩⟩

/-- Settles O46: closed values of the default record, computed. -/
theorem workedExamplesOfThePrimitives : Obligations.WorkedExamplesOfThePrimitives := by
  unfold Obligations.WorkedExamplesOfThePrimitives
  decide

end Sys2Proof.Machine
end

section
/-! PROOFS. The choice by length class (spec 41_length_dispatch.md R121, R124, R126 to R140): the fetches and the
branches as chains over the class boundaries 0, 4, 8, 16 and 32, and what the chains give. -/

namespace Sys2Proof.Machine

/-- R124: the fetches of a tail by its length. -/
theorem tailPlan_eq_ite (n : Nat) : tailPlan n =
    if n = 0 then [] else if n ≤ 4 then [(0, n)] else if n ≤ 8 then [(0, 4), (n - 4, 4)]
    else if n ≤ 16 then [(0, 8), (n - 8, 8)] else if n ≤ 32 then [(0, 8), (8, 8), (n - 16, 8), (n - 8, 8)]
    else [(0, 8), (8, 8), (16, 8), (24, 8), (n - 32, 8), (n - 24, 8), (n - 16, 8), (n - 8, 8)] := by
  unfold tailPlan classOf
  split_ifs <;> rfl

/-- R132: `Branch64` by the tail's length. -/
theorem branch64_eq_ite (c : Cfg) (g : List Word) (n : Nat) (p q : Word) : branch64 c g n p q =
    if n = 0 then branch64C0 c p q else if n ≤ 4 then branch64C1to4 c g n p q
    else if n ≤ 8 then branch64C5to8 c g n p q else if n ≤ 16 then branch64C9to16 c g n p q
    else if n ≤ 32 then branch64C17to32 c g n p q else branch64C33to64 c g n p q := by
  unfold branch64 classOf
  split_ifs <;> rfl

/-- R140: `Branch32` by the tail's length. -/
theorem branch32_eq_ite (c : Cfg) (g : List Word) (n : Nat) (p q : Half) : branch32 c g n p q =
    if n = 0 then branch32C0 c p q else if n ≤ 4 then branch32C1to4 c g n p q
    else if n ≤ 8 then branch32C5to8 c g n p q else if n ≤ 16 then branch32C9to16 c g n p q
    else if n ≤ 32 then branch32C17to32 c g n p q else branch32C33to64 c g n p q := by
  unfold branch32 classOf
  split_ifs <;> rfl

/-- R124: every byte of a tail is read by one of its fetches; from 5 bytes on those that end at the tail's end meet those
that begin at its start. -/
theorem tailPlan_covers {n k : Nat} (hn : n ≤ 64) (hk : k < n) : ∃ e ∈ tailPlan n, e.1 ≤ k ∧ k < e.1 + e.2 := by
  rw [tailPlan_eq_ite]
  split_ifs <;> simp only [List.exists_mem_cons_iff, List.not_mem_nil, false_and, exists_false] <;> omega

/-- Settles O56: `tailPlan_eq_ite`, with `tailPlan_in` and `tailPlan_covers`. -/
theorem tailFetchesCoverTheTail : Obligations.TailFetchesCoverTheTail :=
  ⟨fun n _ => tailPlan_eq_ite n, tailPlan_in, fun _ hn _ hk => tailPlan_covers hn hk⟩

/-- Settles O57: `branch64_eq_ite`, with each class's branch as R126 to R131 write it. -/
theorem wideBranchOfEachClass : Obligations.WideBranchOfEachClass :=
  fun c g n p q _ => branch64_eq_ite c g n p q

/-- R101: a length truncated to its low 32 bits. -/
@[simp] theorem lo32_ofNat (n : Nat) : lo32 (BitVec.ofNat 64 n) = BitVec.ofNat 32 n := by
  apply BitVec.eq_of_toNat_eq
  simp [lo32]

/-- R101: the length fold at 32 bits of a length given as a number. -/
theorem lm32_ofNat (c : Cfg) (n : Nat) : lm32 c (BitVec.ofNat 64 n) = c.j2 + 2 * BitVec.ofNat 32 n := by
  rw [lm32, lo32_ofNat]

/-- Settles O58: `branch32_eq_ite`, with each class's branch as R134 to R139 write it. -/
theorem narrowBranchOfEachClass : Obligations.NarrowBranchOfEachClass := by
  intro c g n p q _
  dsimp only
  rw [← lm32_ofNat]
  exact branch32_eq_ite c g n p q

end Sys2Proof.Machine
end

section
/-! PROOFS. Inputs of 1 to 4 bytes (spec 41_length_dispatch.md R127, R135, R142): the packed word determines the input, and
each stage from that word to the result is injective. -/

namespace Sys2Proof.Machine

/-! ### What an assembled word says of its bytes -/

/-- R54: `k` bytes fill at most the low `8 * k` bits. -/
theorem assemble_toNat_lt {bs : List Byte} {k : Nat} (h : bs.length ≤ k) : (assemble bs).toNat < 2 ^ (8 * k) := by
  apply Nat.lt_pow_two_of_testBit
  intro j hj
  rw [BitVec.testBit_toNat]
  by_cases h64 : j < 64
  · have hnone : bs[j / 8]? = none := List.getElem?_eq_none (by omega)
    simp [assemble_getLsbD bs h64, hnone]
  · exact BitVec.getLsbD_of_ge _ _ (by omega)

/-- R54: at most eight bytes are read back from their word, once their number is known. -/
theorem eq_of_assemble_eq {x y : List Byte} (hx : x.length ≤ 8) (hl : x.length = y.length)
    (h : assemble x = assemble y) : x = y := by
  apply List.ext_getElem hl
  intro k hkx hky
  have hbyte : (x[k]?).getD 0 = (y[k]?).getD 0 := by
    rw [← assemble_extract_byte hx k, h, assemble_extract_byte (hl ▸ hx) k]
  simpa [hkx, hky] using hbyte

/-- R135: up to four bytes stand in the low half of their word. -/
theorem eq_of_lo32_assemble_eq {x y : List Byte} (hx : x.length ≤ 4) (hl : x.length = y.length)
    (h : lo32 (assemble x) = lo32 (assemble y)) : x = y := by
  apply eq_of_assemble_eq (by omega) hl
  have hbx : (assemble x).toNat < 2 ^ 32 := assemble_toNat_lt hx
  have hby : (assemble y).toNat < 2 ^ 32 := assemble_toNat_lt (hl ▸ hx)
  have hlow : (assemble x).toNat % 2 ^ 32 = (assemble y).toNat % 2 ^ 32 := by
    simpa only [lo32, BitVec.extractLsb'_toNat, Nat.shiftRight_zero] using congrArg BitVec.toNat h
  exact BitVec.eq_of_toNat_eq (by omega)

/-- The word of class C1_4 at 64 bits: the bytes, and their number from bit 32 on (R127). -/
def packedWord (bs : List Byte) : Word := assemble bs + (BitVec.ofNat 64 bs.length <<< 32)

theorem packedWord_toNat {bs : List Byte} (h : bs.length ≤ 4) :
    (packedWord bs).toNat = (assemble bs).toNat + bs.length * 2 ^ 32 := by
  have hbytes : (assemble bs).toNat < 2 ^ 32 := assemble_toNat_lt h
  simp only [packedWord, BitVec.toNat_add, BitVec.toNat_shiftLeft, BitVec.toNat_ofNat, Nat.shiftLeft_eq]
  omega

/-- R142: the packed word determines the bytes and their number. -/
theorem eq_of_packedWord_eq {x y : List Byte} (hx : x.length ≤ 4) (hy : y.length ≤ 4)
    (h : packedWord x = packedWord y) : x = y := by
  have hbx : (assemble x).toNat < 2 ^ 32 := assemble_toNat_lt hx
  have hby : (assemble y).toNat < 2 ^ 32 := assemble_toNat_lt hy
  have hsum := congrArg BitVec.toNat h
  rw [packedWord_toNat hx, packedWord_toNat hy] at hsum
  exact eq_of_assemble_eq (by omega) (by omega) (BitVec.eq_of_toNat_eq (by omega))

/-! ### The branch of class C1_4 over the bytes -/

theorem planWords_one_to_four {bs : List Byte} (h1 : 1 ≤ bs.length) (h4 : bs.length ≤ 4) :
    planWords bs (tailPlan bs.length) = [assemble bs] := by
  have h0 : bs.length ≠ 0 := by omega
  simp [tailPlan_eq_ite, h0, h4, planWords]

/-- R127 over the bytes of the tail. -/
theorem branch64_one_to_four (c : Cfg) {bs : List Byte} (h1 : 1 ≤ bs.length) (h4 : bs.length ≤ 4) (p q : Word) :
    branch64 c (planWords bs (tailPlan bs.length)) bs.length p q = (mix64 c (p ^^^ packedWord bs), q) := by
  rw [planWords_one_to_four h1 h4, branch64_eq_ite, if_neg (by omega), if_pos h4]
  rfl

/-- R135 over the bytes of the tail. -/
theorem branch32_one_to_four (c : Cfg) {bs : List Byte} (h1 : 1 ≤ bs.length) (h4 : bs.length ≤ 4) (p q : Half) :
    branch32 c (planWords bs (tailPlan bs.length)) bs.length p q =
      (mix32 c ((p + lm32 c (lengthWord bs)) ^^^ lo32 (assemble bs)), q) := by
  rw [planWords_one_to_four h1 h4, branch32_eq_ite, if_neg (by omega), if_pos h4]
  rfl

/-! ### The stages after the branch -/

section

variable {c : Cfg} (h : c.wf = true)
include h

/-- R172: the output stage at 64 bits is injective in its first word. -/
theorem fin64_injective_fst (b : Word) : Function.Injective fun a => fin64 c (a, b) :=
  (mix64_injective h).comp ((add_left_injective b).comp (mix64_injective h))

/-- R172: the output stage at 32 bits is injective in its first word. -/
theorem fin32_injective_fst (b : Half) : Function.Injective fun a => fin32 c (a, b) :=
  (mix32_injective h).comp ((add_left_injective b).comp (mix32_injective h))

/-- R173: the second mixing of `H64SS` is injective in the result it takes. -/
theorem post_injective_result (s1 : Word) : Function.Injective fun r => post c r s1 := fun _ _ heq =>
  add_right_cancel ((BitVec.xor_left_inj s1).1 (mix64_injective h heq))

/-- R174: the first result word of a 64-bit command determines the output stage's word. -/
theorem fin64_eq_of_outputStage_fst_eq {i : Instr} (hi : i = .h64 ∨ i = .h64s ∨ i = .h64ss) {g g' : List Word}
    {n n' : Nat} {q : Quad Word} {s1 : Word} (heq : (outputStage c i g n q s1).1 = (outputStage c i g' n' q s1).1) :
    fin64 c (branch64 c g n q.w0 q.w1) = fin64 c (branch64 c g' n' q.w0 q.w1) := by
  obtain rfl | rfl | rfl := hi
  · exact heq
  · exact heq
  · exact post_injective_result h s1 heq

variable {x y : List Byte} (hx1 : 1 ≤ x.length) (hx4 : x.length ≤ 4) (hy1 : 1 ≤ y.length) (hy4 : y.length ≤ 4)
include hx1 hx4 hy1 hy4

/-- R142 at 64 bits: under one seed-like pair no two inputs of 1 to 4 bytes collide. -/
theorem eq_of_fin64_branch64_eq {p q : Word}
    (heq : fin64 c (branch64 c (planWords x (tailPlan x.length)) x.length p q) =
      fin64 c (branch64 c (planWords y (tailPlan y.length)) y.length p q)) : x = y := by
  rw [branch64_one_to_four c hx1 hx4, branch64_one_to_four c hy1 hy4] at heq
  have hmix := mix64_injective h (fin64_injective_fst h q heq)
  exact eq_of_packedWord_eq hx4 hy4 ((BitVec.xor_right_inj p).1 hmix)

/-- R142 at 32 bits: under one seed-like pair no two inputs of 1 to 4 bytes and of one length collide. -/
theorem eq_of_fin32_branch32_eq {p q : Half} (hl : x.length = y.length)
    (heq : fin32 c (branch32 c (planWords x (tailPlan x.length)) x.length p q) =
      fin32 c (branch32 c (planWords y (tailPlan y.length)) y.length p q)) : x = y := by
  have hword : lengthWord x = lengthWord y := congrArg (BitVec.ofNat 64) hl
  rw [branch32_one_to_four c hx1 hx4, branch32_one_to_four c hy1 hy4, hword] at heq
  have hmix := mix32_injective h (fin32_injective_fst h q heq)
  exact eq_of_lo32_assemble_eq hx4 hl ((BitVec.xor_right_inj _).1 hmix)

end

/-- R125, R187: a buffer of at most 64 bytes is one tail under the seed-integration words. -/
theorem closedHash_short (c : Cfg) (i : Instr) {bs : List Byte} (s0 s1 : Word) (hbs : bs.length ≤ 64) :
    closedHash c i bs s0 s1 =
      outputStage c i (planWords bs (tailPlan bs.length)) bs.length (seedInit c i s0 s1) s1 :=
  if_pos hbs

/-- A word zero-extended from 32 bits determines them. -/
theorem zext64_injective : Function.Injective zext64 :=
  Function.LeftInverse.injective lo32_zext64

/-- Settles O53: both inputs are one tail under the same seed-like pair, where `eq_of_fin64_branch64_eq` and
`eq_of_fin32_branch32_eq` hold. -/
theorem shortInputsDoNotCollide : Obligations.ShortInputsDoNotCollide := by
  intro c h x y s0 s1 hx1 hx4 hy1 hy4
  have hashX (i : Instr) := closedHash_short c i s0 s1 (show x.length ≤ 64 by omega)
  have hashY (i : Instr) := closedHash_short c i s0 s1 (show y.length ≤ 64 by omega)
  simp only [hashX, hashY]
  constructor
  · intro i hi heq
    exact eq_of_fin64_branch64_eq h hx1 hx4 hy1 hy4 (fin64_eq_of_outputStage_fst_eq h hi heq)
  · intro hl heq
    exact eq_of_fin32_branch32_eq h hx1 hx4 hy1 hy4 hl (zext64_injective heq)

end Sys2Proof.Machine
end

section
/-! PROOFS. The absorber's arithmetic (spec 42_chunked_absorber.md R152 to R159): the forms of INIT and ABSORB at each width,
the words of a block over its bytes, and how far the first and the fifth of them reach. -/

namespace Sys2Proof.Machine

/-! ### The two widths -/

section

variable {i : Instr} (hi : i ≠ .h32) (c : Cfg)
include hi

/-- R152: the 64-bit commands take the 64-bit form of INIT. -/
theorem initAcc_of_ne_h32 (w : Quad Word) (len : Word) : initAcc c i w len = initAcc64 c w len := if_neg hi

/-- R154: the 64-bit commands take the 64-bit form of a block's update. -/
theorem blockUpdate_of_ne_h32 (r : Quad Word) (m : List Word) : blockUpdate c i r m = block64 c r m := if_neg hi

/-- R157: the 64-bit commands take the 64-bit form of the combination. -/
theorem combine_of_ne_h32 (r : Quad Word) : combine c i r = comb64 c r := if_neg hi

end

/-- R23: the 32-bit rules read back what they wrote zero-extended. -/
@[simp] theorem lowHalves_zextQuad (q : Quad Half) : lowHalves (zextQuad q) = q := by
  simp [lowHalves, zextQuad]

/-- R153: INIT of `H32` is the 32-bit form over its row of R171. -/
theorem initAcc_h32 (c : Cfg) (s0 s1 len : Word) :
    initAcc c .h32 (seedInit c .h32 s0 s1) len = zextQuad (initAcc32 c ⟨c.j2, c.j0, c.j1, c.jmul⟩ len) := by
  have hrow : seedInit c .h32 s0 s1 = zextQuad ⟨c.j2, c.j0, c.j1, c.jmul⟩ := rfl
  rw [initAcc, if_pos rfl, hrow, lowHalves_zextQuad]

/-- R154: the block's update of `H32` is the 32-bit form over the registers' low halves. -/
theorem blockUpdate_h32 (c : Cfg) (r : Quad Word) (m : List Word) :
    blockUpdate c .h32 r m = zextQuad (block32 c (lowHalves r) m) := if_pos rfl

/-- R154, R157: the tail registers of `H32` are the 32-bit combination of the accumulators' new values. -/
theorem combine_h32_zextQuad (c : Cfg) (r : Quad Half) : combine c .h32 (zextQuad r) = zextPair (comb32 c r) := by
  rw [combine, if_pos rfl, lowHalves_zextQuad]

/-! ### The words of a block -/

/-- R154: word `j` of a block is assembled from the eight bytes at offset `8 * j`. -/
theorem wordAt_planWords_blockPlan (bs : List Byte) {j : Nat} (hj : j < 8) :
    wordAt (planWords bs blockPlan) j = assemble ((bs.drop (8 * j)).take 8) := by
  interval_cases j <;> rfl

/-- R133: half `2j` of a split list is the low half of word `j`, and the next one its high half. -/
theorem halfAt_split (ws : List Word) (j : Nat) :
    halfAt (split ws) (2 * j) = lo32 (wordAt ws j) ∧ halfAt (split ws) (2 * j + 1) = hi32 (wordAt ws j) := by
  induction ws generalizing j with
  | nil =>
    have hhigh : (0 : Half) = hi32 0 := by decide
    exact ⟨rfl, hhigh⟩
  | cons w ws ih =>
    cases j with
    | zero => exact ⟨rfl, rfl⟩
    | succ j => exact ih j

/-- R133, R154: half `j` of a block is assembled from the four bytes at offset `4 * j`. -/
theorem halfAt_split_blockPlan (bs : List Byte) {j : Nat} (hj : j < 16) :
    halfAt (split (planWords bs blockPlan)) j = lo32 (assemble ((bs.drop (4 * j)).take 4)) := by
  have hword := wordAt_planWords_blockPlan bs (show j / 2 < 8 by omega)
  obtain ⟨hlow, hhigh⟩ := halfAt_split (planWords bs blockPlan) (j / 2)
  rcases Nat.mod_two_eq_zero_or_one j with heven | hodd
  · rw [show 2 * (j / 2) = j by omega] at hlow
    rw [hlow, hword, lo32_assemble, List.take_take, show 8 * (j / 2) = 4 * j by omega]
    rfl
  · rw [show 2 * (j / 2) + 1 = j by omega] at hhigh
    rw [hhigh, hword, hi32_assemble, List.drop_take, List.drop_drop, show 8 * (j / 2) + 4 = 4 * j by omega]

/-! ### How a block's words reach the registers -/

theorem wordAt_set_same {m : List Word} {i : Nat} (hi : i < m.length) (x : Word) : wordAt (m.set i x) i = x := by
  simp [wordAt, hi]

theorem wordAt_set_other {i j : Nat} (hij : i ≠ j) (m : List Word) (x : Word) :
    wordAt (m.set i x) j = wordAt m j := by
  simp [wordAt, List.getElem?_set_ne hij]

/-- R155: the new `R[0]` is the avalanche of the first pair-blend's sum and the second one's second result. -/
theorem block64_w0 (c : Cfg) (r : Quad Word) (m : List Word) : (block64 c r m).w0 =
    mix64 c (r.w0 + wordAt m 0 + wordAt m 1 + wordAt m 2 + wordAt m 3 +
      (wmp64 c r.w2 r.w3 (wordAt m 4) (wordAt m 5) (wordAt m 6) (wordAt m 7)).2) := rfl

/-- R155: the new `R[2]` is the avalanche of the second pair-blend's sum and the first one's second result. -/
theorem block64_w2 (c : Cfg) (r : Quad Word) (m : List Word) : (block64 c r m).w2 =
    mix64 c (r.w2 + wordAt m 4 + wordAt m 5 + wordAt m 6 + wordAt m 7 +
      (wmp64 c r.w0 r.w1 (wordAt m 0) (wordAt m 1) (wordAt m 2) (wordAt m 3)).2) := rfl

/-- R159: the avalanche of a sum determines the second of its six summands. -/
theorem eq_of_mix64_sum_eq {c : Cfg} (h : c.wf = true) {a b d e f x y : Word}
    (heq : mix64 c (a + x + b + d + e + f) = mix64 c (a + y + b + d + e + f)) : x = y := by
  obtain ⟨-, ⟨hinj, -⟩, -⟩ := sum_bijective_in_each_summand a x b d e
  exact hinj (add_right_cancel (mix64_injective h heq))

/-- Settles O54: each of the two words is one summand of its register's sum (`block64_w0`, `block64_w2`) and stands in no
other place of it. -/
theorem blockWordsReachTheRegisters : Obligations.BlockWordsReachTheRegisters := by
  intro c h r m x y hm
  constructor
  · intro heq
    simp (disch := omega) only [block64_w0, wordAt_set_same, wordAt_set_other] at heq
    exact eq_of_mix64_sum_eq h heq
  · intro heq
    simp (disch := omega) only [block64_w2, wordAt_set_same, wordAt_set_other] at heq
    exact eq_of_mix64_sum_eq h heq

end Sys2Proof.Machine
end

section
/-! PROOFS. The steps of the absorber (spec 42_chunked_absorber.md R152 to R158): INIT and ABSORB at both widths, with their
frames. -/

namespace Sys2Proof.Machine

/-! ### INIT -/

/-- Settles O23: INIT is `initStep`, over the 64-bit form of the accumulators. -/
theorem initStepOfTheWideCommands : Obligations.InitStepOfTheWideCommands := by
  intro i s hi hp
  rw [exec_eq, commandStep_init hp, initStep, initAcc_of_ne_h32 hi]
  rfl

/-- Settles O24: INIT is `initStep`, over the 32-bit form of the accumulators. -/
theorem initStepOfH32 : Obligations.InitStepOfH32 := by
  intro s hp
  rw [exec_eq, commandStep_init hp, initStep, initAcc_h32]
  rfl

/-! ### ABSORB -/

/-- R154: ABSORB over a readable block, with the accumulators' new values `r` and their combination `p`, and its frame. -/
theorem exec_absorb_bytesAt {i : Instr} {s : State} {bs : List Byte} (hp : s.phase = .absorb) (hl : bs.length = 64)
    (ha : blockAddress s + 64 ≤ 2 ^ 64) (hb : bytesAt s.mem (blockAddress s) bs) {r : Quad Word} {p : Word × Word}
    (hr : blockUpdate Config.cfg i s.acc (planWords bs blockPlan) = r) (hcomb : combine Config.cfg i r = p) :
    ∃ t, exec i s = .next t ∧ SameOutside s t ∧ t.acc = r ∧ t.tail = p ∧ t.blk = s.blk + 1 ∧
      t.phase = (if s.blk + 1 = nblkOf s.bufLen then .finish else .absorb) ∧ t.status = s.status ∧
      t.result0 = s.result0 ∧ t.result1 = s.result1 ∧ t.faddr = s.faddr := by
  subst hr hcomb
  refine ⟨_, ?_, sameOutside_absorbWords _ i _ s, rfl, rfl, rfl, rfl, rfl, rfl, rfl, rfl⟩
  rw [exec_eq, commandStep_absorb hp, absorbStep_bytesAt hl ha hb]

/-- Settles O25: `exec_absorb_bytesAt` at 64 bits, where word `j` is that of the bytes at offset `8 * j`. -/
theorem absorbStepOfTheWideCommands : Obligations.AbsorbStepOfTheWideCommands := by
  intro i s bs hi hp hl ha hb
  refine exec_absorb_bytesAt hp hl ha hb ?_ (combine_of_ne_h32 hi _ _)
  rw [blockUpdate_of_ne_h32 hi]
  simp only [block64, wordAt_planWords_blockPlan, Nat.reduceLT]

/-- Settles O26: `exec_absorb_bytesAt` at 32 bits, where half `j` is that of the bytes at offset `4 * j`. -/
theorem absorbStepOfH32 : Obligations.AbsorbStepOfH32 := by
  intro s bs hp hl ha hb
  refine exec_absorb_bytesAt hp hl ha hb ?_ (combine_h32_zextQuad _ _)
  rw [blockUpdate_h32]
  simp only [block32, halfAt_split_blockPlan, Nat.reduceLT, lowHalves, zextQuad]

end Sys2Proof.Machine
end

section
/-! PROOFS. A refused byte (spec 20_memory.md R52, 42_chunked_absorber.md R161, 60_exceptions.md R204): the first refusal of a
step's reads is fault entry, in place of the step's own writes. -/

namespace Sys2Proof.Machine

/-- R205: the record of a fault and its frame are what fault entry writes and leaves. -/
theorem faultTaken_faultEntry (k : Cause) (f : Word) (s : State) : FaultTaken k f s (faultEntry k f s) where
  same := sameOutside_faultEntry k f s
  quiet := ⟨rfl, rfl, rfl⟩
  result0 := rfl
  result1 := rfl
  faddr := rfl
  busy := statusBusy_faulted k s.status
  done := statusDone_faulted k s.status
  fault := statusFault_faulted k s.status
  code := statusCause_faulted k s.status
  ovr := statusOvr_faulted k s.status
  reserved := statusReserved_faulted k s.status
  phase := rfl

/-- The counter of read slots is no part of a fault's record or frame (log entry 2). -/
theorem FaultTaken.of_takeSlots {k : Cause} {f : Word} {s t : State} (h : FaultTaken k f s.takeSlots t) :
    FaultTaken k f s t :=
  { h with same := { h.same with } }

/-- R27: only ABSORB and FINISH read memory. -/
theorem absorb_or_finish_of_mem_readOrder {s : State} {a : Nat} (ha : a ∈ readOrder s) :
    s.phase = .absorb ∨ s.phase = .finish := by
  cases hp : s.phase with
  | idle | check | init => simp [readOrder, hp] at ha
  | absorb => exact .inl rfl
  | finish => exact .inr rfl

/-- R161, R174: the first refused address of a reading step is the one its fault records. -/
theorem commandStep_first_refused {c : Cfg} {i : Instr} {s : State} {k a : Nat} (hk : (readOrder s)[k]? = some a)
    (hlt : ∀ b ∈ readOrder s, b < 2 ^ 64) (hbefore : ∀ j b, j < k → (readOrder s)[j]? = some b → s.mem.answers b)
    (ha : ∀ slot, s.mem.answer slot a = .refused) :
    commandStep c i s = .next (faultEntry .bufferAccess (BitVec.ofNat 64 a) s.takeSlots) := by
  have hmem : a ∈ readOrder s := List.mem_of_getElem? hk
  have hbyte (slot : Nat) : readByte s.mem slot a = .refused a := by rw [readByte, if_pos (hlt a hmem), ha]
  have hreads : readBytes s.mem s.draws (readOrder s) = .refused a :=
    readBytes_first k a (.refused a) hk hlt hbefore hbyte nofun
  rw [commandStep_reading (absorb_or_finish_of_mem_readOrder hmem), hreads, andThen_refused, afterReads_refused]

/-- Settles O19: the step is the fault entry of `commandStep_first_refused`. -/
theorem firstRefusedByteFaults : Obligations.FirstRefusedByteFaults := by
  intro i s k a hk hlt hbefore ha
  exact ⟨_, by rw [exec_eq, commandStep_first_refused hk hlt hbefore ha], (faultTaken_faultEntry ..).of_takeSlots⟩

end Sys2Proof.Machine
end

section
/-! PROOFS. Seed integration and the output stage (spec 43_finalization_commands.md R171 to R173, R182): bijections and
injections of words, and the seeds that a command's row leaves out. -/

namespace Sys2Proof.Machine

/-- Settles O22: each row of R171 is the arm of `seedInit` for its command. -/
theorem seedIntegrationTable : Obligations.SeedIntegrationTable :=
  fun _ _ _ => ⟨rfl, rfl, rfl, rfl, rfl, rfl⟩

/-! ### Bijections -/

section

variable {c : Cfg} (h : c.wf = true)
include h

/-- R172: the output stage at 64 bits is a bijection in each word. -/
theorem fin64_bijective_in_each_word :
    (∀ b, Function.Bijective fun a => fin64 c (a, b)) ∧ ∀ a, Function.Bijective fun b => fin64 c (a, b) :=
  ⟨fun b => Finite.injective_iff_bijective.1 (fin64_injective_fst h b),
    fun a => (mix64_bijective h).comp (AddGroup.addLeft_bijective (mix64 c a))⟩

/-- R172: the output stage at 32 bits is a bijection in each word. -/
theorem fin32_bijective_in_each_word :
    (∀ b, Function.Bijective fun a => fin32 c (a, b)) ∧ ∀ a, Function.Bijective fun b => fin32 c (a, b) :=
  ⟨fun b => Finite.injective_iff_bijective.1 (fin32_injective_fst h b),
    fun a => (mix32_bijective h).comp (AddGroup.addLeft_bijective (mix32 c a))⟩

/-- R173: the second mixing of `H64SS` is injective in the second seed. -/
theorem post_injective_seed (r : Word) : Function.Injective fun s1 => post c r s1 :=
  fun _ _ heq => (BitVec.xor_right_inj _).1 (mix64_injective h heq)

/-- R171: a seed word mixed into a domain constant determines the seed. -/
theorem mix64_add_injective (k : Word) : Function.Injective fun s => mix64 c (s + k) :=
  (mix64_injective h).comp (add_left_injective k)

end

/-- Settles O51: each word passes through sums, exclusive ors and the avalanche, all bijective, and zero is its fixed
point. -/
theorem outputStageIsBijectiveInEachWord : Obligations.OutputStageIsBijectiveInEachWord := by
  intro c h
  obtain ⟨hfst64, hsnd64⟩ := fin64_bijective_in_each_word h
  obtain ⟨hfst32, hsnd32⟩ := fin32_bijective_in_each_word h
  refine ⟨hfst64, hsnd64, hfst32, hsnd32, fun s1 => Finite.injective_iff_bijective.1 (post_injective_result h s1),
    fun r => Finite.injective_iff_bijective.1 (post_injective_seed h r), ?_, ?_⟩
  · rw [fin64, mix64_zero, add_zero, mix64_zero]
  · rw [fin32, mix32_zero, add_zero, mix32_zero]

/-- Settles O52: a seeded word is the avalanche of its seed plus a domain constant (`mix64_add_injective`). -/
theorem seededWordsDifferForDifferentSeeds : Obligations.SeededWordsDifferForDifferentSeeds := by
  intro c h i a b s1 hne
  refine ⟨fun hi => ?_, fun _ => (mix64_add_injective h c.k1).ne hne⟩
  obtain rfl | rfl | rfl := hi
  · exact (mix64_add_injective h c.k2).ne hne
  · exact (mix64_add_injective h c.k2).ne hne
  · exact (mix64_add_injective h c.k0).ne hne

/-! ### The seeds that a command does not use -/

section

variable {c : Cfg} {i : Instr} {a b : Word}

/-- The same state with other seeds. -/
def State.withSeeds (a b : Word) (s : State) : State := { s with seed0 := a, seed1 := b }

/-- The seeds `a` and `b` agree with those of `s` where the command `i` uses one (R171, R173). -/
structure SameUsedSeeds (i : Instr) (a b : Word) (s : State) : Prop where
  first : i = .h64s ∨ i = .h64ss ∨ i = .h128s → a = s.seed0
  second : i = .h64ss ∨ i = .h128s → b = s.seed1

/-- R171: a row of seed integration holds the seeds used, and no other. -/
theorem SameUsedSeeds.seedInit_eq {s : State} (h : SameUsedSeeds i a b s) :
    seedInit c i a b = seedInit c i s.seed0 s.seed1 := by
  cases i with
  | h32 | h64 | h128 => rfl
  | h64s | h64ss => rw [h.first (by simp)]; rfl
  | h128s => rw [h.first (by simp), h.second (by simp)]

/-- R173: the second seed enters the output stage of `H64SS` only. -/
theorem SameUsedSeeds.outputStage_eq {s : State} (h : SameUsedSeeds i a b s) (g : List Word) (n : Nat) (q : Quad Word) :
    outputStage c i g n q b = outputStage c i g n q s.seed1 := by
  cases i with
  | h32 | h64 | h64s | h128 | h128s => rfl
  | h64ss => rw [h.second (by simp)]

/-- R203: CHECK examines no seed. -/
theorem checkStep_withSeeds (a b : Word) (s : State) : checkStep (s.withSeeds a b) = (checkStep s).withSeeds a b := by
  have hoperands : checkOperands (s.withSeeds a b) = (checkOperands s).withSeeds a b := by
    simp only [checkOperands, apply_ite (State.withSeeds a b)]
    rfl
  have hcmd : (s.withSeeds a b).cmd = s.cmd := rfl
  rw [checkStep, checkStep, hcmd, hoperands]
  cases decode s.cmd <;> rfl

/-- A reading step leaves other seeds as they are, if its writes do. -/
theorem afterReads_withSeeds {r : Reading (List Word)} {k : List Word → State → State} {s t : State}
    (hk : ∀ ws, k ws (s.takeSlots.withSeeds a b) = (k ws s.takeSlots).withSeeds a b) (h : afterReads r k s = .next t) :
    afterReads r k (s.withSeeds a b) = .next (t.withSeeds a b) := by
  rcases afterReads_next h with ⟨ws, rfl, rfl⟩ | ⟨x, rfl, rfl⟩ | ⟨rfl, rfl⟩
  · rw [afterReads_ok, ← hk]
    rfl
  · rfl
  · rfl

/-- R174: the results of FINISH depend on the seeds used only. -/
theorem finishWords_withSeeds {s : State} (h : SameUsedSeeds i a b s) (ws : List Word) :
    finishWords c i ws (s.withSeeds a b) = (finishWords c i ws s).withSeeds a b := by
  have hresults : finishResults c i ws (s.withSeeds a b) = finishResults c i ws s := by
    rw [finishResults, finishResults, ← h.seedInit_eq, ← h.outputStage_eq]
    rfl
  rw [finishWords, finishWords, hresults]
  rfl

/-- R182: a command's step is the same under other values of the seeds that it does not use. -/
theorem commandStep_withSeeds {s t : State} (hseeds : SameUsedSeeds i a b s) (h : commandStep c i s = .next t) :
    commandStep c i (s.withSeeds a b) = .next (t.withSeeds a b) := by
  cases hp : s.phase with
  | idle =>
    obtain rfl : s = t := by simpa [commandStep_idle hp] using h
    exact commandStep_idle hp
  | check =>
    obtain rfl : checkStep s = t := by simpa [commandStep_check hp] using h
    rw [commandStep_check (s := s.withSeeds a b) hp, checkStep_withSeeds]
  | init =>
    obtain rfl : initStep c i s = t := by simpa [commandStep_init hp] using h
    rw [commandStep_init (s := s.withSeeds a b) hp, initStep, initStep, ← hseeds.seedInit_eq]
    rfl
  | absorb =>
    rw [commandStep_absorb hp] at h
    rw [commandStep_absorb (s := s.withSeeds a b) hp]
    exact afterReads_withSeeds (fun _ => rfl) h
  | finish =>
    rw [commandStep_finish hp] at h
    rw [commandStep_finish (s := s.withSeeds a b) hp]
    exact afterReads_withSeeds (finishWords_withSeeds ⟨hseeds.first, hseeds.second⟩) h

end

/-- Settles O37: `commandStep_withSeeds` for the commands that use no seed, and for `H64S`, which uses the first. -/
theorem unusedSeedsAreIgnored : Obligations.UnusedSeedsAreIgnored := by
  intro i s t a b h
  rw [exec_eq] at h
  simp only [exec_eq]
  refine ⟨fun hi => ?_, fun hi => ?_⟩
  · have hseeds : SameUsedSeeds i a b s := by
      obtain rfl | rfl | rfl := hi <;> exact ⟨by simp, by simp⟩
    exact commandStep_withSeeds hseeds h
  · have hseeds : SameUsedSeeds i s.seed0 b s := ⟨fun _ => rfl, by simp [hi]⟩
    have hseed0 : t.withSeeds s.seed0 b = { t with seed1 := b } := by
      rw [← (commandStep_sameOutside h).seed0]
      rfl
    exact hseed0 ▸ commandStep_withSeeds hseeds h

end Sys2Proof.Machine
end

section
/-! PROOFS. The six commands complete (spec 43_finalization_commands.md R174 to R180): step FINISH with its result and frame,
and how the commands' results are related. -/

namespace Sys2Proof.Machine

/-! ### FINISH over a readable tail -/

/-- R122: where the tail begins, by the buffer's length. -/
theorem tailOffset_eq_ite (len : Word) : tailOffset len = if len.toNat ≤ 64 then 0 else 64 * (len.toNat / 64) := by
  split
  next hshort => exact tailOffset_short len hshort
  next hlong => exact tailOffset_long len (by omega)

/-- R122: the tail's number of bytes, by the buffer's length. -/
theorem tailLength_eq_ite (len : Word) : tailLength len = if len.toNat ≤ 64 then len.toNat else len.toNat % 64 := by
  split
  next hshort => exact tailLength_short len hshort
  next hlong => exact tailLength_long len (by omega)

/-- R125: the seed-like inputs of the tail, by the buffer's length. -/
theorem tailSeeds_eq_ite (c : Cfg) (len : Word) (q : Quad Word) (t : Word × Word) :
    tailSeeds c len q t = if len.toNat ≤ 64 then q else ⟨t.1, t.2, t.2 + c.k1, t.1⟩ := by
  rw [tailSeeds]
  simp only [isLong_iff, ← Nat.not_le, ite_not]

/-- R174: FINISH over a readable tail completes with the output stage's value `r` and the frame of a completed command. -/
theorem exec_finish_bytesAt {i : Instr} {s : State} {bs : List Byte} {r : Word × Word} (hp : s.phase = .finish)
    (hl : bs.length = if s.bufLen.toNat ≤ 64 then s.bufLen.toNat else s.bufLen.toNat % 64)
    (ha : s.bufBase.toNat + (if s.bufLen.toNat ≤ 64 then 0 else 64 * (s.bufLen.toNat / 64)) + bs.length ≤ 2 ^ 64)
    (hb : bytesAt s.mem (s.bufBase.toNat + if s.bufLen.toNat ≤ 64 then 0 else 64 * (s.bufLen.toNat / 64)) bs)
    (hr : outputStage Config.cfg i (planWords bs (tailPlan bs.length)) bs.length
      (if s.bufLen.toNat ≤ 64 then seedInit Config.cfg i s.seed0 s.seed1
        else ⟨s.tail.1, s.tail.2, s.tail.2 + Config.cfg.k1, s.tail.1⟩) s.seed1 = r) :
    ∃ t, exec i s = .next t ∧ CommandDone r s t := by
  rw [← tailLength_eq_ite] at hl
  rw [← tailOffset_eq_ite] at ha hb
  rw [← tailSeeds_eq_ite, hl] at hr
  have hstep := finishStep_bytesAt (c := Config.cfg) (i := i) hl ha hb
  have hdone := commandDone_finishWords Config.cfg i (planWords bs (tailPlan bs.length)) s
  rw [finishResults, hl, hr] at hdone
  rw [hl] at hstep
  exact ⟨_, by rw [exec_eq, commandStep_finish hp, hstep], hdone⟩

/-- Settles O29: `exec_finish_bytesAt`, at 32 bits over the row of `H32` or the low halves of the tail registers. -/
theorem h32Completes : Obligations.H32Completes := by
  intro s bs hp len addr hl ha hb c g p
  refine exec_finish_bytesAt hp hl ha hb ?_
  dsimp only [p, len]
  split
  · simp only [outputStage, seedInit, lo32_zext64]
    rfl
  · rfl

/-- Settles O30: `exec_finish_bytesAt`, over the row of `H64` or the tail registers. -/
theorem h64Completes : Obligations.H64Completes := by
  intro s bs hp len addr hl ha hb c g p
  refine exec_finish_bytesAt hp hl ha hb ?_
  dsimp only [p, len]
  split <;> rfl

/-- Settles O31: `exec_finish_bytesAt`, over the row of `H64S` or the tail registers. -/
theorem h64SCompletes : Obligations.H64SCompletes := by
  intro s bs hp len addr hl ha hb c g p
  refine exec_finish_bytesAt hp hl ha hb ?_
  dsimp only [p, len]
  split <;> rfl

/-- Settles O32: `exec_finish_bytesAt`, over the row of `H64SS` or the tail registers, with the mixing pass of R173. -/
theorem h64SSCompletes : Obligations.H64SSCompletes := by
  intro s bs hp len addr hl ha hb c g p r
  refine exec_finish_bytesAt hp hl ha hb ?_
  dsimp only [r, p, len]
  split <;> rfl

/-- Settles O33: `exec_finish_bytesAt`, both passes over the row of `H128` or the tail registers. -/
theorem h128Completes : Obligations.H128Completes := by
  intro s bs hp len addr hl ha hb c g p q
  refine exec_finish_bytesAt hp hl ha hb ?_
  dsimp only [p, q, len]
  split <;> rfl

/-- Settles O34: `exec_finish_bytesAt`, both passes over the row of `H128S` or the tail registers. -/
theorem h128SCompletes : Obligations.H128SCompletes := by
  intro s bs hp len addr hl ha hb c g p q
  refine exec_finish_bytesAt hp hl ha hb ?_
  dsimp only [p, q, len]
  split <;> rfl

/-! ### Results of two runs -/

/-- R178: before FINISH `H64SS` takes the steps of `H64S`. -/
theorem commandStep_h64ss_of_ne_finish {c : Cfg} {s : State} (hp : s.phase ≠ .finish) :
    commandStep c .h64ss s = commandStep c .h64s s := by
  cases h : s.phase with
  | finish => exact absurd h hp
  | idle => rw [commandStep_idle h, commandStep_idle h]
  | check => rw [commandStep_check h, commandStep_check h]
  | init => rw [commandStep_init h, commandStep_init h]; rfl
  | absorb => rw [commandStep_absorb h, commandStep_absorb h]; rfl

/-- R174: FINISH that leaves `DONE` set has read its tail words. -/
theorem commandStep_finish_done {c : Cfg} {i : Instr} {s t : State} (hp : s.phase = .finish)
    (h : commandStep c i s = .next t) (hidle : t.phase = .idle) (hdone : statusDone t.status = true) :
    ∃ ws, fetchPlan s.mem s.draws (tailAddress s) (tailPlan (tailLength s.bufLen)) = .ok ws ∧
      t = finishWords c i ws s.takeSlots := by
  rw [commandStep_finish hp, finishStep] at h
  rcases afterReads_next h with hok | ⟨a, -, rfl⟩ | ⟨-, rfl⟩
  · exact hok
  · simp at hdone
  · simp [hp] at hidle

/-- Settles O35: before FINISH by `commandStep_h64ss_of_ne_finish`; in FINISH both commands make the reads of
`commandStep_finish_done`, and R173 is the difference of their output stages. -/
theorem h64SSIsH64SAndOneMorePass : Obligations.H64SSIsH64SAndOneMorePass := by
  intro s
  simp only [exec_eq]
  refine ⟨commandStep_h64ss_of_ne_finish, fun t h hp hidle hdone => ?_⟩
  obtain ⟨ws, hread, rfl⟩ := commandStep_finish_done hp h hidle hdone
  rw [commandStep_finish hp, finishStep, hread, afterReads_ok]
  rfl

/-- R52, R174: FINISH under two pairs of seeds makes the same reads, so both steps write results over the same tail words, or
both fault, or both wait for an answer; in the last two the results agree. -/
theorem commandStep_finish_withSeeds_cases {c : Cfg} {i : Instr} {s t t' : State} {a b : Word} (hp : s.phase = .finish)
    (h : commandStep c i s = .next t) (h' : commandStep c i (s.withSeeds a b) = .next t') :
    (∃ ws, t = finishWords c i ws s.takeSlots ∧ t' = finishWords c i ws (s.withSeeds a b).takeSlots) ∨
      (t'.result0 = t.result0 ∧ t'.result1 = t.result1) := by
  rw [commandStep_finish hp] at h
  rw [commandStep_finish (s := s.withSeeds a b) hp, finishStep] at h'
  change afterReads (fetchPlan s.mem s.draws (tailAddress s) (tailPlan (tailLength s.bufLen))) _ _ = _ at h'
  rcases afterReads_next h with ⟨ws, hr, rfl⟩ | ⟨x, hr, rfl⟩ | ⟨hr, rfl⟩
  · rw [hr, afterReads_ok] at h'
    exact .inl ⟨ws, rfl, by simpa using h'.symm⟩
  · rw [hr, afterReads_refused] at h'
    obtain rfl := Host.Outcome.next.inj h'
    exact .inr ⟨rfl, rfl⟩
  · rw [hr, afterReads_silent] at h'
    obtain rfl := Host.Outcome.next.inj h'
    exact .inr ⟨rfl, rfl⟩

/-- R171, R180: up to 64 bytes each result word of `H128S` is of its own seed. -/
theorem finishWords_h128s_short {c : Cfg} {s : State} (hshort : s.bufLen.toNat ≤ 64) (ws : List Word) :
    (finishWords c .h128s ws s).result0 =
        fin64 c (branch64 c ws (tailLength s.bufLen) (mix64 c (s.seed0 + c.k0)) c.k2) ∧
      (finishWords c .h128s ws s).result1 =
        fin64 c (branch64 c ws (tailLength s.bufLen) (mix64 c (s.seed1 + c.k1)) c.kmul) := by
  rw [finishWords, finishResults, tailSeeds_eq_ite, if_pos hshort]
  exact ⟨rfl, rfl⟩

/-- Settles O36: where both steps read their words, each result is of its own seed (`finishWords_h128s_short`); otherwise
the two agree in both results (`commandStep_finish_withSeeds_cases`). -/
theorem h128SHalvesFollowTheirOwnSeeds : Obligations.H128SHalvesFollowTheirOwnSeeds := by
  intro s t t' v hp hshort h
  rw [exec_eq] at h
  simp only [exec_eq]
  have hwords (u : State) (hu : u.bufLen = s.bufLen) (ws : List Word) :=
    finishWords_h128s_short (c := Config.cfg) (s := u) (by rwa [hu]) ws
  constructor
  · intro h'
    rcases commandStep_finish_withSeeds_cases (a := s.seed0) (b := v) hp h h' with ⟨ws, rfl, rfl⟩ | ⟨hfst, -⟩
    · obtain ⟨hnew, -⟩ := hwords (s.withSeeds s.seed0 v).takeSlots rfl ws
      obtain ⟨hold, -⟩ := hwords s.takeSlots rfl ws
      exact hnew.trans hold.symm
    · exact hfst
  · intro h'
    rcases commandStep_finish_withSeeds_cases (a := v) (b := s.seed1) hp h h' with ⟨ws, rfl, rfl⟩ | ⟨-, hsnd⟩
    · obtain ⟨-, hnew⟩ := hwords (s.withSeeds v s.seed1).takeSlots rfl ws
      obtain ⟨-, hold⟩ := hwords s.takeSlots rfl ws
      exact hnew.trans hold.symm
    · exact hsnd

end Sys2Proof.Machine
end

section
/-! PROOFS. A command between the accesses of hosts (spec 00_scope.md R18, 43_finalization_commands.md R184, R187): which
of its steps remain, what no other agent's move touches, and the run to its end by the number of turns and steps left. -/

namespace Sys2Proof.Machine

/-! ### The end of a command -/

/-- What the moves between acceptance and the end leave as it was, whoever makes them (R43, R174). -/
structure CommandKept (s t : State) : Prop where
  operands : ∀ n, n ≤ 5 → hostRead n t = hostRead n s
  fault : statusFault t.status = statusFault s.status
  faddr : t.faddr = s.faddr

/-- A command that `s` runs has ended in `t`, done, with the result `r`; hosts may have moved meanwhile. -/
structure EndsWith (r : Word × Word) (s t : State) : Prop where
  kept : CommandKept s t
  phase : t.phase = .idle
  busy : statusBusy t.status = false
  done : statusDone t.status = true
  quiet : t.quiet
  result0 : t.result0 = r.1
  result1 : t.result1 = r.2

section
variable {r : Word × Word} {s t u : State}

theorem SameOutside.hostRead_operands (h : SameOutside s t) {n : Nat} (hn : n ≤ 5) : hostRead n t = hostRead n s :=
  hostRead_operands_congr h.cmd h.bufBase h.bufLen h.bufCap h.seed0 h.seed1 hn

theorem CommandKept.cmd (h : CommandKept s t) : t.cmd = s.cmd := h.operands 0 (by decide)
theorem CommandKept.bufBase (h : CommandKept s t) : t.bufBase = s.bufBase := h.operands 1 (by decide)
theorem CommandKept.bufLen (h : CommandKept s t) : t.bufLen = s.bufLen := h.operands 2 (by decide)
theorem CommandKept.bufCap (h : CommandKept s t) : t.bufCap = s.bufCap := h.operands 3 (by decide)
theorem CommandKept.seed0 (h : CommandKept s t) : t.seed0 = s.seed0 := h.operands 4 (by decide)
theorem CommandKept.seed1 (h : CommandKept s t) : t.seed1 = s.seed1 := h.operands 5 (by decide)

theorem CommandKept.trans (h : CommandKept s t) (h' : CommandKept t u) : CommandKept s u where
  operands n hn := (h'.operands n hn).trans (h.operands n hn)
  fault := h'.fault.trans h.fault
  faddr := h'.faddr.trans h.faddr

theorem CommandDone.endsWith (h : CommandDone r s t) : EndsWith r s t where
  kept := ⟨fun _ hn => h.same.hostRead_operands hn, h.fault, h.faddr⟩
  phase := h.phase
  busy := h.busy
  done := h.done
  quiet := h.quiet
  result0 := h.result0
  result1 := h.result1

theorem EndsWith.of_kept (hst : CommandKept s t) (h : EndsWith r t u) : EndsWith r s u :=
  { h with kept := hst.trans h.kept }

/-- A state in which `BUSY` is 0 is the end of its own run. -/
theorem State.endsAt_zero (h : statusBusy s.status = false) : s.endsAt 0 s :=
  ⟨rfl, h, fun _ _ hj => absurd hj (Nat.not_lt_zero _)⟩

/-- A busy state's run ends one step after its successor's. -/
theorem State.endsAt_succ {k : Nat} (hb : statusBusy s.status = true) (hstep : step s = .next t) (h : t.endsAt k u) :
    s.endsAt (k + 1) u := by
  obtain ⟨hrun, hend, hbefore⟩ := h
  refine ⟨by rw [runSteps_succ hstep, hrun], hend, fun j v hj hv => ?_⟩
  cases j with
  | zero =>
    obtain rfl : s = v := by simpa [runSteps] using hv
    exact hb
  | succ j => exact hbefore j v (by omega) (by rwa [runSteps_succ hstep] at hv)

end

/-! ### The steps that remain -/

/-- Where a command stands over a held buffer, and how many of its steps remain (R240): in CHECK with operands that pass, in
INIT of a long command, after some of its blocks, or in FINISH of a short one. -/
inductive Stage (i : Instr) (bs : List Byte) : Nat → State → Prop
  | check {s : State} (hp : s.phase = .check) (hok : s.operandsChecked) : Stage i bs (stepCount s.bufLen) s
  | init {s : State} (hp : s.phase = .init) (hlong : 64 < s.bufLen.toNat) : Stage i bs (2 + s.bufLen.toNat / 64) s
  | blocks {s : State} (n : Nat) (hlong : 64 < s.bufLen.toNat) (hn : n ≤ s.bufLen.toNat / 64)
      (h : AfterBlocks Config.cfg i bs s n s) : Stage i bs (1 + (s.bufLen.toNat / 64 - n)) s
  | short {s : State} (hp : s.phase = .finish) (hshort : s.bufLen.toNat ≤ 64) : Stage i bs 1 s

section
variable {i : Instr} {bs : List Byte} {s t : State} {n r : Nat}

theorem Stage.phase_ne_idle (h : Stage i bs r s) : s.phase ≠ .idle := by
  cases h with
  | check hp | init hp | short hp => simp [hp]
  | blocks _ _ _ h =>
    rw [h.phase]
    split <;> simp

theorem stepCount_pos (len : Word) : 0 < stepCount len := by
  unfold stepCount
  split <;> omega

theorem Stage.pos (h : Stage i bs r s) : 0 < r := by
  cases h with
  | check => exact stepCount_pos _
  | init | blocks | short => omega

/-- The loop state is one of the operands and the datapath: the state where the loop began may be forgotten. -/
theorem AfterBlocks.self (h : AfterBlocks Config.cfg i bs s n t) : AfterBlocks Config.cfg i bs t n t where
  same := .refl t
  status := rfl
  faddr := rfl
  acc := by rw [h.acc, h.same.seed0, h.same.seed1, h.same.bufLen]
  tail := h.tail
  blk := h.blk
  phase := by rw [h.phase, h.same.bufLen]

/-- What one step of a command over a held buffer comes to: fewer steps remain, or it is done with the closed form's
value. -/
def Advances (i : Instr) (bs : List Byte) (r : Nat) (s t : State) : Prop :=
  (SameOutside s t ∧ t.status = s.status ∧ t.faddr = s.faddr ∧ ∃ r', r' < r ∧ Stage i bs r' t) ∨
    CommandDone (closedHash Config.cfg i bs s.seed0 s.seed1) s t

/-- R203: CHECK passes to INIT or to FINISH. -/
theorem advances_check (hp : s.phase = .check) (hok : s.operandsChecked) (hi : decode s.cmd = .command i) :
    ∃ t, commandStep Config.cfg i s = .next t ∧ Advances i bs (stepCount s.bufLen) s t := by
  have hstep : commandStep Config.cfg i s = .next (s.enterPhase (if isLong s.bufLen then .init else .finish)) := by
    rw [commandStep_check hp, checkStep_passed hi hok]
  refine ⟨_, hstep, .inl ⟨.of_core_writes .., rfl, rfl, ?_⟩⟩
  by_cases hlong : 64 < s.bufLen.toNat
  · have hphase : (if isLong s.bufLen then Phase.init else .finish) = .init := if_pos ((isLong_iff _).2 hlong)
    rw [hphase, stepCount, if_pos hlong]
    exact ⟨2 + s.bufLen.toNat / 64, by omega, .init (s := s.enterPhase .init) rfl hlong⟩
  · have hphase : (if isLong s.bufLen then Phase.init else .finish) = .finish := if_neg (by rwa [isLong_iff])
    rw [hphase, stepCount, if_neg hlong]
    exact ⟨1, by omega, .short (s := s.enterPhase .finish) rfl (Nat.le_of_not_lt hlong)⟩

/-- R240: every step of a command over a held buffer takes it further. -/
theorem Stage.advances (h : Stage i bs r s) (hi : decode s.cmd = .command i) (hbuf : s.bufferIs bs) :
    ∃ t, commandStep Config.cfg i s = .next t ∧ Advances i bs r s t := by
  cases h with
  | check hp hok => exact advances_check hp hok hi
  | init hp hlong =>
    have hloop : AfterBlocks Config.cfg i bs s 0 (initStep Config.cfg i s) :=
      afterBlocks_initStep hlong (.refl s) rfl rfl
    exact ⟨_, commandStep_init hp, .inl ⟨hloop.same, rfl, rfl, _, by rw [hloop.same.bufLen]; omega,
      .blocks 0 hlong (Nat.zero_le _) hloop.self⟩⟩
  | blocks n hlong hn h =>
    by_cases hlast : n = s.bufLen.toNat / 64
    · obtain ⟨t, hstep, hdone⟩ := (hlast ▸ h).completes hbuf hlong
      exact ⟨t, hstep, .inr hdone⟩
    · obtain ⟨t, hstep, ht⟩ := h.next_block hbuf (by omega)
      have hlen : t.bufLen = s.bufLen := ht.same.bufLen
      exact ⟨t, hstep, .inl ⟨ht.same, ht.status, ht.faddr, _, by rw [hlen]; omega,
        .blocks (n + 1) (by rwa [hlen]) (by rw [hlen]; omega) ht.self⟩⟩
  | short hp hshort =>
    obtain ⟨t, hstep, hdone⟩ := commandStep_finish_bufferIs (c := Config.cfg) (i := i) hp hbuf (g := bs)
      (by simp [tailOffset_short _ hshort])
    rw [finishResults_short hbuf hshort] at hdone
    exact ⟨t, hstep, .inr hdone⟩

end

/-! ### The moves of the others -/

/-- What no move but the sequencer's touches while a command runs. -/
structure CommandUntouched (s t : State) : Prop extends CommandKept s t where
  acc : t.acc = s.acc
  tail : t.tail = s.tail
  blk : t.blk = s.blk
  phase : t.phase = s.phase
  busy : statusBusy t.status = statusBusy s.status

section
variable {i : Instr} {bs : List Byte} {s t : State} {n r : Nat}

theorem Stage.of_untouched (h : Stage i bs r s) (hst : CommandUntouched s t) : Stage i bs r t := by
  have hlen := hst.bufLen
  cases h with
  | check hp hok =>
    rw [← hlen]
    refine .check (hst.phase.trans hp) ?_
    unfold State.operandsChecked
    rwa [hlen, hst.bufBase, hst.bufCap]
  | init hp hlong =>
    rw [← hlen] at hlong ⊢
    exact .init (hst.phase.trans hp) hlong
  | blocks n hlong hn h =>
    have hloop : AfterBlocks Config.cfg i bs t n t := {
      same := .refl t
      status := rfl
      faddr := rfl
      acc := by rw [hst.acc, h.acc, hst.seed0, hst.seed1, hlen]
      tail := by rw [hst.tail, hst.acc]; exact h.tail
      blk := by rw [hst.blk, h.blk]
      phase := by rw [hst.phase, h.phase, hlen] }
    rw [← hlen] at hlong hn ⊢
    exact .blocks n hlong hn hloop
  | short hp hshort => exact .short (hst.phase.trans hp) (by rwa [hlen])

/-- A move that writes the hosts, the turns, the memory and bits of `STATUS` other than `BUSY` and `FAULT`. -/
theorem CommandUntouched.of_outside_writes (s : State) (mem : BufMem) (hosts : List HostAgent) (turns : List Turn)
    {status : Word} (hbusy : statusBusy status = statusBusy s.status)
    (hfault : statusFault status = statusFault s.status) :
    CommandUntouched s { s with mem, hosts, turns, status } where
  operands _ hn :=
    hostRead_operands_congr (s := s) (t := { s with mem, hosts, turns, status }) rfl rfl rfl rfl rfl rfl hn
  fault := hfault
  faddr := rfl
  acc := rfl
  tail := rfl
  blk := rfl
  phase := rfl
  busy := hbusy

/-- R30, R31: a host's move while a command runs writes its own record and, at most, the note of a dropped write. -/
theorem hostTurn_busy_eq (hb : statusBusy s.status = true) (k : Nat) :
    ∃ hosts status, hostTurn k s = { s with hosts, status } ∧ statusBusy status = statusBusy s.status ∧
      statusFault status = statusFault s.status := by
  rcases hostTurn_cases k s with hc | ⟨a, n, v, hc⟩ | ⟨a, hc⟩
  · exact ⟨_, _, hc, rfl, rfl⟩
  · by_cases h6 : 6 ≤ n
    · exact ⟨_, _, hc.trans (hostWrite_ignored h6 v _), rfl, rfl⟩
    · exact ⟨_, _, hc.trans (hostWrite_busy (s := s.withHost k a) (by omega) hb v), statusBusy_overrun _,
        statusFault_overrun _⟩
  · exact ⟨_, _, hc, rfl, rfl⟩

/-- R51, R184: a change of memory outside the buffer leaves the buffer's bytes. -/
theorem State.bufferIs.withChange (h : s.bufferIs bs) {e : EnvChange}
    (he : e.address < s.bufBase.toNat ∨ s.bufBase.toNat + s.bufLen.toNat ≤ e.address) :
    (s.withChange e).bufferIs bs := by
  obtain ⟨hlen, hspace, hbytes⟩ := h
  refine ⟨hlen, hspace, fun k b hk slot => ?_⟩
  have hin : k < bs.length := (List.getElem?_eq_some_iff.1 hk).1
  have hne : s.bufBase.toNat + k ≠ e.address := by omega
  exact (s.mem.answer_change_other e slot hne).trans (hbytes k b hk slot)

end

/-! ### The run among the others -/

/-- A command over a held buffer that has `r` steps to make, the fixed turns being the sequencer's, hosts' and changes of
memory outside the buffer: what `State.underway` says at its acceptance, at every later point of the run. -/
structure Running (i : Instr) (bs : List Byte) (r : Nat) (s : State) : Prop where
  busy : statusBusy s.status = true
  legal : decode s.cmd = .command i
  buffer : s.bufferIs bs
  stage : Stage i bs r s
  noReset : .reset ∉ s.turns
  outside : ∀ e, .environment e ∈ s.turns →
    e.address < s.bufBase.toNat ∨ s.bufBase.toNat + s.bufLen.toNat ≤ e.address

/-- What a move in the run comes to: the command runs on with less than `m` turns and steps left, or it is done. -/
def RunsOn (i : Instr) (bs : List Byte) (m : Nat) (s t : State) : Prop :=
  (CommandKept s t ∧ ∃ r, Running i bs r t ∧ t.turns.length + r < m) ∨
    EndsWith (closedHash Config.cfg i bs s.seed0 s.seed1) s t

section
variable {i : Instr} {bs : List Byte} {s t : State} {r m : Nat} {x : Turn} {ts : List Turn}

theorem State.underway.running (h : s.underway i bs) : Running i bs (stepCount s.bufLen) s :=
  { h with stage := .check h.phase h.checked }

theorem Running.of_kept {r' : Nat} (h : Running i bs r s) (hst : CommandKept s t)
    (hbusy : statusBusy t.status = statusBusy s.status) (hbuf : t.bufferIs bs) (hstage : Stage i bs r' t)
    (hturns : t.turns ⊆ s.turns) : Running i bs r' t where
  busy := hbusy.trans h.busy
  legal := hst.cmd ▸ h.legal
  buffer := hbuf
  stage := hstage
  noReset hmem := h.noReset (hturns hmem)
  outside e hmem := by
    rw [hst.bufBase, hst.bufLen]
    exact h.outside e (hturns hmem)

theorem Running.of_untouched (h : Running i bs r s) (hst : CommandUntouched s t) (hbuf : t.bufferIs bs)
    (hturns : t.turns ⊆ s.turns) : Running i bs r t :=
  h.of_kept hst.toCommandKept hst.busy hbuf (h.stage.of_untouched hst) hturns

theorem RunsOn.of_kept {u : State} {m' : Nat} (h : RunsOn i bs m t u) (hst : CommandKept s t) (hm : m ≤ m') :
    RunsOn i bs m' s u := by
  rcases h with ⟨hkept, r, hrun, hlt⟩ | hend
  · exact .inl ⟨hst.trans hkept, r, hrun, by omega⟩
  · rw [hst.seed0, hst.seed1] at hend
    exact .inr (hend.of_kept hst)

/-- The sequencer's turn takes the command one step further. -/
theorem Running.sequencerTurn (h : Running i bs r s) :
    ∃ t, sequencerTurn s = .next t ∧ RunsOn i bs (s.turns.length + r) s t := by
  obtain ⟨t, hstep, hadv⟩ := h.stage.advances h.legal h.buffer
  refine ⟨t, by rw [sequencerTurn_command h.legal, exec_eq, hstep], ?_⟩
  rcases hadv with ⟨hsame, hstatus, hfaddr, r', hr, hstage⟩ | hdone
  · have hkept : CommandKept s t := ⟨fun _ hn => hsame.hostRead_operands hn, by rw [hstatus], hfaddr⟩
    refine .inl ⟨hkept, r', h.of_kept hkept (by rw [hstatus]) (hsame.bufferIs h.buffer) hstage ?_, ?_⟩
    · exact hsame.turns ▸ List.Subset.refl _
    · rw [hsame.turns]
      omega
  · exact .inr hdone.endsWith

/-- A host's turn leaves the command where it stands. -/
theorem Running.hostTurn (h : Running i bs r s) (k : Nat) :
    CommandKept s (hostTurn k s) ∧ Running i bs r (hostTurn k s) ∧ (hostTurn k s).turns = s.turns := by
  obtain ⟨hosts, status, heq, hbusy, hfault⟩ := hostTurn_busy_eq h.busy k
  have hst := CommandUntouched.of_outside_writes s s.mem hosts s.turns hbusy hfault
  rw [heq]
  exact ⟨hst.toCommandKept, h.of_untouched hst h.buffer (List.Subset.refl _), rfl⟩

/-- A change of memory outside the buffer leaves the command where it stands. -/
theorem Running.withChange (h : Running i bs r s) {e : EnvChange}
    (he : e.address < s.bufBase.toNat ∨ s.bufBase.toNat + s.bufLen.toNat ≤ e.address) :
    CommandKept s (s.withChange e) ∧ Running i bs r (s.withChange e) := by
  have hst := CommandUntouched.of_outside_writes s (s.mem.change e) s.hosts s.turns rfl rfl
  exact ⟨hst.toCommandKept, h.of_untouched hst (h.buffer.withChange he) (List.Subset.refl _)⟩

/-- R18: a fixed turn, taken off the list, leaves the command where it stands or takes it further. -/
theorem Running.takeTurn (h : Running i bs r s) (hts : s.turns = x :: ts) :
    ∃ t, takeTurn x (s.withTurns ts) = .next t ∧ RunsOn i bs (s.turns.length + r) s t := by
  have hst := CommandUntouched.of_outside_writes s s.mem s.hosts ts rfl rfl
  have hmem : x ∈ s.turns := by simp [hts]
  have hrest : Running i bs r (s.withTurns ts) := h.of_untouched hst h.buffer (by simp [hts])
  have hlen : s.turns.length = (s.withTurns ts).turns.length + 1 := by simp [hts]
  cases x with
  | sequencer =>
    obtain ⟨t, hstep, hon⟩ := hrest.sequencerTurn
    exact ⟨t, hstep, hon.of_kept hst.toCommandKept (by omega)⟩
  | host k =>
    obtain ⟨hkept, hrun, hturns⟩ := hrest.hostTurn k
    exact ⟨_, rfl, .inl ⟨hst.toCommandKept.trans hkept, r, hrun, by rw [hturns]; omega⟩⟩
  | reset => exact absurd hmem h.noReset
  | environment e =>
    obtain ⟨hkept, hrun⟩ := hrest.withChange (h.outside e hmem)
    exact ⟨_, rfl, .inl ⟨hst.toCommandKept.trans hkept, r, hrun, by rw [State.withChange_turns]; omega⟩⟩

/-- R241: each step of the machine uses up a turn or a step of the command; with no turn left it is the sequencer's. -/
theorem Running.step (h : Running i bs r s) : ∃ t, step s = .next t ∧ RunsOn i bs (s.turns.length + r) s t := by
  cases hts : s.turns with
  | nil =>
    obtain ⟨t, hstep, hon⟩ := h.sequencerTurn
    rw [hts] at hon
    exact ⟨t, (step_busy hts h.stage.phase_ne_idle).trans hstep, hon⟩
  | cons x ts =>
    rw [step_turn hts, ← hts]
    exact h.takeTurn hts

/-- R184, R187: by induction on the turns and steps left, the command ends with the closed form's value. -/
theorem Running.ends (h : Running i bs r s) :
    ∃ k t, k ≤ s.turns.length + r ∧ s.endsAt k t ∧
      EndsWith (closedHash Config.cfg i bs s.seed0 s.seed1) s t := by
  induction hm : s.turns.length + r using Nat.strong_induction_on generalizing s r with
  | _ m ih =>
    obtain ⟨t, hstep, ⟨hkept, r', hrun, hlt⟩ | hend⟩ := h.step
    · obtain ⟨k, u, hk, hu, hend⟩ := ih _ (hm ▸ hlt) hrun rfl
      rw [hkept.seed0, hkept.seed1] at hend
      exact ⟨k + 1, u, by omega, State.endsAt_succ h.busy hstep hu, hend.of_kept hkept⟩
    · have hpos := h.stage.pos
      exact ⟨1, t, by omega, State.endsAt_succ h.busy hstep (State.endsAt_zero hend.busy), hend⟩

end

/-- Settles O59: acceptance leaves the command in CHECK with all its steps to make, and `Running.ends` is its run. -/
theorem interleavedCommandLeavesTheHash : Obligations.InterleavedCommandLeavesTheHash := by
  intro i s bs h
  obtain ⟨k, t, hk, hends, hend⟩ := h.running.ends
  exact ⟨k, t, hk, hends, hend.phase, hend.done, hend.kept.fault, hend.quiet, hend.kept.faddr, hend.result0,
    hend.result1, hend.kept.operands⟩

/-! ### The result of a whole command -/

/-- Settles O39: the run is `State.accepted.completes`, block by block. -/
theorem wholeCommandLeavesTheHash : Obligations.WholeCommandLeavesTheHash :=
  fun _ _ _ h hbuf => h.completes hbuf

/-- R184: two runs that have the turns to themselves leave the one value of the closed form. -/
theorem State.accepted.results_eq {i : Instr} {s s' t t' : State} {bs : List Byte} (h : s.accepted i)
    (hbuf : s.bufferIs bs) (h' : s'.accepted i) (hbuf' : s'.bufferIs bs) (h0 : s'.seed0 = s.seed0)
    (h1 : s'.seed1 = s.seed1) (ht : runSteps (stepCount s.bufLen) s = .next t)
    (ht' : runSteps (stepCount s'.bufLen) s' = .next t') : t'.result0 = t.result0 ∧ t'.result1 = t.result1 := by
  obtain ⟨u, hrun, hdone⟩ := h.completes hbuf
  obtain ⟨u', hrun', hdone'⟩ := h'.completes hbuf'
  obtain rfl : u = t := by simpa [hrun] using ht
  obtain rfl : u' = t' := by simpa [hrun'] using ht'
  rw [h0, h1] at hdone'
  exact ⟨hdone'.result0.trans hdone.result0.symm, hdone'.result1.trans hdone.result1.symm⟩

/-- Settles O40: both runs leave the closed form's value, alone (`State.accepted.results_eq`) or among other agents
(`Running.ends`), and it depends on the seeds used only (`closedHash_congr`). -/
theorem resultDependsOnBytesAndSeedsOnly : Obligations.ResultDependsOnBytesAndSeedsOnly := by
  refine ⟨fun i s s' t t' bs h hbuf h' hbuf' h0 h1 ht ht' => h.results_eq hbuf h' hbuf' h0 h1 ht ht', ?_⟩
  intro i s s' bs h h' h0 h1
  obtain ⟨k, t, -, hends, hend⟩ := h.running.ends
  obtain ⟨k', t', -, hends', hend'⟩ := h'.running.ends
  rw [closedHash_congr h0 h1] at hend'
  exact ⟨k, k', t, t', hends, hends', hend.done, hend'.done, hend'.result0.trans hend.result0.symm,
    hend'.result1.trans hend.result1.symm⟩

/-- R203: with length 0 the tests of CHECK pass and the buffer holds no bytes, whatever base, capacity and memory are. -/
theorem State.accepted_of_length_zero {i : Instr} {s : State} (hp : s.phase = .check) (hts : s.turns = [])
    (hi : decode s.cmd = .command i) (hlen : s.bufLen = 0) : s.accepted i ∧ s.bufferIs [] := by
  have hzero : s.bufLen.toNat = 0 := by rw [hlen]; rfl
  have hbase := s.bufBase.isLt
  exact ⟨⟨hp, hts, hi, .inl hlen, by omega, by omega⟩, hzero.symm, by omega, nofun⟩

/-- Settles O41: the run is `State.accepted.completes` over the empty buffer; the six values are computed. -/
theorem zeroLengthCommandCompletes : Obligations.ZeroLengthCommandCompletes := by
  refine ⟨fun i s hp hts hi hlen => ?_, by decide, by decide, by decide, by decide, by decide, by decide⟩
  obtain ⟨h, hbuf⟩ := State.accepted_of_length_zero hp hts hi hlen
  have hcount : stepCount s.bufLen = 2 := by rw [hlen]; rfl
  rw [← hcount]
  exact h.completes hbuf

end Sys2Proof.Machine
end

section
/-! PROOFS. Fault entry and step CHECK (spec 60_exceptions.md R201 to R206): the words that are illegal, the record they leave,
and the tests of CHECK in their order. -/

namespace Sys2Proof

/-- R72: the command numbers past the last row of the table name no command. -/
theorem commandOf_eq_illegalCommand_iff {op : BitVec 3} : commandOf op = .illegalCommand ↔ 5 < op.toNat := by
  revert op
  decide

/-- R75: the illegal words by their two fields. -/
theorem decode_eq_illegalCommand_iff_fields {w : Word} :
    decode w = .illegalCommand ↔ rsvField w ≠ 0 ∨ 5 < (opField w).toNat := by
  by_cases hrsv : rsvField w = 0
  · rw [decode, if_pos hrsv, commandOf_eq_illegalCommand_iff]
    exact ⟨.inr, fun h => h.resolve_left (not_not_intro hrsv)⟩
  · rw [decode, if_neg hrsv]
    exact iff_of_true rfl (.inl hrsv)

/-- R72, R75: the fields of a legal word. -/
theorem exists_decode_eq_command {w : Word} (hrsv : rsvField w = 0) (hop : (opField w).toNat ≤ 5) :
    ∃ i, decode w = .command i := by
  cases hd : decode w with
  | command i => exact ⟨i, rfl⟩
  | illegalCommand =>
    rcases decode_eq_illegalCommand_iff_fields.mp hd with hrsv' | hop'
    · exact absurd hrsv hrsv'
    · omega

end Sys2Proof

namespace Sys2Proof.Machine

/-- Settles O17: the record and the frame are `faultTaken_faultEntry`. -/
theorem faultEntryWritesTheRecord : Obligations.FaultEntryWritesTheRecord := faultTaken_faultEntry

section
variable {i : Instr} {s : State}

/-- R27: in CHECK every command takes the same step. -/
theorem exec_check (hp : s.phase = .check) : exec i s = .next (checkStep s) := by
  rw [exec_eq, commandStep_check hp]

/-- R205: a CHECK that comes to fault entry takes that fault. -/
theorem exec_check_faultTaken {k : Cause} (hp : s.phase = .check) (h : checkStep s = faultEntry k 0 s) :
    ∃ t, exec i s = .next t ∧ FaultTaken k 0 s t :=
  ⟨_, by rw [exec_check hp, h], faultTaken_faultEntry ..⟩

/-- R203: the phase that a passed CHECK enters, by the length as a natural number. -/
theorem enterPhase_isLong :
    s.enterPhase (if isLong s.bufLen then .init else .finish) =
      { s with phase := if 64 < s.bufLen.toNat then .init else .finish } := by
  simp only [State.enterPhase, isLong_iff]

/-- Settles O18: an illegal word decides first, then the operand tests, as the branches of `checkOperands`. -/
theorem checkStepDecides : Obligations.CheckStepDecides := by
  intro i s hp
  refine ⟨fun hillegal => exec_check_faultTaken hp (checkStep_illegal (decode_eq_illegalCommand_iff_fields.mpr hillegal)),
    fun hrsv hop => ?_⟩
  obtain ⟨j, hj⟩ := exists_decode_eq_command hrsv hop
  have hcheck : checkStep s = checkOperands s := checkStep_command hj
  split
  next hnull => exact exec_check_faultTaken hp (by rw [hcheck, checkOperands, if_pos hnull])
  next hnull =>
    split
    next hcap => exact exec_check_faultTaken hp (by rw [hcheck, checkOperands, if_neg hnull, if_pos hcap])
    next hcap =>
      split
      next hwrap =>
        exact exec_check_faultTaken hp (by rw [hcheck, checkOperands, if_neg hnull, if_neg hcap, if_pos hwrap])
      next hwrap =>
        rw [exec_check hp, hcheck, checkOperands, if_neg hnull, if_neg hcap, if_neg hwrap, enterPhase_isLong]

/-- R202, R205: the sequencer's step on an illegal word takes the fault, and leaves `STATUS` 0x14 where it was 0x01. -/
theorem sequencerTurn_illegal_faultTaken (hp : s.phase = .check) (hd : decode s.cmd = .illegalCommand) :
    ∃ t, sequencerTurn s = .next t ∧ t.turns = s.turns ∧ FaultTaken .illegalCommand 0 s t ∧
      (s.status = 0x1 → t.status = 0x14) := by
  refine ⟨_, sequencerTurn_illegal_check hd hp, rfl, faultTaken_faultEntry .., fun hst => ?_⟩
  rw [faultEntry_status, hst]
  decide

end

/-- Settles O9: each of the three steps is the sequencer's turn of `sequencerTurn_illegal_faultTaken`. -/
theorem illegalWordFaultsInCheck : Obligations.IllegalWordFaultsInCheck := by
  intro s hp hillegal
  have hd : decode s.cmd = .illegalCommand := decode_eq_illegalCommand_iff_fields.mpr hillegal
  obtain ⟨t, hturn, -, hfault, hstatus⟩ := sequencerTurn_illegal_faultTaken hp hd
  refine ⟨⟨t, hturn, hfault, hstatus⟩, fun ts hts => ?_, fun hts => ?_⟩
  · rw [step_turn hts]
    exact sequencerTurn_illegal_faultTaken (s := s.withTurns ts) hp hd
  · have hbusy : s.phase ≠ .idle := by simp [hp]
    exact ⟨t, (step_busy hts hbusy).trans hturn, hfault, hstatus⟩

end Sys2Proof.Machine
end

section
/-! PROOFS. The reset event, and a read that is never answered (spec 70_reset_and_hazards.md R230 to R232, R242): the one
clears CORE and nothing around it, the other changes nothing at all. -/

namespace Sys2Proof.Machine

/-- R230, R231: a turn of the reset event is taken off and CORE cleared. -/
theorem step_reset {s : State} {ts : List Turn} (hts : s.turns = .reset :: ts) :
    step s = .next (coreReset (s.withTurns ts)) := by
  rw [step_turn hts, takeTurn]

/-- Settles O2: the step is the `coreReset` of `step_reset`, which keeps the fields that are not CORE's. -/
theorem resetEventClearsCore : Obligations.ResetEventClearsCore := fun _ _ hts =>
  ⟨_, step_reset hts, rfl, rfl, rfl, fun _ _ => rfl⟩

/-- R242: a reading step whose first read without a byte is one without an answer changes nothing. -/
theorem commandStep_first_silent {c : Cfg} {i : Instr} {s : State} {k a : Nat} (hk : (readOrder s)[k]? = some a)
    (hlt : ∀ b ∈ readOrder s, b < 2 ^ 64) (hbefore : ∀ j b, j < k → (readOrder s)[j]? = some b → s.mem.answers b)
    (ha : ∀ slot, s.mem.answer slot a = .silent) : commandStep c i s = .next s := by
  have hmem : a ∈ readOrder s := List.mem_of_getElem? hk
  have hbyte (slot : Nat) : readByte s.mem slot a = .silent := by rw [readByte, if_pos (hlt a hmem), ha]
  have hreads : readBytes s.mem s.draws (readOrder s) = .silent :=
    readBytes_first k a .silent hk hlt hbefore hbyte nofun
  rw [commandStep_reading (absorb_or_finish_of_mem_readOrder hmem), hreads, andThen_silent, afterReads_silent]

/-- Settles O20: the step is the one of `commandStep_first_silent`. -/
theorem unansweredReadStaysInTheStep : Obligations.UnansweredReadStaysInTheStep := by
  intro i s k a hk hlt hbefore ha
  rw [exec_eq, commandStep_first_silent hk hlt hbefore ha]

end Sys2Proof.Machine
end

section
/-! PROOFS. The steps to a refused byte (spec 70_reset_and_hazards.md R240, 42_chunked_absorber.md R161): how far a command
comes over the bytes that are answered, and the fault at the first that is not. -/

namespace Sys2Proof.Machine

/-- R154, R58: a block's 64 bytes are read in rising order. -/
theorem planAddresses_blockPlan (base : Nat) : planAddresses base blockPlan = (List.range 64).map (base + ·) := by
  have hoffsets : (blockPlan.flatMap fun e => (List.range e.2).map (e.1 + ·)) = List.range 64 := by decide
  rw [← hoffsets, List.map_flatMap, planAddresses]
  simp [Function.comp_def, Nat.add_assoc]

theorem planAddresses_blockPlan_getElem? (base : Nat) {k : Nat} (hk : k < 64) :
    (planAddresses base blockPlan)[k]? = some (base + k) := by
  simp [planAddresses_blockPlan, hk]

theorem readOrder_absorb {s : State} (hp : s.phase = .absorb) :
    readOrder s = planAddresses (blockAddress s) blockPlan := by
  rw [readOrder, hp]

theorem readOrder_finish {s : State} (hp : s.phase = .finish) :
    readOrder s = planAddresses (tailAddress s) (tailPlan (tailLength s.bufLen)) := by
  rw [readOrder, hp]

/-- After `k` steps from `s` the command has come to `t` and not ended. -/
structure Reaches (k : Nat) (s t : State) : Prop where
  run : runSteps k s = .next t
  same : SameOutside s t
  status : t.status = s.status

section
variable {i : Instr} {s t u : State} {k n : Nat}

/-- The record of a fault speaks of the operands, the environment and `STATUS` only. -/
theorem FaultTaken.of_frame {cause : Cause} {f : Word} (hst : SameOutside s t) (hstatus : t.status = s.status)
    (h : FaultTaken cause f t u) : FaultTaken cause f s u :=
  { h with
    same := hst.trans h.same
    ovr := by rw [h.ovr, hstatus]
    reserved := by rw [h.reserved, hstatus] }

/-- R203: a buffer that CHECK has passed ends below 2^64. -/
theorem State.accepted.buffer_end_le (h : s.accepted i) : s.bufBase.toNat + s.bufLen.toNat ≤ 2 ^ 64 := by
  obtain ⟨-, -, -, -, -, hend⟩ := h
  exact hend

/-- One more step of an accepted command is one more step of the run (log entry 7). -/
theorem Reaches.run_succ (h : Reaches k s t) (hs : s.accepted i) (hp : t.phase ≠ .idle)
    (hstep : commandStep Config.cfg i t = .next u) : runSteps (k + 1) s = .next u := by
  obtain ⟨-, hts, hi, -⟩ := hs
  rw [← step_command (h.same.turns.trans hts) hp (by rwa [h.same.cmd])] at hstep
  rw [runSteps_add h.run, runSteps_succ hstep, runSteps]

theorem Reaches.succ (h : Reaches k s t) (hs : s.accepted i) (hp : t.phase ≠ .idle)
    (hstep : commandStep Config.cfg i t = .next u) (hstatus : u.status = t.status) : Reaches (k + 1) s u where
  run := h.run_succ hs hp hstep
  same := h.same.trans (commandStep_sameOutside hstep)
  status := hstatus.trans h.status

/-! ### Over answered bytes -/

/-- R203: the first step of a command whose operands pass is a CHECK that goes on. -/
theorem State.accepted.reaches_past_check (h : s.accepted i) :
    Reaches 1 s (s.enterPhase (if isLong s.bufLen then .init else .finish)) where
  run := by rw [runSteps_succ h.step_check, runSteps]
  same := .of_core_writes ..
  status := rfl

/-- R152: the second step of a long command is INIT. -/
theorem State.accepted.reaches_first_block (h : s.accepted i) (hlong : 64 < s.bufLen.toNat) :
    ∃ t, Reaches 2 s t ∧ t.blk = 0 ∧ t.phase = .absorb := by
  have hcheck := h.reaches_past_check
  rw [if_pos ((isLong_iff _).2 hlong)] at hcheck
  exact ⟨_, hcheck.succ h (by simp) (commandStep_init rfl) rfl, rfl, rfl⟩

/-- R154: ABSORB of a block whose bytes are answered, settled or not, goes on. -/
theorem commandStep_block_answered {c : Cfg} (hp : s.phase = .absorb) (hend : blockAddress s + 64 ≤ 2 ^ 64)
    (hans : ∀ x, blockAddress s ≤ x → x < blockAddress s + 64 → s.mem.answers x) :
    ∃ ws, commandStep c i s = .next (absorbWords c i ws s.takeSlots) := by
  refine commandStep_absorb_answered hp fun x hx => ?_
  rw [readOrder_absorb hp] at hx
  obtain ⟨hlo, hhi⟩ := mem_planAddresses hx blockPlan_in
  exact ⟨by omega, hans x hlo hhi⟩

/-- R240: after CHECK and INIT, one step for each block whose bytes are answered. -/
theorem State.accepted.reaches_block (h : s.accepted i) (hlong : 64 < s.bufLen.toNat) (hn : n ≤ s.bufLen.toNat / 64)
    (hans : ∀ x, s.bufBase.toNat ≤ x → x < s.bufBase.toNat + 64 * n → s.mem.answers x) :
    ∃ t, Reaches (2 + n) s t ∧ t.blk.toNat = n ∧
      t.phase = if n = s.bufLen.toNat / 64 then .finish else .absorb := by
  induction n with
  | zero =>
    obtain ⟨t, hreach, hblk, hp⟩ := h.reaches_first_block hlong
    exact ⟨t, hreach, by simp [hblk], by rw [hp, if_neg (by omega)]⟩
  | succ n ih =>
    obtain ⟨t, hreach, hblk, hphase⟩ := ih (by omega) fun x hlo hhi => hans x hlo (by omega)
    have hend := h.buffer_end_le
    have hp : t.phase = .absorb := by rw [hphase, if_neg (by omega)]
    have haddr : blockAddress t = s.bufBase.toNat + 64 * n := by rw [blockAddress, hblk, hreach.same.bufBase]
    obtain ⟨ws, hstep⟩ := commandStep_block_answered (c := Config.cfg) (i := i) hp (by omega) fun x hlo hhi => by
      rw [hreach.same.mem]
      exact hans x (by omega) (by omega)
    have hlast := blk_succ_eq_nblkOf_iff (b := t.blk) (len := s.bufLen) (by omega)
    refine ⟨_, hreach.succ h (by simp [hp]) hstep rfl, ?_, ?_⟩
    · show (t.blk + 1).toNat = n + 1
      have := s.bufLen.isLt
      bv_omega
    · show (if t.blk + 1 = nblkOf t.bufLen then Phase.finish else .absorb) = _
      simp only [hreach.same.bufLen, hlast, hblk]

/-- R240: over answered blocks FINISH is the last of the command's steps. -/
theorem State.accepted.reaches_finish (h : s.accepted i)
    (hans : ∀ x, s.bufBase.toNat ≤ x → x < tailAddress s → s.mem.answers x) :
    ∃ t k, Reaches k s t ∧ t.phase = .finish ∧ k + 1 = stepCount s.bufLen := by
  rw [stepCount]
  split
  next hlong =>
    rw [tailAddress, tailOffset_long _ hlong] at hans
    obtain ⟨t, hreach, -, hp⟩ := h.reaches_block hlong le_rfl hans
    exact ⟨t, _, hreach, by rw [hp, if_pos rfl], by omega⟩
  next hshort =>
    have hcheck := h.reaches_past_check
    rw [if_neg (by rwa [isLong_iff])] at hcheck
    exact ⟨_, 1, hcheck, rfl, rfl⟩

/-! ### The refused byte -/

/-- R161, R204: the step at which the first refused read falls is the last, and leaves the fault's record. -/
theorem Reaches.faults (h : Reaches k s t) (hs : s.accepted i) {j a : Nat} (hj : (readOrder t)[j]? = some a)
    (hlt : ∀ x ∈ readOrder t, x < 2 ^ 64) (hbefore : ∀ l x, l < j → (readOrder t)[l]? = some x → s.mem.answers x)
    (ha : ∀ slot, s.mem.answer slot a = .refused) :
    ∃ u, runSteps (k + 1) s = .next u ∧ FaultTaken .bufferAccess (BitVec.ofNat 64 a) s u := by
  have hp : t.phase ≠ .idle := by
    rcases absorb_or_finish_of_mem_readOrder (List.mem_of_getElem? hj) with hp | hp <;> simp [hp]
  rw [← h.same.mem] at hbefore ha
  exact ⟨_, h.run_succ hs hp (commandStep_first_refused hj hlt hbefore ha),
    (faultTaken_faultEntry ..).of_takeSlots.of_frame h.same h.status⟩

/-- R240: a byte refused in block `n` ends the command in step `3 + n`. -/
theorem State.accepted.faults_in_block (h : s.accepted i) (hlong : 64 < s.bufLen.toNat)
    (hn : n < s.bufLen.toNat / 64) (hk : k < 64)
    (hans : ∀ x, s.bufBase.toNat ≤ x → x < s.bufBase.toNat + 64 * n + k → s.mem.answers x)
    (hrefused : ∀ slot, s.mem.answer slot (s.bufBase.toNat + 64 * n + k) = .refused) :
    ∃ t, runSteps (3 + n) s = .next t ∧
      FaultTaken .bufferAccess (BitVec.ofNat 64 (s.bufBase.toNat + 64 * n + k)) s t := by
  obtain ⟨t, hreach, hblk, hphase⟩ := h.reaches_block hlong hn.le fun x hlo hhi => hans x hlo (by omega)
  have hend := h.buffer_end_le
  have hp : t.phase = .absorb := by rw [hphase, if_neg (by omega)]
  have horder : readOrder t = planAddresses (s.bufBase.toNat + 64 * n) blockPlan := by
    rw [readOrder_absorb hp, blockAddress, hblk, hreach.same.bufBase]
  have hat {l : Nat} (hl : l < 64) : (readOrder t)[l]? = some (s.bufBase.toNat + 64 * n + l) := by
    rw [horder, planAddresses_blockPlan_getElem? _ hl]
  rw [show 3 + n = 2 + n + 1 by omega]
  refine hreach.faults h (hat hk) (fun x hx => ?_) (fun l x hl hx => ?_) hrefused
  · rw [horder] at hx
    obtain ⟨-, hhi⟩ := mem_planAddresses hx blockPlan_in
    omega
  · obtain rfl : s.bufBase.toNat + 64 * n + l = x := by simpa [hat (hl.trans hk)] using hx
    exact hans _ (by omega) (by omega)

/-- R240: a byte refused in the tail ends the command in FINISH, its last step. -/
theorem State.accepted.faults_in_tail (h : s.accepted i) {j a : Nat}
    (hans : ∀ x, s.bufBase.toNat ≤ x → x < tailAddress s → s.mem.answers x)
    (hbefore : ∀ l x, l < j → (planAddresses (tailAddress s) (tailPlan (tailLength s.bufLen)))[l]? = some x →
      s.mem.answers x)
    (hj : (planAddresses (tailAddress s) (tailPlan (tailLength s.bufLen)))[j]? = some a)
    (hrefused : ∀ slot, s.mem.answer slot a = .refused) :
    ∃ t, runSteps (stepCount s.bufLen) s = .next t ∧ FaultTaken .bufferAccess (BitVec.ofNat 64 a) s t := by
  obtain ⟨t, k, hreach, hp, hk⟩ := h.reaches_finish hans
  have hend := h.buffer_end_le
  have horder : readOrder t = planAddresses (tailAddress s) (tailPlan (tailLength s.bufLen)) := by
    rw [readOrder_finish hp, tailAddress, tailAddress, hreach.same.bufBase, hreach.same.bufLen]
  rw [← horder] at hbefore hj
  rw [← hk]
  refine hreach.faults h hj (fun x hx => ?_) hbefore hrefused
  rw [horder] at hx
  obtain ⟨-, hhi⟩ := mem_planAddresses hx (tailPlan_in _ (tailLength_le_64 _))
  have hsum := tailOffset_add_tailLength s.bufLen
  rw [tailAddress] at hhi
  omega

end

/-- Settles O42: a refused byte in a block by `faults_in_block`, in the tail by `faults_in_tail`. -/
theorem bufferFaultStepCount : Obligations.BufferFaultStepCount := fun _ _ h =>
  ⟨fun _ _ hlong hb hk hans hrefused => h.faults_in_block hlong hb hk hans hrefused,
    fun _ _ hans hbefore hj hrefused => h.faults_in_tail hans hbefore hj hrefused⟩

end Sys2Proof.Machine
end

section
/-! PROOFS. Termination (spec 70_reset_and_hazards.md R241, 60_exceptions.md R207): a bound on the steps that a running command
has left, which every answered step takes down until the command has ended, done or faulted. -/

namespace Sys2Proof.Machine

/-- A command has ended: CORE is idle with exactly one of `DONE` and `FAULT`. -/
def State.ended (s : State) : Prop := s.phase = .idle ∧ (statusDone s.status = true ↔ statusFault s.status = false)

/-- The most steps that the command which `s` runs has left (R240). -/
def stepsLeft (s : State) : Nat :=
  match s.phase with
  | .idle => 0
  | .check => 3 + s.bufLen.toNat / 64
  | .init => 2 + s.bufLen.toNat / 64
  | .absorb => 1 + (s.bufLen.toNat / 64 - s.blk.toNat)
  | .finish => 1

/-- A step of a running command ends it or leaves fewer steps. -/
def Nears (s t : State) : Prop := t.ended ∨ t.phase ≠ .idle ∧ stepsLeft t < stepsLeft s

/-- No read of the buffer that the operand registers describe goes unanswered. -/
def State.bufferAnswered (s : State) : Prop :=
  ∀ a, s.bufBase.toNat ≤ a → a < s.bufBase.toNat + s.bufLen.toNat → ∀ slot, s.mem.answer slot a ≠ .silent

section
variable {c : Cfg} {i : Instr} {s t : State}

theorem SameOutside.bufferAnswered (h : SameOutside s t) (hs : s.bufferAnswered) : t.bufferAnswered := by
  unfold State.bufferAnswered
  rwa [h.bufBase, h.bufLen, h.mem]

theorem stepsLeft_le (s : State) : stepsLeft s ≤ 3 + s.bufLen.toNat / 64 := by
  unfold stepsLeft
  split <;> omega

theorem stepsLeft_pos (hp : s.phase ≠ .idle) : 0 < stepsLeft s := by
  unfold stepsLeft
  split
  next hidle => exact absurd hidle hp
  all_goals omega

theorem FaultTaken.ended {cause : Cause} {f : Word} (h : FaultTaken cause f s t) : t.ended :=
  ⟨h.phase, by simp [h.done, h.fault]⟩

theorem CommandDone.ended {r : Word × Word} (h : CommandDone r s t) (hs : statusFault s.status = false) : t.ended :=
  ⟨h.phase, by simp [h.done, h.fault, hs]⟩

/-- R203: CHECK faults, or leaves INIT and what follows, or FINISH. -/
theorem nears_checkStep (hp : s.phase = .check) : Nears s (checkStep s) := by
  rcases checkStep_cases s with ⟨k, hc⟩ | ⟨-, -, hc⟩ <;> rw [hc]
  · exact .inl (faultTaken_faultEntry k 0 s).ended
  · refine .inr ?_
    cases isLong s.bufLen with
    | true => exact ⟨by simp, by simp [stepsLeft, hp]⟩
    | false => exact ⟨by simp, by simp [stepsLeft, hp]; omega⟩

/-- R152: INIT leaves one ABSORB for each block, and FINISH. -/
theorem nears_initStep (hp : s.phase = .init) : Nears s (initStep c i s) :=
  .inr ⟨by simp [initStep], by simp [initStep, stepsLeft, hp]⟩

/-- R154: ABSORB leaves the blocks after its own, and FINISH. -/
theorem nears_absorbWords (hp : s.phase = .absorb) (hblk : s.blk.toNat < (nblkOf s.bufLen).toNat) (ws : List Word) :
    Nears s (absorbWords c i ws s) := by
  have hn := nblkOf_toNat s.bufLen
  refine .inr ?_
  by_cases hlast : s.blk + 1 = nblkOf s.bufLen
  · have hphase : (absorbWords c i ws s).phase = .finish := absorbed_phase_eq_finish_iff.2 hlast
    refine ⟨by simp [hphase], ?_⟩
    simp only [stepsLeft, hphase, hp]
    omega
  · have hphase : (absorbWords c i ws s).phase = .absorb := absorbed_phase_eq_absorb_iff.2 hlast
    have hnext : (s.blk + 1).toNat = s.blk.toNat + 1 := by bv_omega
    refine ⟨by simp [hphase], ?_⟩
    simp only [stepsLeft, hphase, hp]
    show 1 + (s.bufLen.toNat / 64 - (s.blk + 1).toNat) < _
    omega

/-- R51, R161, R174: a reading step whose every read is answered makes its writes or takes the fault. -/
theorem commandStep_reading_not_silent (hp : s.phase = .absorb ∨ s.phase = .finish)
    (h : ∀ a ∈ readOrder s, a < 2 ^ 64 ∧ ∀ slot, s.mem.answer slot a ≠ .silent) :
    (∃ ws, commandStep c i s =
        .next ((if s.phase = .absorb then absorbWords c i else finishWords c i) ws s.takeSlots)) ∨
      ∃ a, commandStep c i s = .next (faultEntry .bufferAccess (BitVec.ofNat 64 a) s.takeSlots) := by
  rw [commandStep_reading hp]
  rcases readBytes_answered (slot := s.draws) h with ⟨bs, hr⟩ | ⟨a, hr⟩ <;> rw [hr]
  · exact .inl ⟨_, by rw [andThen_ok, afterReads_ok]⟩
  · exact .inr ⟨a, by rw [andThen_refused, afterReads_refused]⟩

/-- R207, R241: ABSORB and FINISH near the end or come to it. -/
theorem commandStep_reading_nears (h : s.Inv) (hp : s.phase = .absorb ∨ s.phase = .finish) (hs : s.bufferAnswered) :
    ∃ t, commandStep c i s = .next t ∧ Nears s t := by
  obtain ⟨-, -, hend⟩ := h.checked_past_check (.inr hp)
  have hreads : ∀ a ∈ readOrder s, a < 2 ^ 64 ∧ ∀ slot, s.mem.answer slot a ≠ .silent := fun a ha => by
    obtain ⟨hlo, hhi⟩ := readOrder_in_buffer h ha
    exact ⟨by omega, hs a hlo hhi⟩
  rcases commandStep_reading_not_silent (c := c) (i := i) hp hreads with ⟨ws, hstep⟩ | ⟨a, hstep⟩
  · refine ⟨_, hstep, ?_⟩
    rcases hp with hp | hp
    · rw [if_pos hp]
      exact nears_absorbWords (s := s.takeSlots) hp (h.blk_absorb hp) ws
    · obtain ⟨-, -, hfault, -⟩ := h.running (by simp [hp])
      rw [if_neg (by simp [hp])]
      exact .inl ((commandDone_finishWords c i ws s).ended hfault)
  · exact ⟨_, hstep, .inl (faultTaken_faultEntry ..).ended⟩

/-- R202, R203: in CHECK the sequencer's turn is CHECK, be the word legal or not. -/
theorem sequencerTurn_check (hp : s.phase = .check) : sequencerTurn s = .next (checkStep s) := by
  cases hd : decode s.cmd with
  | command i => rw [sequencerTurn_command hd, exec_check hp]
  | illegalCommand => rw [sequencerTurn_illegal_check hd hp, checkStep_illegal hd]

/-- R49 (h): past CHECK the sequencer's turn is a step of one of the six commands. -/
theorem sequencerTurn_pastCheck (h : s.Inv) (hp : s.pastCheck) :
    ∃ i, sequencerTurn s = commandStep Config.cfg i s := by
  obtain ⟨i, hi⟩ := h.legal_past_check hp
  exact ⟨i, by rw [sequencerTurn_command hi, exec_eq]⟩

/-- R241: each step of a running command whose reads are answered ends it or leaves fewer steps. -/
theorem sequencerTurn_nears (h : s.Inv) (hp : s.phase ≠ .idle) (hs : s.bufferAnswered) :
    ∃ t, sequencerTurn s = .next t ∧ Nears s t := by
  cases hphase : s.phase with
  | idle => exact absurd hphase hp
  | check => exact ⟨_, sequencerTurn_check hphase, nears_checkStep hphase⟩
  | init =>
    obtain ⟨i, hturn⟩ := sequencerTurn_pastCheck h (.inl hphase)
    exact ⟨_, hturn.trans (commandStep_init hphase), nears_initStep hphase⟩
  | absorb =>
    obtain ⟨i, hturn⟩ := sequencerTurn_pastCheck h (.inr (.inl hphase))
    rw [hturn]
    exact commandStep_reading_nears h (.inl hphase) hs
  | finish =>
    obtain ⟨i, hturn⟩ := sequencerTurn_pastCheck h (.inr (.inr hphase))
    rw [hturn]
    exact commandStep_reading_nears h (.inr hphase) hs

/-- R207, R241: a running command that has the turns to itself ends within the steps it has left. -/
theorem ends_within_stepsLeft (h : s.Inv) (hp : s.phase ≠ .idle) (hts : s.turns = []) (hs : s.bufferAnswered) :
    ∃ k t, k ≤ stepsLeft s ∧ runSteps k s = .next t ∧ t.ended := by
  induction hm : stepsLeft s using Nat.strong_induction_on generalizing s with
  | _ m ih =>
    subst hm
    obtain ⟨t, hturn, hnears⟩ := sequencerTurn_nears h hp hs
    have hsame : SameOutside s t := sequencerTurn_sameOutside hturn
    have hinv : t.Inv := sequencerTurn_inv h hturn
    rw [← step_busy hts hp] at hturn
    rcases hnears with hended | ⟨hp', hless⟩
    · exact ⟨1, t, stepsLeft_pos hp, runSteps_succ hturn, hended⟩
    · obtain ⟨k, u, hk, hrun, hu⟩ := ih _ hless hinv hp' (hsame.turns.trans hts) (hsame.bufferAnswered hs) rfl
      exact ⟨k + 1, u, by omega, by rw [runSteps_succ hturn, hrun], hu⟩

end

/-- Settles O43: the steps that a command has left, `ends_within_stepsLeft`, are within the bound by `stepsLeft_le`. -/
theorem everyCommandEnds : Obligations.EveryCommandEnds := by
  intro s h hp hts hs
  obtain ⟨k, t, hk, hrun, hidle, hone⟩ := ends_within_stepsLeft h hp hts hs
  exact ⟨k, t, hk.trans (stepsLeft_le s), hrun, hidle, hone⟩

end Sys2Proof.Machine
end
